-- ==== Sys2Proof/Word.lean ====
section
/-! DEFINITION. The word types of the codec: a host byte (R8) and the 16-bit TPI receive word (R9). -/

namespace Sys2Proof

/-- One byte: eight data lines at one slot, bit `i` is DBUS`i` (R8, R68). -/
abbrev Byte := BitVec 8

/-- The TPI receive word `res` (R9, R22 d). -/
abbrev Word16 := BitVec 16

end Sys2Proof
end

