-- ==== Sys2Proof/Config.lean ====
section
/-! DEFINITION. What an implementation fixes: the constants of R5 and R6, the pins and the shape of a PinMap (R7, R18),
the number of a TPI error (R128), the baud multiplier formula (R169), and the free values the spec leaves to the
environment. A free value is an opaque constant: nothing can be proved of what it is. -/

namespace Sys2Proof

/-- The logical pins of the PinMap (R7). -/
inductive Pin where
  | sck | sdo | sdi | reset | buff | vcc | led0 | led1 | led2 | led3
  deriving DecidableEq, Repr

/-- One entry of the PinMap: the data line bits the pin stands on, and 1 when its logical level is the complement of
the line level (R18). -/
structure PinCfg where
  mask : Byte
  inv  : Bool
  deriving DecidableEq, Repr

/-- The PinMap (R7, R18): one entry for each logical pin. -/
structure PinMap where
  sck   : PinCfg
  sdo   : PinCfg
  sdi   : PinCfg
  reset : PinCfg
  buff  : PinCfg
  vcc   : PinCfg
  led0  : PinCfg
  led1  : PinCfg
  led2  : PinCfg
  led3  : PinCfg
  deriving DecidableEq, Repr

namespace Config

/-- `FT245R_CYCLES`: slots per bit (R5). -/
abbrev cycles : Nat := 2
/-- `FT245R_CMD_SIZE`: host bytes of a 4-byte ISP command without its closing byte (R5). -/
abbrev cmdSize : Nat := 64
/-- `FT245R_FRAGMENT_SIZE`: host bytes of a full fragment without its closing byte (R5). -/
abbrev fragmentSize : Nat := 512
/-- `FIFO_CHUNK`: size of the staging buffer and bound on outstanding bytes (R5, R23, R25). -/
abbrev fifoChunk : Nat := 128
/-- `RX_CAPACITY`: size of the receive ring (R5, R24). -/
abbrev rxCapacity : Nat := 8192
/-- `REQ_OUTSTANDINGS`: fragments the pager keeps outstanding (R5); no operation of the codec reads it. -/
abbrev reqOutstandings : Nat := 10
/-- `BITBANG_VARIABLE_PULSE_WIDTH_WORKAROUND` (R5). -/
abbrev pulseWidthWorkaround : Nat := 0

/-- `BYTE_SLOTS`: host bytes per ISP byte (R6). -/
abbrev byteSlots : Nat := 16
/-- `CMD_SLOTS`: host bytes of `cmd` with its closing byte (R6). -/
abbrev cmdSlots : Nat := 65
/-- `TPI_FRAME_CELLS` (R6). -/
abbrev tpiFrameCells : Nat := 12
/-- `TPI_TX_SLOTS` (R6). -/
abbrev tpiTxSlots : Nat := 24
/-- `TPI_RX_CELLS` (R6). -/
abbrev tpiRxCells : Nat := 16
/-- `TPI_RX_SLOTS` (R6). -/
abbrev tpiRxSlots : Nat := 32
/-- `TPI_START_WINDOW`: the start bit is among the first 4 cells (R6). -/
abbrev tpiStartWindow : Nat := 4
/-- `ISP_SAMPLE_OFFSET` (R6, R74). -/
abbrev ispSampleOffset : Nat := 2
/-- `TPI_SAMPLE_OFFSET` (R6, R78). -/
abbrev tpiSampleOffset : Nat := 1
/-- Commands in a fragment: at most `FT245R_FRAGMENT_SIZE / FT245R_CMD_SIZE` (R73). -/
abbrev maxFragmentCommands : Nat := 8

/-- The bit clock a session has when its caller names none, in Hz (R168). -/
abbrev defaultBitclock : Nat := 150000
/-- `ftdi_rate`: the rate the workaround locks the chip to (R169). -/
abbrev workaroundRate : Nat := 750000

/-- `baud_multiplier` for a bit clock of `rate > 0`: the ceiling of `ftdi_rate / rate` when the workaround is compiled
in, 1 otherwise (R169, R95 f). -/
def baudMultiplierFor (workaround rate : Nat) : Nat :=
  if workaround = 0 then 1 else (workaroundRate + rate - 1) / rate

/-- The multiplier `open` gives this hardware: 1, since the switch is 0 (R16, R29). -/
def sessionBaudMultiplier : Nat := baudMultiplierFor pulseWidthWorkaround defaultBitclock

/-- Magnitude, less one, of `TPI_ERR_CODE` (R128 names no number): open. -/
opaque tpiErrMagnitude : Nat
/-- Sign of `TPI_ERR_CODE` (R128 names no number): open. -/
opaque tpiErrNegative : Bool

/-- `TPI_ERR_CODE`: the one non-zero number every TPI error maps to (R7, R128). -/
def tpiErrCode : Int :=
  if tpiErrNegative then -(tpiErrMagnitude + 1 : Int) else (tpiErrMagnitude + 1 : Int)

/-- Free value: the sample `S[k]` of a session whose drive stream up to and with `D[k]` is `drive` (R50, U1). -/
opaque freeSample (drive : List Byte) (k : Nat) : Byte

/-- Free value: what the chip's pin register reads after the drive stream `drive`, at the `k`-th read (R94, U4). -/
opaque freePins (drive : List Byte) (k : Nat) : Byte

/-- Free value: the position `rd = wr` of the ring when it is emptied for the `k`-th time (R44 gives no number). -/
opaque freeRingIndex (k : Nat) : Nat

/-- Free value: how many bytes of a write that failed reached the chip, after the drive stream `drive` (R45, N20). -/
opaque freeWritten (drive : List Byte) : Nat

/-- Free value: the shadow register after a `Fault`, the drive stream being `drive` (U7, N20). -/
opaque freeOutAfterFault (drive : List Byte) : Byte

end Config

end Sys2Proof
end

