-- ==== Sys2Proof/Syntax.lean ====
section
/-! DEFINITION. The operations as syntax: one constructor of `Instr` for each row of spec/opcode_table.json, with the
operands its rule gives it (R67). Naturals are unbounded (R9). -/

namespace Sys2Proof

/-- The four bytes of an ISP command, `cmd[0]` first (R53). -/
structure Cmd where
  c0 : Byte
  c1 : Byte
  c2 : Byte
  c3 : Byte
  deriving DecidableEq, Repr

/-- The operations of R67. A level operand `x : Nat` is read as `x ≠ 0` (R85 f). -/
inductive Instr where
  /-- `set_bits(v, pin, x)`, R91 -/
  | setBits (v : Byte) (pin : Pin) (x : Nat)
  /-- `get_bits(v, pin)`, R92 -/
  | getBits (v : Byte) (pin : Pin)
  /-- `set_pin(pin, x)`, R93 -/
  | setPin (pin : Pin) (x : Nat)
  /-- `get_pin(pin)`, R94 -/
  | getPin (pin : Pin)
  /-- `cell(x)`, R100 -/
  | cell (x : Bool)
  /-- `set_data(B)`, R101 -/
  | setData (b : Byte)
  /-- `close_stretch()`, R104 -/
  | closeStretch
  /-- `close_idle()`, R105 -/
  | closeIdle
  /-- `extract_data(rx, w)`, R106 -/
  | extractData (rx : List Byte) (w : Nat)
  /-- `cmd(cmd[4])`, R107 -/
  | cmd (c : Cmd)
  /-- `frag_encode(cmds, last)`, R109 -/
  | fragEncode (cmds : List Cmd) (last : Bool)
  /-- `frag_extract(rx, ws)`, R110 -/
  | fragExtract (rx : List Byte) (ws : List Nat)
  /-- `tpi_frame(B)`, R115 -/
  | tpiFrame (b : Byte)
  /-- `tpi_tx(B)`, R116 -/
  | tpiTx (b : Byte)
  /-- `tpi_rx()`, R117 -/
  | tpiRx
  /-- `tpi_decode(res)`, R118 -/
  | tpiDecode (res : Word16)
  /-- `cmd_tpi(cmd[], res_len)`, R119 -/
  | cmdTpi (cmd : List Byte) (resLen : Nat)
  /-- `send(bytes, discard)`, R39 -/
  | send (bytes : List Byte) (discard : Bool)
  /-- `flush()`, R40 -/
  | flush
  /-- `fill()`, R41 -/
  | fill
  /-- `recv(n)`, R43 -/
  | recv (n : Nat)
  /-- `drain()`, R44 -/
  | drain
  /-- `usleep(us)`, R46 -/
  | usleep (us : Nat)
  deriving DecidableEq, Repr

end Sys2Proof
end

