-- ==== Sys2Proof/WellFormed.lean ====
section
/-! DEFINITION. Which operations the spec gives a meaning by their operands alone (R85 a and b, R93): everything but an
extraction past the end of the received bytes, a fragment of 0 or more than 8 commands, and a write of the input pin. -/

namespace Sys2Proof

/-- `extract_data(rx, w)` needs `16w + 16 < len(rx)` (R54, R85 a, R106). -/
def extractInBounds (len w : Nat) : Bool := decide (Config.byteSlots * w + Config.byteSlots < len)

/-- A fragment has 1 to 8 commands (R73, R85 b, R109). -/
def fragmentCountOk (k : Nat) : Bool := decide (1 ≤ k ∧ k ≤ Config.maxFragmentCommands)

/-- SDI is the one input pin; `set_pin` is for the others (R19, R93). -/
def isOutputPin (p : Pin) : Bool := decide (p ≠ .sdi)

/-- The operands of `i` are ones the spec gives a meaning (R85, R93). -/
def Instr.wellFormed : Instr → Bool
  | .setPin p _ => isOutputPin p
  | .extractData rx w => extractInBounds rx.length w
  | .fragEncode cmds _ => fragmentCountOk cmds.length
  | .fragExtract rx ws => ws.all (extractInBounds rx.length)
  | .setBits _ _ _ => true
  | .getBits _ _ => true
  | .getPin _ => true
  | .cell _ => true
  | .setData _ => true
  | .closeStretch => true
  | .closeIdle => true
  | .cmd _ => true
  | .tpiFrame _ => true
  | .tpiTx _ => true
  | .tpiRx => true
  | .tpiDecode _ => true
  | .cmdTpi _ _ => true
  | .send _ _ => true
  | .flush => true
  | .fill => true
  | .recv _ => true
  | .drain => true
  | .usleep _ => true

end Sys2Proof
end

