-- ==== Sys2Proof/Decode.lean ====
section
/-! DEFINITION. The command port's packet: decoding, total on any bytes and refusing by name, then the encoder.

The selector is `op[4:0]` of the first byte (R84); its bits 7 to 5 are outside the table's mask and are not looked at.
The operands follow in the order of R67. No opcode or operand layout exists on any wire (R84, D13), so the layout below
is the model's own (DESIGN CHOICE, log 1): a byte is itself; a truth value is a byte, read as `x ≠ 0`; a pin is its
place in the list of R7; a natural is 7 bits a byte, low bits first, bit 7 set on every byte but the last; a list is its
length and then its elements; a fragment's count is `k − 1`; the received bytes of `extract_data` have their length
less 17, the fewest a word and its closing sample need; `res` of `tpi_decode` is its low byte, then its high byte. -/

namespace Sys2Proof

/-- Why a packet is not an operation. -/
inductive DecodeError where
  /-- The packet holds no selector byte. -/
  | empty
  /-- A selector `0x17` to `0x1F` (R85 d). -/
  | selector (op : Nat)
  /-- The packet ends inside an operand. -/
  | short
  /-- No pin of the PinMap has this number (R7). -/
  | pin (n : Nat)
  /-- A fragment of 0 or more than 8 commands (R85 b). -/
  | fragmentCount (k : Nat)
  deriving DecidableEq, Repr

/-- What reading one operand gives: its value and the bytes after it, or why it cannot be read. -/
abbrev Parse (α : Type) := Except DecodeError (α × List Byte)

/-- Reads an operand and goes on with the bytes after it. -/
def parseThen {α β : Type} (p : Parse α) (f : α → List Byte → Parse β) : Parse β :=
  match p with
  | .error e => .error e
  | .ok (a, bs) => f a bs

/-- The fewest received bytes `extract_data` can read a word from (R54, R154). -/
abbrev minExtractLength : Nat := 17

/-- The pins in the order of R7. -/
def pinNumber : Pin → Nat
  | .sck => 0 | .sdo => 1 | .sdi => 2 | .reset => 3 | .buff => 4
  | .vcc => 5 | .led0 => 6 | .led1 => 7 | .led2 => 8 | .led3 => 9

def pinOfNumber : Nat → Option Pin
  | 0 => some .sck | 1 => some .sdo | 2 => some .sdi | 3 => some .reset | 4 => some .buff
  | 5 => some .vcc | 6 => some .led0 | 7 => some .led1 | 8 => some .led2 | 9 => some .led3
  | _ => none

def getByte : List Byte → Parse Byte
  | [] => .error .short
  | b :: bs => .ok (b, bs)

def getBool (bs : List Byte) : Parse Bool :=
  parseThen (getByte bs) fun b bs => .ok (decide (b ≠ 0), bs)

def getPinOperand (bs : List Byte) : Parse Pin :=
  parseThen (getByte bs) fun b bs =>
    match pinOfNumber b.toNat with
    | some p => .ok (p, bs)
    | none => .error (.pin b.toNat)

def getNat : List Byte → Parse Nat
  | [] => .error .short
  | b :: bs =>
    if b.toNat < 128 then .ok (b.toNat, bs)
    else parseThen (getNat bs) fun n bs => .ok (b.toNat - 128 + 128 * n, bs)

def getWord16 (bs : List Byte) : Parse Word16 :=
  parseThen (getByte bs) fun lo bs =>
  parseThen (getByte bs) fun hi bs => .ok (hi ++ lo, bs)

def getCmd (bs : List Byte) : Parse Cmd :=
  parseThen (getByte bs) fun c0 bs =>
  parseThen (getByte bs) fun c1 bs =>
  parseThen (getByte bs) fun c2 bs =>
  parseThen (getByte bs) fun c3 bs => .ok (⟨c0, c1, c2, c3⟩, bs)

/-- Reads `n` operands of one kind. -/
def getMany {α : Type} (one : List Byte → Parse α) : Nat → List Byte → Parse (List α)
  | 0, bs => .ok ([], bs)
  | n + 1, bs =>
    parseThen (one bs) fun a bs =>
    parseThen (getMany one n bs) fun as bs => .ok (a :: as, bs)

/-- A list with its length before it. -/
def getList {α : Type} (one : List Byte → Parse α) (bs : List Byte) : Parse (List α) :=
  parseThen (getNat bs) fun n bs => getMany one n bs

/-- The operands of the operation with selector `op` (R67, R84). -/
def decodeOperands (op : Nat) (bs : List Byte) : Parse Instr :=
  match op with
  | 0x00 =>
    parseThen (getByte bs) fun v bs => parseThen (getPinOperand bs) fun p bs =>
    parseThen (getNat bs) fun x bs => .ok (.setBits v p x, bs)
  | 0x01 =>
    parseThen (getByte bs) fun v bs => parseThen (getPinOperand bs) fun p bs => .ok (.getBits v p, bs)
  | 0x02 =>
    parseThen (getPinOperand bs) fun p bs => parseThen (getNat bs) fun x bs => .ok (.setPin p x, bs)
  | 0x03 => parseThen (getPinOperand bs) fun p bs => .ok (.getPin p, bs)
  | 0x04 => parseThen (getBool bs) fun x bs => .ok (.cell x, bs)
  | 0x05 => parseThen (getByte bs) fun b bs => .ok (.setData b, bs)
  | 0x06 => .ok (.closeStretch, bs)
  | 0x07 => .ok (.closeIdle, bs)
  | 0x08 =>
    parseThen (getNat bs) fun n bs => parseThen (getMany getByte (n + minExtractLength) bs) fun rx bs =>
    parseThen (getNat bs) fun w bs => .ok (.extractData rx w, bs)
  | 0x09 => parseThen (getCmd bs) fun c bs => .ok (.cmd c, bs)
  | 0x0A =>
    parseThen (getByte bs) fun k bs =>
    if fragmentCountOk (k.toNat + 1) then
      parseThen (getMany getCmd (k.toNat + 1) bs) fun cmds bs =>
      parseThen (getBool bs) fun last bs => .ok (.fragEncode cmds last, bs)
    else .error (.fragmentCount (k.toNat + 1))
  | 0x0B =>
    parseThen (getList getByte bs) fun rx bs => parseThen (getList getNat bs) fun ws bs =>
    .ok (.fragExtract rx ws, bs)
  | 0x0C => parseThen (getByte bs) fun b bs => .ok (.tpiFrame b, bs)
  | 0x0D => parseThen (getByte bs) fun b bs => .ok (.tpiTx b, bs)
  | 0x0E => .ok (.tpiRx, bs)
  | 0x0F => parseThen (getWord16 bs) fun res bs => .ok (.tpiDecode res, bs)
  | 0x10 =>
    parseThen (getList getByte bs) fun cmd bs => parseThen (getNat bs) fun n bs => .ok (.cmdTpi cmd n, bs)
  | 0x11 =>
    parseThen (getList getByte bs) fun bytes bs => parseThen (getBool bs) fun d bs => .ok (.send bytes d, bs)
  | 0x12 => .ok (.flush, bs)
  | 0x13 => .ok (.fill, bs)
  | 0x14 => parseThen (getNat bs) fun n bs => .ok (.recv n, bs)
  | 0x15 => .ok (.drain, bs)
  | 0x16 => parseThen (getNat bs) fun us bs => .ok (.usleep us, bs)
  | op => .error (.selector op)

/-- Reads the operation at the head of a packet; what follows its operands is left over. -/
def decode : List Byte → Parse Instr
  | [] => .error .empty
  | b :: bs => decodeOperands (b.toNat % 32) bs

/-! ### The encoder -/

/-- The selector of an operation (R84). -/
def selector : Instr → Nat
  | .setBits _ _ _ => 0x00
  | .getBits _ _ => 0x01
  | .setPin _ _ => 0x02
  | .getPin _ => 0x03
  | .cell _ => 0x04
  | .setData _ => 0x05
  | .closeStretch => 0x06
  | .closeIdle => 0x07
  | .extractData _ _ => 0x08
  | .cmd _ => 0x09
  | .fragEncode _ _ => 0x0A
  | .fragExtract _ _ => 0x0B
  | .tpiFrame _ => 0x0C
  | .tpiTx _ => 0x0D
  | .tpiRx => 0x0E
  | .tpiDecode _ => 0x0F
  | .cmdTpi _ _ => 0x10
  | .send _ _ => 0x11
  | .flush => 0x12
  | .fill => 0x13
  | .recv _ => 0x14
  | .drain => 0x15
  | .usleep _ => 0x16

def putPin (p : Pin) : List Byte := [BitVec.ofNat 8 (pinNumber p)]

def putBool (x : Bool) : List Byte := [if x then 1 else 0]

/-- The bytes of a natural, seven bits each; `fuel` bounds how many continue. -/
def putNatFuel : Nat → Nat → List Byte
  | 0, n => [BitVec.ofNat 8 n]
  | fuel + 1, n =>
    if n < 128 then [BitVec.ofNat 8 n] else BitVec.ofNat 8 (n % 128 + 128) :: putNatFuel fuel (n / 128)

def putNat (n : Nat) : List Byte := putNatFuel n n

def putWord16 (w : Word16) : List Byte := [w.extractLsb' 0 8, w.extractLsb' 8 8]

def putCmd (c : Cmd) : List Byte := [c.c0, c.c1, c.c2, c.c3]

def putBytes (bs : List Byte) : List Byte := putNat bs.length ++ bs

/-- The operand bytes of an operation, in the order `decodeOperands` reads them. -/
def encodeOperands : Instr → List Byte
  | .setBits v p x => v :: (putPin p ++ putNat x)
  | .getBits v p => v :: putPin p
  | .setPin p x => putPin p ++ putNat x
  | .getPin p => putPin p
  | .cell x => putBool x
  | .setData b => [b]
  | .closeStretch => []
  | .closeIdle => []
  | .extractData rx w => putNat (rx.length - minExtractLength) ++ rx ++ putNat w
  | .cmd c => putCmd c
  | .fragEncode cmds last => BitVec.ofNat 8 (cmds.length - 1) :: (cmds.flatMap putCmd ++ putBool last)
  | .fragExtract rx ws => putBytes rx ++ (putNat ws.length ++ ws.flatMap putNat)
  | .tpiFrame b => [b]
  | .tpiTx b => [b]
  | .tpiRx => []
  | .tpiDecode res => putWord16 res
  | .cmdTpi cmd n => putBytes cmd ++ putNat n
  | .send bytes d => putBytes bytes ++ putBool d
  | .flush => []
  | .fill => []
  | .recv n => putNat n
  | .drain => []
  | .usleep us => putNat us

/-- The packet of an operation. -/
def encode (i : Instr) : List Byte := BitVec.ofNat 8 (selector i) :: encodeOperands i

/-! ### The opcode table's numbering of bits -/

/-- The bytes of a number of `n` bytes, bits 7 to 0 first: bit 0 of the table's word is the least significant bit of the
first byte. -/
def wordBytes : Nat → Nat → List Byte
  | 0, _ => []
  | n + 1, w => BitVec.ofNat 8 w :: wordBytes n (w / 256)

/-- Bytes enough for the operands of any operation whose operand bytes are all 0 (`extract_data`: 19). -/
abbrev longestZeroOperands : Nat := 24

/-- The packet of a word of the opcode table: its bytes, then operand bytes of zeros. -/
def tableWordPacket (nbits w : Nat) : List Byte :=
  wordBytes ((nbits + 7) / 8) w ++ List.replicate longestZeroOperands 0

/-- What the decoder reads from an instruction whose bits are `w`, numbered as the opcode table numbers them, every bit
above `nbits` being 0. -/
def decodeTableWord (nbits w : Nat) : Option Instr :=
  match decode (tableWordPacket nbits w) with
  | .ok (i, _) => some i
  | .error _ => none

end Sys2Proof
end

