-- ==== Sys2Proof/Machine/State.lean ====
section
/-! DEFINITION. The state of the codec as plain data: the session's registers and PinMap (R13 to R19), the channel's
staging buffer, receive ring and counters (R23 to R26), the two streams on the line (R35), the host's coming calls
(R11, R137) and what the last operation handed back (R21); why a step can stop; and the state after reset (R29). -/

namespace Sys2Proof.Machine

/-- A byte buffer: the bytes that are not 0, by rising index (canonical form: `Memory.wf`). An index that is not listed
reads as `unlistedByte`. -/
abbrev Memory := List Host.Cell

/-- The reasons of a `Fault` of the channel (R131). -/
inductive FaultReason where
  | transport | shortWrite
  deriving DecidableEq, Repr

/-- Where the session is in its life: after `setup`, after `open`, after a `Fault` (recorded for the rest of the session,
R148 a, U7), after `close` (R29, R146, R147, R153). -/
inductive Session where
  | setup | opened
  | faulted (reason : FaultReason)
  | closed
  deriving DecidableEq, Repr

/-- The causes of a TPI receive error (R127). -/
inductive TpiCause where
  | startMissing | parity | stop
  deriving DecidableEq, Repr

/-- What the last operation handed back to its caller. -/
inductive Ret where
  /-- No operation has returned yet, or the last one ended in a `Fault`. -/
  | unset
  /-- Returned without a value; for `tpi_tx`, success. -/
  | done
  /-- A byte: `set_bits`, `extract_data`, `tpi_rx`, `tpi_decode`. -/
  | byte (b : Byte)
  /-- A logical level: `get_bits`, `get_pin`. -/
  | level (x : Bool)
  /-- The cells of a frame in time order: `tpi_frame`. -/
  | cells (f : List Bool)
  /-- The bytes emitted to the drive buffer: `cell`, `set_data`, `close_stretch`, `close_idle`. -/
  | drive (bs : List Byte)
  /-- Result bytes: `cmd`, `frag_extract`, `cmd_tpi`, `recv`. -/
  | bytes (bs : List Byte)
  /-- A count: `fill`. -/
  | count (n : Nat)
  /-- A TPI error: its cause and the result bytes written before it (R130). -/
  | tpiError (cause : TpiCause) (res : List Byte)
  deriving DecidableEq, Repr

/-- The answer of the transport to a read (R45). -/
inductive ReadReply where
  /-- At most so many samples. -/
  | got (n : Nat)
  /-- An error. -/
  | failed
  /-- No sample, to this read or to any later one: the transport that never delivers (R138, U8; log 6). -/
  | starved
  deriving DecidableEq, Repr

/-- The answer of the transport to a write (R45): so many bytes taken at most, or an error. -/
inductive WriteReply where
  | took (n : Nat)
  | failed
  deriving DecidableEq, Repr

/-- The answer of the transport to `ReadPins` (R94): the level of the eight lines, or an error. -/
inductive PinReply where
  | lines (v : Byte)
  | failed
  deriving DecidableEq, Repr

/-- The answer of the transport to a control call: those of `open` (R147) and a bit mode change (R44, R45). -/
inductive ModeReply where
  | accepted
  | failed
  deriving DecidableEq, Repr

/-- The line behind the channel: the two streams (R35) and what the outside will answer (R11 agents 2 and 3). Where a list
of answers is empty, the answers are those of logs 5 to 8. -/
structure Line where
  /-- The drive stream `D[0], D[1], …` written to the chip so far. -/
  drive    : List Byte
  /-- How many samples have been read back or lost to a drain. -/
  taken    : Nat
  /-- The samples the environment is known to give: `S[k]` for `k` below its length. The others are free values. -/
  samples  : List Byte
  /-- Coming answers to reads. -/
  reads    : List ReadReply
  /-- Coming answers to writes. -/
  writes   : List WriteReply
  /-- Coming answers to `ReadPins`. -/
  pins     : List PinReply
  /-- Coming answers to control calls: opening, latency timer, bit mode, baud rate. -/
  modes    : List ModeReply
  /-- `ReadPins` made so far: the counter of free pin values. -/
  pinReads : Nat
  /-- How often the ring was emptied so far: the counter of free ring positions. -/
  drains   : Nat
  deriving DecidableEq, Repr

/-- `TxBuffer` (R23). -/
structure TxBuffer where
  buf : Memory
  len : Nat
  deriving DecidableEq, Repr

/-- `RxRing` (R24). -/
structure RxRing where
  buf : Memory
  len : Nat
  rd  : Nat
  wr  : Nat
  deriving DecidableEq, Repr

/-- The buffered duplex channel (R13, R23 to R26) and the line behind it. `echoes` and `aside` are the model's own (log 19):
which bytes the owed discards stand for, as offsets in the drive stream, newest first; and samples asked for that a receive
had to read on the way to an owed discard and set aside, oldest first (the head of R47's queue). -/
structure Channel where
  tx      : TxBuffer
  ring    : RxRing
  pending : Nat
  discard : Nat
  echoes  : List Nat
  aside   : List Byte
  line    : Line
  deriving DecidableEq, Repr

/-- One call of the host (R11, R137): open the session with a PinMap, close it, or call the operation in a packet of the
command port. -/
inductive HostCall where
  | openSession (pm : PinMap)
  | closeSession
  | op (packet : List Byte)
  deriving DecidableEq, Repr

/-- Why an operation, or the machine, stops. -/
inductive Fault where
  /-- R131 `Fault(reason)`, the outcome of an operation when a transport call fails or takes fewer bytes than offered: the
  reason, and the line as the call left it. Raised by every operation that writes, reads, reads the pins or drains, and by
  the opening and the close of a session; `step` records it in the session and goes on (U7), so that it never stops the machine. Safe: the
  spec's own fatal error. -/
  | channel (reason : FaultReason) (left : Line)
  /-- R42, R138, U8: a blocking fill that no sample can end, since none is outstanding or the transport never delivers. Raised
  by all that receives, and by all that flushes when the chip has no room. Safe: the spec's stuck state, which never
  completes. -/
  | stuck
  /-- An index outside `tx.buf` or `ring.buf` (R23, R24). Raised by the staging of a byte, the push to the ring and the take
  from it, in states no run reaches. Safe: the model stops. -/
  | bufferIndex
  /-- R22, U5: a result byte that was never written is read. Raised by `readResult`. Safe: the model stops. -/
  | unwrittenResult
  deriving DecidableEq, Repr

/-- Why a call is refused. -/
inductive Refusal where
  /-- The operation has no meaning in the model yet. Raised by `exec`. Safe: nothing can be proved of the operation. -/
  | notModelled (mnemonic : String)
  /-- The packet is no operation: an unassigned selector (R85 d) or operands that cannot be read. Raised by the fetch of a
  call. Safe: the machine refuses. -/
  | packet (e : DecodeError)
  /-- R146, R153, U7, U13: an operation called when no session is open, or after a `Fault`. Raised by the fetch of a call.
  Safe: refused as the spec says. -/
  | sessionNotOpen
  /-- An open of a session that is not fresh from setup, or a close before open or after close (U13). Raised by the host
  calls. Safe: the machine refuses. -/
  | sessionOrder
  /-- R20, R85 c, U9: a PinMap with no meaning. Raised by the open of a session. Safe: refused as the spec says. -/
  | illegalPinMap
  /-- R93: `set_pin` on SDI. Raised by `set_pin`. Safe: refused as the spec says. -/
  | setPinOnInput
  /-- R85 a, U10: extraction past the end of the received bytes. Raised by `extract_data` and `frag_extract`. Safe: refused
  as the spec says. -/
  | extractPastEnd
  /-- R85 b, U11: a fragment of 0 or more than 8 commands. Raised by `frag_encode`. Safe: refused as the spec says. -/
  | fragmentCount
  /-- R59, U6: a received byte finds the ring full. Raised by `fill` and all that fills. Safe: refused as the spec says. -/
  | ringFull
  deriving DecidableEq, Repr

/-- The outcomes of an operation of the machine. -/
abbrev Out (α : Type) := Host.Outcome α Fault Refusal

/-- The state of the machine. -/
structure State where
  /-- Where the session is in its life (R29). -/
  session        : Session
  /-- The shadow of the last byte written to the data pins (R14). -/
  out            : Byte
  /-- The direction register (R15). -/
  ddr            : Byte
  /-- The repeat count per host byte (R16). -/
  baudMultiplier : Nat
  /-- The PinMap of the session (R18). -/
  pinMap         : PinMap
  /-- The channel (R23 to R26). -/
  chan           : Channel
  /-- The host's coming calls, oldest first (R11). -/
  calls          : List HostCall
  /-- What the last operation handed back (R21). -/
  ret            : Ret
  deriving DecidableEq, Repr

/-- A pin that is not configured: mask 0 (R19). -/
def noPin : PinCfg := ⟨0, false⟩

/-- The PinMap that is "not yet populated" (R29): no pin is configured. -/
def emptyPinMap : PinMap := ⟨noPin, noPin, noPin, noPin, noPin, noPin, noPin, noPin, noPin, noPin⟩

/-- A line on which nothing has been driven; every sample and every answer is left to the environment. -/
def Line.reset : Line := ⟨[], 0, [], [], [], [], [], 0, 0⟩

/-- The channel after setup (R29, R146): buffers of zeros, counters 0. -/
def Channel.reset : Channel := ⟨⟨[], 0⟩, ⟨[], 0, 0, 0⟩, 0, 0, [], [], Line.reset⟩

/-- The state right after setup: all state zero-initialised (R29, R146); no call queued, nothing returned. -/
def State.reset : State where
  session := .setup
  out := 0x00
  ddr := 0x00
  baudMultiplier := 0
  pinMap := emptyPinMap
  chan := Channel.reset
  calls := []
  ret := .unset

/-- The state with the shadow register at `o`. -/
def State.setOut (s : State) (o : Byte) : State := { s with out := o }

/-- The state with the channel `c`. -/
def State.setChan (s : State) (c : Channel) : State := { s with chan := c }

/-- The state with `r` handed back. -/
def State.setRet (s : State) (r : Ret) : State := { s with ret := r }

/-- The state with the calls `cs` to come. -/
def State.setCalls (s : State) (cs : List HostCall) : State := { s with calls := cs }

/-- The state with the session at `x`. -/
def State.setSession (s : State) (x : Session) : State := { s with session := x }

/-- The state with the PinMap, direction register and multiplier of a session. -/
def State.configure (s : State) (pm : PinMap) (d : Byte) (m : Nat) : State :=
  { s with pinMap := pm, ddr := d, baudMultiplier := m }

end Sys2Proof.Machine
end

