-- ==== Sys2Proof/Machine/Operands.lean ====
section
/-! DEFINITION. The operand forms: pins and levels (R85 f, R91, R92), bits of bytes in either order (R52, R81), sample
bits at an offset (R74, R78), and the legality of a PinMap (R15, R20). -/

namespace Sys2Proof.Machine

/-- The PinMap's entry of a pin (R18). -/
def pinCfg (pm : PinMap) : Pin → PinCfg
  | .sck => pm.sck
  | .sdo => pm.sdo
  | .sdi => pm.sdi
  | .reset => pm.reset
  | .buff => pm.buff
  | .vcc => pm.vcc
  | .led0 => pm.led0
  | .led1 => pm.led1
  | .led2 => pm.led2
  | .led3 => pm.led3

/-- A level operand, read as `x ≠ 0` (R85 f, R91). -/
def levelOf (x : Nat) : Bool := decide (x ≠ 0)

/-- `SetBits(v, p, x)` (R91): the mask's bits at the line level of the logical level `x`, the others as in `v`. -/
def setBits (v : Byte) (p : PinCfg) (x : Bool) : Byte :=
  if x ^^ p.inv then v ||| p.mask else v &&& ~~~p.mask

/-- `GetBits(v, p)` (R92): the logical level of the pin in `v`. -/
def getBits (v : Byte) (p : PinCfg) : Bool :=
  decide (v &&& p.mask ≠ 0) ^^ p.inv

/-- The direction register of a PinMap: the union of the masks of the output pins (R15). -/
def ddrOf (pm : PinMap) : Byte :=
  pm.sck.mask ||| pm.sdo.mask ||| pm.reset.mask ||| pm.buff.mask ||| pm.vcc.mask |||
    pm.led0.mask ||| pm.led1.mask ||| pm.led2.mask ||| pm.led3.mask

/-- The masks of the pins the codec does not use (R20). -/
def neighbourMask (pm : PinMap) : Byte :=
  pm.reset.mask ||| pm.buff.mask ||| pm.vcc.mask ||| pm.led0.mask ||| pm.led1.mask ||| pm.led2.mask ||| pm.led3.mask

/-- Exactly one bit is set. -/
def oneBit (m : Byte) : Bool := decide (m ≠ 0 ∧ m &&& (m - 1) = 0)

/-- The PinMaps the spec gives a meaning (R20). -/
def pinMapLegal (pm : PinMap) : Bool :=
  oneBit pm.sck.mask && oneBit pm.sdo.mask && oneBit pm.sdi.mask &&
  decide (pm.sck.mask ≠ pm.sdo.mask) && decide (pm.sck.mask ≠ pm.sdi.mask) && decide (pm.sdo.mask ≠ pm.sdi.mask) &&
  decide (pm.sdi.mask &&& ddrOf pm = 0) &&
  decide (pm.sck.mask &&& ddrOf pm = pm.sck.mask) && decide (pm.sdo.mask &&& ddrOf pm = pm.sdo.mask) &&
  decide (pm.sck.mask &&& neighbourMask pm = 0) && decide (pm.sdo.mask &&& neighbourMask pm = 0) &&
  decide (pm.sdi.mask &&& neighbourMask pm = 0)

/-- The bits of a byte, most significant first: the order of ISP (R52). -/
def bitsMsb (b : Byte) : List Bool := (List.range 8).map fun j => b.getLsbD (7 - j)

/-- The bits of a byte, least significant first: the order of TPI (R52). -/
def bitsLsb (b : Byte) : List Bool := (List.range 8).map fun i => b.getLsbD i

/-- `v` with bit `i` set if `x` (R81). -/
def setBitIf {w : Nat} (v : BitVec w) (i : Nat) (x : Bool) : BitVec w :=
  if x then v ||| BitVec.twoPow w i else v

/-- The byte whose bit `7 − j` is `f j`, put together from 0 in the order `j = 0 .. 7` (R81). -/
def assembleMsb (f : Nat → Bool) : Byte := (List.range 8).foldl (fun r j => setBitIf r (7 - j) (f j)) 0

/-- The byte whose bit `i` is `f i`, put together from 0 in the order `i = 0 .. 7` (R81). -/
def assembleLsb (f : Nat → Bool) : Byte := (List.range 8).foldl (fun r i => setBitIf r i (f i)) 0

/-- The 16-bit word whose bit `k` is `f k` (R81). -/
def assembleWord (f : Nat → Bool) : Word16 :=
  (List.range Config.tpiRxCells).foldl (fun r k => setBitIf r k (f k)) 0

/-- The logical level of SDI in the sample at offset `k` (R68). -/
def sdiAt (pm : PinMap) (rx : List Byte) (k : Nat) : Bool := getBits (rx.getD k 0) pm.sdi

/-- ISP word `w` of the received bytes: bit `7 − j` is SDI at offset `16w + 2 + 2j` (R74, R106). -/
def ispWord (pm : PinMap) (rx : List Byte) (w : Nat) : Byte :=
  assembleMsb fun j => sdiAt pm rx (Config.byteSlots * w + Config.ispSampleOffset + 2 * j)

/-- The TPI word of the received bytes: bit `k` is SDI at offset `2k + 1` (R78, R117). -/
def tpiWord (pm : PinMap) (rx : List Byte) : Word16 :=
  assembleWord fun k => sdiAt pm rx (2 * k + Config.tpiSampleOffset)

/-- The four bytes of a command, `cmd[0]` first (R53). -/
def cmdBytes (c : Cmd) : List Byte := [c.c0, c.c1, c.c2, c.c3]

end Sys2Proof.Machine
end

