-- ==== Sys2Proof/Machine/Flags.lean ====
section
/-! DEFINITION. The status the codec computes: the running even parity of TPI (R21 a), the checks of a received frame in
their order (R118, R129), and the number of an operation's result (R128). No flag survives an operation (R21). -/

namespace Sys2Proof.Machine

/-- `par`: exclusive-or of the bits, from 0, in transmission order (R21, R81, R95 c). -/
def parity (bits : List Bool) : Bool := bits.foldl (fun p b => p ^^ b) false

/-- The hunt for the start bit: the lowest 0 among the first four cells (R79, R118). -/
def startBit (res : Word16) : Option Nat :=
  (List.range Config.tpiStartWindow).find? fun s => !res.getLsbD s

/-- The data bits of a frame that starts at cell `s`, in transmission order (R79). -/
def frameData (res : Word16) (s : Nat) : List Bool := (List.range 8).map fun i => res.getLsbD (s + 1 + i)

/-- What the checks of a frame that starts at cell `s` give: parity, then the first stop bit, then the second (R129). -/
def frameStatus (res : Word16) (s : Nat) : Option TpiCause :=
  if res.getLsbD (s + 9) ≠ parity (frameData res s) then some .parity
  else if res.getLsbD (s + 10) = false then some .stop
  else if res.getLsbD (s + 11) = false then some .stop
  else none

/-- The number of a result: 0 for success, `TPI_ERR_CODE` for every TPI error (R128); none where nothing was handed back. -/
def retCode : Ret → Option Int
  | .unset => none
  | .tpiError _ _ => some Config.tpiErrCode
  | .done => some 0
  | .byte _ => some 0
  | .level _ => some 0
  | .cells _ => some 0
  | .drive _ => some 0
  | .bytes _ => some 0
  | .count _ => some 0

end Sys2Proof.Machine
end

