-- ==== Sys2Proof/Machine/Ops.lean ====
section
/-! DEFINITION. The named operations over buffers, line and channel (R39 to R46), the drive buffer (R100 to R105), the
TPI error as the block's one exception (R127 to R130), and the life of a session (R146, R147, R153). -/

namespace Sys2Proof.Machine

/-- Goes on with the value of an operation that did not stop. -/
def andThen {α β : Type} (x : Out α) (f : α → Out β) : Out β :=
  match x with
  | .next a => f a
  | .fault r => .fault r
  | .refused r => .refused r

/-! ### Buffers -/

/-- What a byte that is not listed reads as: all state is zero-initialised at setup (R29, R146; log 16). -/
def unlistedByte : Byte := 0

/-- The canonical form of a buffer: indices strictly rising, no entry equal to what an unlisted index reads as. -/
abbrev Memory.wf (m : Memory) : Prop :=
  m.Pairwise (fun c d => c.1 < d.1) ∧ ∀ c ∈ m, c.2 ≠ unlistedByte

/-- The byte at an index. -/
def memRead : Memory → Nat → Byte
  | [], _ => unlistedByte
  | (i, b) :: m, a => if a = i then b else memRead m a

/-- The buffer with `v` at index `a`, in canonical form. -/
def memWrite : Memory → Nat → Byte → Memory
  | [], a, v => if v = unlistedByte then [] else [(a, v)]
  | (i, b) :: m, a, v =>
    if a < i then (if v = unlistedByte then (i, b) :: m else (a, v) :: (i, b) :: m)
    else if a = i then (if v = unlistedByte then m else (a, v) :: m)
    else (i, b) :: memWrite m a v

/-! ### The line and the transport's contract (R35, R45, R50) -/

/-- The sample `S[k]`: as the environment is known to give it, a free value otherwise (R50, U1). -/
def sampleAt (l : Line) (k : Nat) : Byte :=
  match l.samples[k]? with
  | some v => v
  | none => Config.freeSample (l.drive.take (k + 1)) k

/-- The next `n` samples, in order (R35). -/
def nextSamples (l : Line) (n : Nat) : List Byte := (List.range n).map fun i => sampleAt l (l.taken + i)

/-- `TransportRead(max)` (R45): between 0 and `max` samples, or an error. With no answer queued, all of them (log 6). A
transport that has ceased to deliver stays so (R138). -/
def transportRead (l : Line) (max : Nat) : Out (Line × List Byte) :=
  match l.reads with
  | [] => .next ({ l with taken := l.taken + max }, nextSamples l max)
  | .got n :: rest => .next ({ l with taken := l.taken + min n max, reads := rest }, nextSamples l (min n max))
  | .failed :: rest => .fault (.channel .transport { l with reads := rest })
  | .starved :: _ => .next (l, [])

/-- `TransportWrite(bytes)` (R45), with the check of R40: fewer bytes taken than offered is fatal. With no answer queued,
all are taken (log 7). How much of a failed write reached the chip is a free value (log 18). -/
def transportWrite (l : Line) (bs : List Byte) : Out Line :=
  match l.writes with
  | [] => .next { l with drive := l.drive ++ bs }
  | .took n :: rest =>
    if n < bs.length then .fault (.channel .shortWrite { l with drive := l.drive ++ bs.take n, writes := rest })
    else .next { l with drive := l.drive ++ bs, writes := rest }
  | .failed :: rest =>
    .fault (.channel .transport { l with drive := l.drive ++ bs.take (Config.freeWritten l.drive), writes := rest })

/-- `ReadPins()` (R94): a draw from the environment, outside the sample stream. -/
def readPins (l : Line) : Out (Line × Byte) :=
  match l.pins with
  | [] => .next ({ l with pinReads := l.pinReads + 1 }, Config.freePins l.drive l.pinReads)
  | .lines v :: rest => .next ({ l with pinReads := l.pinReads + 1, pins := rest }, v)
  | .failed :: rest => .fault (.channel .transport { l with pins := rest })

/-- One control call of the transport: a change of the chip's bit mode (R44, R45) or one of those of `open` (R147). With no
answer queued it is accepted (log 7). -/
def changeMode (l : Line) : Out Line :=
  match l.modes with
  | [] => .next l
  | .accepted :: rest => .next { l with modes := rest }
  | .failed :: rest => .fault (.channel .transport { l with modes := rest })

/-- The transport's calls of `open`: the device, the latency timer, the bit mode, the baud rate (R147, R149). Any may fail
(R131). -/
def bringUp (l : Line) : Out Line :=
  andThen (changeMode l) fun l =>
  andThen (changeMode l) fun l =>
  andThen (changeMode l) fun l => changeMode l

/-! ### The channel (R38 to R46) -/

/-- A received byte goes to the ring (R41); a full ring refuses the run (R59, U6). -/
def ringPush (r : RxRing) (b : Byte) : Out RxRing :=
  if Config.rxCapacity ≤ r.len then .refused .ringFull
  else if Config.rxCapacity ≤ r.wr then .fault .bufferIndex
  else .next { r with buf := memWrite r.buf r.wr b, wr := (r.wr + 1) % Config.rxCapacity, len := r.len + 1 }

/-- The received bytes go to the ring in order (R41). -/
def ringPushAll : RxRing → List Byte → Out RxRing
  | r, [] => .next r
  | r, b :: bs => andThen (ringPush r b) fun r => ringPushAll r bs

/-- `Fill()` (R41): the channel after it and the count of bytes read. -/
def fill (c : Channel) : Out (Channel × Nat) :=
  andThen (transportRead c.line c.pending) fun p =>
  andThen (ringPushAll c.ring p.2) fun r =>
  .next ({ c with line := p.1, ring := r, pending := c.pending - p.2.length }, p.2.length)

/-- Repeats `Fill()` until `done` (R40, R42). The first argument is the number of answers the transport has queued: when
they are used up one more read gives all that is pending, or nothing where the transport never delivers again, and if that
does not do, nothing ever will (R138). -/
def fillUntil (done : Channel → Bool) : Nat → Channel → Out Channel
  | 0, c =>
    if done c then .next c
    else andThen (fill c) fun p => if done p.1 then .next p.1 else .fault .stuck
  | k + 1, c => if done c then .next c else andThen (fill c) fun p => fillUntil done k p.1

/-- The chip has room for a byte: `avail > 0` (R40). -/
def hasRoom (c : Channel) : Bool := decide (c.pending < Config.fifoChunk)

/-- The ring holds a byte (R43). -/
def hasByte (c : Channel) : Bool := decide (c.ring.len ≠ 0)

/-- The bytes in the staging buffer, in order (R23). -/
def staged (t : TxBuffer) : List Byte := (List.range t.len).map fun i => memRead t.buf i

/-- The loop of `Flush()` over the bytes that remain (R40). Each round writes at least one byte, so as many rounds as bytes
are enough. -/
def flushLoop : Nat → Channel → List Byte → Out Channel
  | 0, c, _ => .next c
  | _ + 1, c, [] => .next c
  | k + 1, c, b :: bs =>
    andThen (fillUntil hasRoom c.line.reads.length c) fun c =>
    let n := min (Config.fifoChunk - c.pending) (b :: bs).length
    andThen (transportWrite c.line ((b :: bs).take n)) fun l =>
    flushLoop k { c with line := l, pending := c.pending + n } ((b :: bs).drop n)

/-- `Flush()` (R40): the staged bytes go to the chip; `tx.len` is its caller's to reset (R39, R43, R46). -/
def flush (c : Channel) : Out Channel := flushLoop c.tx.len c (staged c.tx)

/-- `tx.len <- 0`. -/
def clearTx (c : Channel) : Channel := { c with tx := { c.tx with len := 0 } }

/-- `Flush() ; tx.len <- 0`, as `recv`, `get_pin` and `usleep` begin (R43, R46, R94), and as every caller of `Flush()` does, so
that no byte is written twice (R37; log 10). -/
def flushAndClear (c : Channel) : Out Channel := andThen (flush c) fun c => .next (clearTx c)

/-- The offset, in the sample stream, of the next byte the ring will hand out. -/
def Channel.handed (c : Channel) : Nat := c.line.taken - c.ring.len

/-- One physical byte to the staging buffer, with its owed discard, and a flush when the buffer is full (R39). Its offset in
the drive stream, what was written and what is staged before it, is kept with the discard (log 19). -/
def stageByte (disc : Bool) (c : Channel) (b : Byte) : Out Channel :=
  if Config.fifoChunk ≤ c.tx.len then .fault .bufferIndex
  else
    let c := { c with
      tx := { buf := memWrite c.tx.buf c.tx.len b, len := c.tx.len + 1 }
      discard := if disc then c.discard + 1 else c.discard
      echoes := if disc then (c.line.taken + c.pending + c.tx.len) :: c.echoes else c.echoes }
    if c.tx.len = Config.fifoChunk then flushAndClear c else .next c

/-- Physical bytes to the staging buffer, in order. -/
def stageAll (disc : Bool) : Channel → List Byte → Out Channel
  | c, [] => .next c
  | c, b :: bs => andThen (stageByte disc c b) fun c => stageAll disc c bs

/-- The physical bytes of logical ones: each repeated `m` times (R36, R39, R82). -/
def repeated (m : Nat) (bs : List Byte) : List Byte := bs.flatMap fun b => List.replicate m b

/-- `Send(bytes, discard_flag)` (R39). -/
def sendBytes (m : Nat) (bs : List Byte) (disc : Bool) (c : Channel) : Out Channel := stageAll disc c (repeated m bs)

/-- `TakeByte()` (R43): the next byte of the ring, with a blocking fill when it is empty (R42). -/
def takeByte (c : Channel) : Out (Channel × Byte) :=
  andThen (fillUntil hasByte c.line.reads.length c) fun c =>
  if Config.rxCapacity ≤ c.ring.rd then .fault .bufferIndex
  else .next ({ c with ring := { c.ring with rd := (c.ring.rd + 1) % Config.rxCapacity, len := c.ring.len - 1 } },
    memRead c.ring.buf c.ring.rd)

/-- How many bytes there are to take up to the last that was sent with discard. -/
def echoSpan (c : Channel) : Nat :=
  match c.echoes with
  | [] => 0
  | e :: _ => e + 1 - c.handed

/-- R43's `while rx.discard > 0`, as far as the `k`-th byte to come: one byte of the ring is taken and dropped for each owed
discard, the echo of a byte sent with discard (R26). A sample that was asked for and stands before such an echo is not lost
but set aside, in order (R37 a, R47, R58, R156; log 19). -/
def dropDiscards : Nat → Channel → Out Channel
  | 0, c => .next c
  | k + 1, c =>
    andThen (takeByte c) fun p =>
    if c.handed ∈ c.echoes then dropDiscards k { p.1 with discard := p.1.discard - 1 }
    else dropDiscards k { p.1 with aside := p.1.aside ++ [p.2] }

/-- Consumes all owed discards (R43). -/
def consumeDiscards (c : Channel) : Out Channel :=
  andThen (dropDiscards (echoSpan c) c) fun c => .next { c with echoes := [] }

/-- The next sample that was asked for: one set aside before, else the next byte of the ring (R43). -/
def takeAsked (c : Channel) : Out (Channel × Byte) :=
  match c.aside with
  | b :: rest => .next ({ c with aside := rest }, b)
  | [] => takeByte c

/-- Takes and drops `k` bytes: the further copies of a byte (R43). -/
def dropCopies : Nat → Channel → Out Channel
  | 0, c => .next c
  | k + 1, c => andThen (takeAsked c) fun p => dropCopies k p.1

/-- The next `n` logical bytes: of each, the first of its `m` copies (R43). -/
def takeLogical (m : Nat) : Nat → Channel → Out (Channel × List Byte)
  | 0, c => .next (c, [])
  | n + 1, c =>
    andThen (takeAsked c) fun p =>
    andThen (dropCopies (m - 1) p.1) fun c =>
    andThen (takeLogical m n c) fun q => .next (q.1, p.2 :: q.2)

/-- `Recv(n)` (R43): flush, one batch, the owed discards, then `n` bytes. -/
def recvBytes (m n : Nat) (c : Channel) : Out (Channel × List Byte) :=
  andThen (flushAndClear c) fun c =>
  andThen (fill c) fun p =>
  andThen (consumeDiscards p.1) fun c => takeLogical m n c

/-- The channel with nothing staged, held, pending or owed: the samples of every byte written before are lost (R44). Of the
emptied ring's position R44 says only `rd = wr`: a free value (log 9). -/
def emptied (c : Channel) : Channel :=
  let at_ := Config.freeRingIndex c.line.drains % Config.rxCapacity
  { tx := { c.tx with len := 0 }, ring := { c.ring with len := 0, rd := at_, wr := at_ },
    pending := 0, discard := 0, echoes := [], aside := [],
    line := { c.line with taken := c.line.drive.length, drains := c.line.drains + 1 } }

/-- `Drain()` (R44): what was sent before is written to the chip first (R37 b, R48, R166; log 28), then two changes of the bit
mode, and everything is purged. -/
def drainChannel (c : Channel) : Out Channel :=
  andThen (flushAndClear c) fun c =>
  andThen (changeMode c.line) fun l =>
  andThen (changeMode l) fun l =>
  .next (emptied { c with line := l })

/-! ### The drive buffer (R22 a, R100 to R105) -/

/-- What a serializer works on: the shadow register and the operation's own drive buffer. -/
structure Drive where
  out : Byte
  buf : List Byte
  deriving DecidableEq, Repr

/-- An operation starts with an empty drive buffer (R17, R29). -/
def startDrive (o : Byte) : Drive := ⟨o, []⟩

/-- Sets one pin's field of the shadow register and emits the new byte (R14, R103). -/
def emitWith (p : PinCfg) (x : Bool) (d : Drive) : Drive :=
  { out := setBits d.out p x, buf := d.buf ++ [setBits d.out p x] }

/-- One bit on the line: SDO presented with SCK low, then SCK raised (R69, R100). -/
def emitCell (pm : PinMap) (x : Bool) (d : Drive) : Drive :=
  emitWith pm.sck true (emitWith pm.sck false { d with out := setBits d.out pm.sdo x })

/-- Cells in time order. -/
def emitCells (pm : PinMap) (xs : List Bool) (d : Drive) : Drive := xs.foldl (fun d x => emitCell pm x d) d

/-- One ISP byte, most significant bit first (R70, R101). -/
def emitData (pm : PinMap) (b : Byte) (d : Drive) : Drive := emitCells pm (bitsMsb b) d

/-- ISP bytes in order. -/
def emitBytes (pm : PinMap) (bs : List Byte) (d : Drive) : Drive := bs.foldl (fun d b => emitData pm b d) d

/-- The stretch byte: a copy of the previous byte (R72, R104). -/
def emitStretch (d : Drive) : Drive := { d with buf := d.buf ++ [d.out] }

/-- The SCK-low trailing byte (R72, R105). -/
def emitIdle (pm : PinMap) (d : Drive) : Drive := emitWith pm.sck false d

/-! ### Handing a drive buffer to the channel -/

/-- The shadow register and the drive buffer's bytes to the channel (R39). -/
def sendDrive (d : Drive) (disc : Bool) (s : State) : Out State :=
  andThen (sendBytes s.baudMultiplier d.buf disc s.chan) fun c => .next ((s.setOut d.out).setChan c)

/-- A drive buffer sent without discard, then as many samples received as bytes were sent (R107, R117, R164). -/
def exchange (d : Drive) (s : State) : Out (State × List Byte) :=
  andThen (sendDrive d false s) fun s =>
  andThen (recvBytes s.baudMultiplier d.buf.length s.chan) fun p => .next (s.setChan p.1, p.2)

/-! ### The TPI error: the block's one exception (R127 to R130, R134) -/

/-- Raises `TpiError(cause)`: nothing is saved and control goes back to the caller with the cause and the result bytes
already written (R130). -/
def raiseTpi (cause : TpiCause) (res : List Byte) (s : State) : State := s.setRet (.tpiError cause res)

/-- Returns to the caller with a value; there is no other return (R134). -/
def handBack (r : Ret) (s : State) : State := s.setRet r

/-- The caller's read of `res[i]`: a fault where the byte was never written (R22, R130, U5). -/
def readResult (r : Ret) (i : Nat) : Out Byte :=
  match r with
  | .bytes bs | .tpiError _ bs =>
    match bs[i]? with
    | some b => .next b
    | none => .fault .unwrittenResult
  | .byte b => if i = 0 then .next b else .fault .unwrittenResult
  | .unset | .done | .level _ | .cells _ | .drive _ | .count _ => .fault .unwrittenResult

/-! ### The life of a session (R29, R146, R147, R153) -/

/-- `open` (R147): the PinMap is fixed, `ddr` is the union of the output masks, the multiplier is 1; `out` stays. A PinMap
with no meaning is refused (R85 c), before any call of the transport. Where a call of the transport fails, PinMap, `ddr` and
multiplier stay at their values after setup (R147 says only what a successful open leaves: DESIGN CHOICE, log 30). -/
def openSession (pm : PinMap) (s : State) : Out State :=
  if s.session ≠ .setup then .refused .sessionOrder
  else if pinMapLegal pm then
    andThen (bringUp s.chan.line) fun l =>
    .next (((s.setChan { s.chan with line := l }).configure pm (ddrOf pm) Config.sessionBaudMultiplier).setSession .opened)
  else .refused .illegalPinMap

/-- `close` (R44, R153): a drain, then the context is released. After a `Fault` it is the one thing left to do (R131, R134). A
close that itself faults may be called again (DESIGN CHOICE, log 29). -/
def closeSession (s : State) : Out State :=
  match s.session with
  | .setup | .closed => .refused .sessionOrder
  | .opened | .faulted _ => andThen (drainChannel s.chan) fun c => .next ((s.setChan c).setSession .closed)

/-- Records `Fault(reason)` for the rest of the session (R131, U7), the line being as the failed call left it. What `out` and
the channel hold then is not said (N20): `out` is a free value on the driven lines, and the channel, which only `close` reaches
any more, is emptied (log 18). -/
def recordFault (reason : FaultReason) (left : Line) (s : State) : State :=
  ((((s.setOut ((s.out &&& ~~~s.ddr) ||| (Config.freeOutAfterFault left.drive &&& s.ddr))).setChan
    (emptied { s.chan with line := left })).setSession (.faulted reason)).setRet .unset)

/-- What a call leaves behind: the state it ends in, or, where the channel faulted, the state `s` it began in with that fault
recorded. Nothing else is caught. What a close that itself faults leaves is open: here it is recorded like any other, its reason
in place of an earlier one (DESIGN CHOICE, log 29); for an open that faults see log 30. -/
def settle (s : State) (x : Out State) : Out State :=
  match x with
  | .next t => .next t
  | .fault (.channel reason left) => .next (recordFault reason left s)
  | .fault .stuck => .fault .stuck
  | .fault .bufferIndex => .fault .bufferIndex
  | .fault .unwrittenResult => .fault .unwrittenResult
  | .refused r => .refused r

/-- Fetches the operation of a packet: only in an open session with no fault recorded (R146, R148 a, R153, U7, U13). -/
def fetchOp (packet : List Byte) (s : State) : Out Instr :=
  if s.session ≠ .opened then .refused .sessionNotOpen
  else
    match decode packet with
    | .ok (i, _) => .next i
    | .error e => .refused (.packet e)

/-- Mapping E1 of 95_test_vectors.md, with which `withFetchWord` opens a session that is not open (log 3). -/
def mappingE1 : PinMap where
  sck := ⟨0x01, false⟩
  sdi := ⟨0x02, false⟩
  sdo := ⟨0x04, false⟩
  vcc := ⟨0x08, false⟩
  reset := ⟨0x10, false⟩
  buff := ⟨0x20, false⟩
  led0 := noPin
  led1 := noPin
  led2 := noPin
  led3 := noPin

/-- A session that is open: as it stands, or opened with mapping E1. -/
def ensureOpen (s : State) : State :=
  if s.session = .opened then s
  else (s.configure mappingE1 (ddrOf mappingE1) Config.sessionBaudMultiplier).setSession .opened

end Sys2Proof.Machine
end

