-- ==== Sys2Proof/Machine/Channel.lean ====
section
/-! DEFINITION. The meanings of the channel operations: `send`, `flush`, `fill`, `recv`, `drain`, `usleep` (R38 to R46). -/

namespace Sys2Proof.Machine

/-- `send(bytes, discard)` (R39). -/
def execSend (bytes : List Byte) (discard : Bool) (s : State) : Out State :=
  andThen (sendBytes s.baudMultiplier bytes discard s.chan) fun c => .next (handBack .done (s.setChan c))

/-- `flush()` (R40): called by the host, whose call resets `tx.len` as every caller does (R37, D17; log 10). -/
def execFlush (s : State) : Out State :=
  andThen (flushAndClear s.chan) fun c => .next (handBack .done (s.setChan c))

/-- `fill()` (R41): hands back the count of bytes read. -/
def execFill (s : State) : Out State :=
  andThen (fill s.chan) fun p => .next (handBack (.count p.2) (s.setChan p.1))

/-- `recv(n)` (R43). -/
def execRecv (n : Nat) (s : State) : Out State :=
  andThen (recvBytes s.baudMultiplier n s.chan) fun p => .next (handBack (.bytes p.2) (s.setChan p.1))

/-- `drain()` (R44). -/
def execDrain (s : State) : Out State :=
  andThen (drainChannel s.chan) fun c => .next (handBack .done (s.setChan c))

/-- `usleep(us)` (R46): the sleep itself changes no state. -/
def execUsleep (_us : Nat) (s : State) : Out State :=
  andThen (flushAndClear s.chan) fun c => .next (handBack .done (s.setChan c))

end Sys2Proof.Machine
end

