-- ==== Sys2Proof/Machine/Isp.lean ====
section
/-! DEFINITION. The meanings of the ISP operations (R99 to R110). The four that build a drive buffer start with an empty one
and hand back the bytes they emitted (R13, R22, R29; log 11). -/

namespace Sys2Proof.Machine

/-- Ends an operation that only builds a drive buffer. -/
def handBackDrive (d : Drive) (s : State) : State := handBack (.drive d.buf) (s.setOut d.out)

/-- `cell(x)` (R100). -/
def execCell (x : Bool) (s : State) : Out State :=
  .next (handBackDrive (emitCell s.pinMap x (startDrive s.out)) s)

/-- `set_data(B)` (R101). -/
def execSetData (b : Byte) (s : State) : Out State :=
  .next (handBackDrive (emitData s.pinMap b (startDrive s.out)) s)

/-- `close_stretch()` (R104). -/
def execCloseStretch (s : State) : Out State :=
  .next (handBackDrive (emitStretch (startDrive s.out)) s)

/-- `close_idle()` (R105). -/
def execCloseIdle (s : State) : Out State :=
  .next (handBackDrive (emitIdle s.pinMap (startDrive s.out)) s)

/-- `extract_data(rx, w)` (R106): pure; past the end it is refused. -/
def execExtractData (rx : List Byte) (w : Nat) (s : State) : Out State :=
  if extractInBounds rx.length w then .next (handBack (.byte (ispWord s.pinMap rx w)) s)
  else .refused .extractPastEnd

/-- The drive buffer of `cmd`: four bytes and the SCK-low closing byte (R71, R107). -/
def cmdDrive (pm : PinMap) (c : Cmd) (o : Byte) : Drive := emitIdle pm (emitBytes pm (cmdBytes c) (startDrive o))

/-- `cmd(cmd[4])` (R107): 65 bytes sent, 65 samples received, four words extracted. -/
def execCmd (c : Cmd) (s : State) : Out State :=
  andThen (exchange (cmdDrive s.pinMap c s.out) s) fun p =>
  .next (handBack (.bytes ((List.range 4).map fun i => ispWord p.1.pinMap p.2 i)) p.1)

/-- The drive buffer of a fragment (R73, R109). -/
def fragDrive (pm : PinMap) (cmds : List Cmd) (last : Bool) (o : Byte) : Drive :=
  let d := emitBytes pm (cmds.flatMap cmdBytes) (startDrive o)
  if last then emitIdle pm d else emitStretch d

/-- `frag_encode(cmds, last)` (R109): sent without discard; its samples are the client's to receive. -/
def execFragEncode (cmds : List Cmd) (last : Bool) (s : State) : Out State :=
  if fragmentCountOk cmds.length then
    andThen (sendDrive (fragDrive s.pinMap cmds last s.out) false s) fun s => .next (handBack .done s)
  else .refused .fragmentCount

/-- `frag_extract(rx, ws)` (R110): pure; an index past the end is refused. -/
def execFragExtract (rx : List Byte) (ws : List Nat) (s : State) : Out State :=
  if ws.all (extractInBounds rx.length) then .next (handBack (.bytes (ws.map (ispWord s.pinMap rx))) s)
  else .refused .extractPastEnd

end Sys2Proof.Machine
end

