-- ==== Sys2Proof/Machine/Pins.lean ====
section
/-! DEFINITION. The meanings of the pin operations: `set_bits`, `get_bits`, `set_pin`, `get_pin` (R91 to R94). -/

namespace Sys2Proof.Machine

/-- `set_bits(v, pin, x)` (R91): pure. -/
def execSetBits (v : Byte) (pin : Pin) (x : Nat) (s : State) : Out State :=
  .next (handBack (.byte (setBits v (pinCfg s.pinMap pin) (levelOf x))) s)

/-- `get_bits(v, pin)` (R92): pure. -/
def execGetBits (v : Byte) (pin : Pin) (s : State) : Out State :=
  .next (handBack (.level (getBits v (pinCfg s.pinMap pin))) s)

/-- `set_pin(pin, x)` (R93): the shadow register, then its new value sent with discard. SDI is refused. -/
def execSetPin (pin : Pin) (x : Nat) (s : State) : Out State :=
  if isOutputPin pin then
    let d := emitWith (pinCfg s.pinMap pin) (levelOf x) (startDrive s.out)
    andThen (sendDrive d true s) fun s => .next (handBack .done s)
  else .refused .setPinOnInput

/-- `get_pin(pin)` (R94): flush, then the chip's pin register. -/
def execGetPin (pin : Pin) (s : State) : Out State :=
  andThen (flushAndClear s.chan) fun c =>
  andThen (readPins c.line) fun p =>
  .next (handBack (.level (getBits p.2 (pinCfg s.pinMap pin))) (s.setChan { c with line := p.1 }))

end Sys2Proof.Machine
end

