-- ==== Sys2Proof/Machine/Tpi.lean ====
section
/-! DEFINITION. The meanings of the TPI operations (R113 to R119). -/

namespace Sys2Proof.Machine

/-- The 12 cells of a frame in time order: start 0, data least significant first, even parity, two stops (R75, R115). -/
def tpiFrame (b : Byte) : List Bool := false :: (bitsLsb b ++ [parity (bitsLsb b), true, true])

/-- Hunt, data, parity, stops (R118): the byte, or the cause of the first check that fails. -/
def tpiDecode (res : Word16) : Except TpiCause Byte :=
  match startBit res with
  | none => .error .startMissing
  | some s =>
    match frameStatus res s with
    | some cause => .error cause
    | none => .ok (assembleLsb fun i => res.getLsbD (s + 1 + i))

/-- Hands the outcome of a decode back to the caller: the byte, or the TPI error (R127, R130). -/
def deliver (r : Except TpiCause Byte) (s : State) : State :=
  match r with
  | .ok b => handBack (.byte b) s
  | .error cause => raiseTpi cause [] s

/-- Sends one frame, 24 bytes with discard (R76, R116). -/
def transmit (b : Byte) (s : State) : Out State :=
  sendDrive (emitCells s.pinMap (tpiFrame b) (startDrive s.out)) true s

/-- Clocks 16 cells with SDO high, receives their 32 samples and decodes them (R77, R78, R117). -/
def receive (s : State) : Out (State × Except TpiCause Byte) :=
  let d := emitCells s.pinMap (List.replicate Config.tpiRxCells true) (startDrive s.out)
  andThen (exchange d s) fun p => .next (p.1, tpiDecode (tpiWord p.1.pinMap p.2))

/-- The transmits of `cmd_tpi`, in order (R119). -/
def transmitAll : List Byte → State → Out State
  | [], s => .next s
  | b :: bs, s => andThen (transmit b s) fun s => transmitAll bs s

/-- The receives of `cmd_tpi`: `n` more after the bytes `res`, stopping at the first error (R119, R130). -/
def receiveAll : Nat → List Byte → State → Out State
  | 0, res, s => .next (handBack (.bytes res) s)
  | n + 1, res, s =>
    andThen (receive s) fun p =>
    match p.2 with
    | .ok b => receiveAll n (res ++ [b]) p.1
    | .error cause => .next (raiseTpi cause res p.1)

/-- `tpi_frame(B)` (R115): pure. -/
def execTpiFrame (b : Byte) (s : State) : Out State := .next (handBack (.cells (tpiFrame b)) s)

/-- `tpi_tx(B)` (R116). -/
def execTpiTx (b : Byte) (s : State) : Out State := andThen (transmit b s) fun s => .next (handBack .done s)

/-- `tpi_rx()` (R117). -/
def execTpiRx (s : State) : Out State := andThen (receive s) fun p => .next (deliver p.2 p.1)

/-- `tpi_decode(res)` (R118): pure. -/
def execTpiDecode (res : Word16) (s : State) : Out State := .next (deliver (tpiDecode res) s)

/-- `cmd_tpi(cmd[], res_len)` (R119). -/
def execCmdTpi (cmd : List Byte) (resLen : Nat) (s : State) : Out State :=
  andThen (transmitAll cmd s) fun s => receiveAll resLen [] s

end Sys2Proof.Machine
end

