-- ==== Sys2Proof/Machine/Dispatch.lean ====
section
/-! DEFINITION. One arm per operation: the meaning of each row of spec/opcode_table.json. -/

namespace Sys2Proof.Machine

def exec (i : Instr) (s : State) : Host.Outcome State Fault Refusal :=
  match i with
  | .setBits v pin x => Sys2Proof.Machine.execSetBits v pin x s
  | .getBits v pin => Sys2Proof.Machine.execGetBits v pin s
  | .setPin pin x => Sys2Proof.Machine.execSetPin pin x s
  | .getPin pin => Sys2Proof.Machine.execGetPin pin s
  | .cell x => Sys2Proof.Machine.execCell x s
  | .setData b => Sys2Proof.Machine.execSetData b s
  | .closeStretch => Sys2Proof.Machine.execCloseStretch s
  | .closeIdle => Sys2Proof.Machine.execCloseIdle s
  | .extractData rx w => Sys2Proof.Machine.execExtractData rx w s
  | .cmd c => Sys2Proof.Machine.execCmd c s
  | .fragEncode cmds last => Sys2Proof.Machine.execFragEncode cmds last s
  | .fragExtract rx ws => Sys2Proof.Machine.execFragExtract rx ws s
  | .tpiFrame b => Sys2Proof.Machine.execTpiFrame b s
  | .tpiTx b => Sys2Proof.Machine.execTpiTx b s
  | .tpiRx => Sys2Proof.Machine.execTpiRx s
  | .tpiDecode res => Sys2Proof.Machine.execTpiDecode res s
  | .cmdTpi cmd resLen => Sys2Proof.Machine.execCmdTpi cmd resLen s
  | .send bytes discard => Sys2Proof.Machine.execSend bytes discard s
  | .flush => Sys2Proof.Machine.execFlush s
  | .fill => Sys2Proof.Machine.execFill s
  | .recv n => Sys2Proof.Machine.execRecv n s
  | .drain => Sys2Proof.Machine.execDrain s
  | .usleep us => Sys2Proof.Machine.execUsleep us s

end Sys2Proof.Machine
end

