-- ==== Sys2Proof/Machine/Step.lean ====
section
/-! DEFINITION. One step: the host's next call, taken from the head of the queue (R11, R37; log 2). A `Fault` of the channel is
recorded in the session and the machine goes on (R131, U7). With no call queued the machine waits and nothing changes. -/

namespace Sys2Proof.Machine

def step (s : State) : Host.Outcome State Fault Refusal :=
  match s.calls with
  | [] => .next s
  | .openSession pm :: rest => settle (s.setCalls rest) (openSession pm (s.setCalls rest))
  | .closeSession :: rest => settle (s.setCalls rest) (closeSession (s.setCalls rest))
  | .op packet :: rest => andThen (fetchOp packet s) fun i => settle (s.setCalls rest) (exec i (s.setCalls rest))

/-- The state with the instruction of a word of the opcode table as the host's next call, in an open session. -/
def State.withFetchWord (s : State) (nbits w : Nat) : State :=
  (ensureOpen s).setCalls (.op (tableWordPacket nbits w) :: s.calls)

end Sys2Proof.Machine
end

