-- ==== Sys2Proof/Safety.lean ====
section
/-! DEFINITION. The terms in which claims speak of the machine: the physical stream and its samples (R35, R36), what is owed
(R25, R26, R47), the channel's invariant (R23 to R26, R59, R160), an outside that does not fail (R45, R167), the formats of
R69 to R77, named environments (R51), SCK edges (R111), and the machine's invariant. -/

namespace Sys2Proof.Machine

/-! ### The channel as a stream -/

/-- The physical drive stream as far as it has been given to `send`: what was written to the chip, then what is staged. -/
def Channel.stream (c : Channel) : List Byte := c.line.drive ++ staged c.tx

/-- How many physical samples can still be handed out: held in the ring, outstanding in the chip, or of staged bytes. -/
def Channel.owed (c : Channel) : Nat := c.ring.len + c.pending + c.tx.len

/-- The sample of the `k`-th byte of the physical stream: as the environment is known to give it, a free value
otherwise. -/
def Channel.sample (c : Channel) (k : Nat) : Byte :=
  match c.line.samples[k]? with
  | some v => v
  | none => Config.freeSample (c.stream.take (k + 1)) k

/-- The offsets of the samples owed that a receive will not drop, in order: those of bytes sent without discard (R37 a,
R47). -/
def Channel.asked (c : Channel) : List Nat :=
  (List.range' c.handed c.owed).filter fun k => decide (k ∉ c.echoes)

/-- `n` samples of the physical stream from offset `k` on. -/
def Channel.samplesFrom (c : Channel) (k n : Nat) : List Byte := (List.range' k n).map c.sample

/-- `Q`, the samples the next receives return, in order (R47), physical ones: those set aside, then those owed and asked for. -/
def Channel.queue (c : Channel) : List Byte := c.aside ++ c.asked.map c.sample

/-- What receives are to drop and have set aside: the count of owed discards (R26), the offsets they stand for, and the samples
set aside (log 19). -/
def Channel.debts (c : Channel) : Nat × List Nat × List Byte := (c.discard, c.echoes, c.aside)

/-- The debts after `k` more bytes were sent with discard: one more discard each, and their offsets (R26, R39). -/
def Channel.debtsWith (c : Channel) (k : Nat) : Nat × List Nat × List Byte :=
  (c.discard + k, (List.range' c.stream.length k).reverse ++ c.echoes, c.aside)

/-! ### Invariants of the channel -/

/-- A buffer of `cap` bytes in canonical form. -/
abbrev bufferWf (cap : Nat) (m : Memory) : Prop := m.wf ∧ ∀ e ∈ m, e.1 < cap

/-- No more discards than samples are owed, each stands for one byte sent (R26, R39), and the offsets of those bytes are among
those owed, newest first. -/
abbrev Channel.debtsWf (c : Channel) : Prop :=
  c.discard ≤ c.owed ∧ c.echoes.length = c.discard ∧ c.echoes.Pairwise (fun a b => b < a) ∧
  ∀ e ∈ c.echoes, c.handed ≤ e ∧ e < c.handed + c.owed

/-- The counters and indices are in range and agree (R23, R24, R25, R26, R59), and the buffers are canonical. -/
abbrev Channel.wf (c : Channel) : Prop :=
  bufferWf Config.fifoChunk c.tx.buf ∧ bufferWf Config.rxCapacity c.ring.buf ∧
  c.tx.len < Config.fifoChunk ∧
  c.ring.len ≤ Config.rxCapacity ∧ c.ring.rd < Config.rxCapacity ∧
  c.ring.wr = (c.ring.rd + c.ring.len) % Config.rxCapacity ∧
  c.pending ≤ Config.fifoChunk ∧
  c.pending + c.line.taken = c.line.drive.length ∧ c.ring.len ≤ c.line.taken ∧
  c.debtsWf

/-- The ring holds the samples in order: the byte `j` places after the next one to be handed out is the sample of that
offset (R37). -/
def Channel.inOrder (c : Channel) : Prop :=
  ∀ j, j < c.ring.len → memRead c.ring.buf ((c.ring.rd + j) % Config.rxCapacity) = sampleAt c.line (c.handed + j)

/-! ### An outside that does not fail -/

/-- The read is answered with samples, be it none this time: neither an error nor the end of all delivery. -/
def ReadReply.delivers : ReadReply → Bool
  | .got _ => true
  | .failed => false
  | .starved => false

/-- The write is taken whole: no write offers more than `FIFO_CHUNK` bytes (R40). -/
def WriteReply.whole : WriteReply → Bool
  | .took n => decide (Config.fifoChunk ≤ n)
  | .failed => false

/-- No queued answer is an error or a short write, and the transport does not cease to deliver (R45, D28). -/
abbrev Line.healthy (l : Line) : Prop :=
  (∀ r ∈ l.reads, r.delivers = true) ∧ (∀ w ∈ l.writes, w.whole = true) ∧
  (∀ p ∈ l.pins, p ≠ .failed) ∧ (∀ m ∈ l.modes, m ≠ .failed)

/-- Sending `n` more physical bytes and receiving as many cannot fill the ring (R59). Samples set aside count, since those of
the ring wait while they are received. -/
abbrev Channel.room (c : Channel) (n : Nat) : Prop := c.owed + c.aside.length + n ≤ Config.rxCapacity

/-- The channel can do its work: invariant, samples in order, an outside that does not fail, room for `n` more bytes. -/
def Channel.ready (c : Channel) (n : Nat) : Prop := c.wf ∧ c.inOrder ∧ c.line.healthy ∧ c.room n

/-- Of the line, only the streams and the transport's answers to reads and writes moved: the drive stream grew, samples were
read, and the answers left are the last of those that were queued. -/
def Line.movedTo (l l' : Line) : Prop :=
  l.drive <+: l'.drive ∧ l.taken ≤ l'.taken ∧ l'.reads <:+ l.reads ∧ l'.writes <:+ l.writes ∧
  l'.samples = l.samples ∧ l'.pins = l.pins ∧ l'.modes = l.modes ∧ l'.pinReads = l.pinReads ∧ l'.drains = l.drains

/-! ### Formats -/

/-- `Base(x, c)`: the shadow register with SDO at `x` and SCK at `c` (30_encoding.md, head). -/
def base (pm : PinMap) (o : Byte) (x c : Bool) : Byte := setBits (setBits o pm.sdo x) pm.sck c

/-- The two drive bytes of a cell that carries `x` (R69). -/
def cellBytes (pm : PinMap) (o : Byte) (x : Bool) : List Byte := [base pm o x false, base pm o x true]

/-- The drive bytes of cells in time order (R70, R76, R77). -/
def cellsBytes (pm : PinMap) (o : Byte) (xs : List Bool) : List Byte := xs.flatMap (cellBytes pm o)

/-- The drive bytes of `cmd` (R71). -/
def cmdStream (pm : PinMap) (o : Byte) (c : Cmd) : List Byte :=
  cellsBytes pm o ((cmdBytes c).flatMap bitsMsb) ++ [base pm o (c.c3.getLsbD 0) false]

/-- The last bit a fragment clocks: bit 0 of its last byte (R72). -/
def lastBit (cmds : List Cmd) : Bool := ((cmds.map fun c => c.c3.getLsbD 0).getLast?).getD false

/-- The drive bytes of a fragment (R73): with `last` its closing byte has SCK low, else it copies the previous byte. -/
def fragStream (pm : PinMap) (o : Byte) (cmds : List Cmd) (last : Bool) : List Byte :=
  cellsBytes pm o ((cmds.flatMap cmdBytes).flatMap bitsMsb) ++ [base pm o (lastBit cmds) (!last)]

/-- The word a receive yields for cells that arrive from cell 0 on, the rest of the 16 being 1 (R121). -/
def wordOfCells (cells : List Bool) : Word16 := assembleWord fun k => cells.getD k true

/-- `W(B, p)` (R121): `p` ones, the frame of `B`, then ones. -/
def frameWord (b : Byte) (p : Nat) : Word16 := wordOfCells (List.replicate p true ++ tpiFrame b)

/-- The frame of `B` after `p` ones, with cell `c` of the frame flipped (R121). -/
def flippedWord (b : Byte) (p c : Nat) : Word16 :=
  wordOfCells (List.replicate p true ++ (tpiFrame b).modify c (fun x => !x))

/-! ### Environments and edges -/

/-- `Wire(b)` (R51): `b` with the line bit of SDI at the line level of SDO. -/
def wire (pm : PinMap) (b : Byte) : Byte :=
  if b &&& pm.sdo.mask = 0 then b &&& ~~~pm.sdi.mask else b ||| pm.sdi.mask

/-- The samples of `ENV_LATCHED_LOOPBACK` for the drive bytes `ds` after the byte `p` (R51): each shows the lines as the byte
before left them. -/
def latchedLoopback (pm : PinMap) (p : Byte) (ds : List Byte) : List Byte := ((p :: ds).dropLast).map (wire pm)

/-- SCK rises from one byte to the next. -/
def sckRises (pm : PinMap) (a b : Byte) : Bool := !getBits a pm.sck && getBits b pm.sck

/-- Rising SCK edges of the drive bytes `ds` after the byte `p` (R111). -/
def risingEdges (pm : PinMap) : Byte → List Byte → Nat
  | _, [] => 0
  | p, d :: ds => (if sckRises pm p d then 1 else 0) + risingEdges pm d ds

/-! ### The machine -/

/-- The operations that write the shadow register (R14). -/
def writesOut : Instr → Bool
  | .setPin _ _ | .cell _ | .setData _ | .closeIdle | .cmd _ | .fragEncode _ _ | .tpiTx _ | .tpiRx | .cmdTpi _ _ => true
  | .setBits _ _ _ | .getBits _ _ | .getPin _ | .closeStretch | .extractData _ _ | .fragExtract _ _ | .tpiFrame _
  | .tpiDecode _ | .send _ _ | .flush | .fill | .recv _ | .drain | .usleep _ => false

/-- The operations that reach the channel (R55). -/
def usesChannel : Instr → Bool
  | .setPin _ _ | .getPin _ | .cmd _ | .fragEncode _ _ | .tpiTx _ | .tpiRx | .cmdTpi _ _ | .send _ _ | .flush | .fill
  | .recv _ | .drain | .usleep _ => true
  | .setBits _ _ _ | .getBits _ _ | .cell _ | .setData _ | .closeStretch | .closeIdle | .extractData _ _
  | .fragExtract _ _ | .tpiFrame _ | .tpiDecode _ => false

/-- The operations that build their own drive bytes and hand them to the channel (R55). -/
def drivesLine : Instr → Bool
  | .cmd _ | .fragEncode _ _ | .tpiTx _ | .tpiRx | .cmdTpi _ _ => true
  | .setPin _ _ | .getPin _ | .send _ _ | .flush | .fill | .recv _ | .drain | .usleep _ | .setBits _ _ _ | .getBits _ _
  | .cell _ | .setData _ | .closeStretch | .closeIdle | .extractData _ _ | .fragExtract _ _ | .tpiFrame _
  | .tpiDecode _ => false

/-- How many logical bytes an operation stages from where `tx.len` stands when it begins (R83). `cmd_tpi` with receives: its
frames and its first window. -/
def stagedBytes : Instr → Nat
  | .setPin _ _ => 1
  | .cmd _ => Config.cmdSlots
  | .fragEncode cmds _ => Config.cmdSize * cmds.length + 1
  | .tpiTx _ => Config.tpiTxSlots
  | .tpiRx => Config.tpiRxSlots
  | .cmdTpi cmd n => Config.tpiTxSlots * cmd.length + if n = 0 then 0 else Config.tpiRxSlots
  | .send bytes _ => bytes.length
  | .setBits _ _ _ | .getBits _ _ | .getPin _ | .cell _ | .setData _ | .closeStretch | .closeIdle | .extractData _ _
  | .fragExtract _ _ | .tpiFrame _ | .tpiDecode _ | .flush | .fill | .recv _ | .drain | .usleep _ => 0

/-- How many logical bytes an operation may stage from index 0 on, after a receive has emptied the staging buffer: the later
windows of `cmd_tpi` (R119). -/
def restagedBytes : Instr → Nat
  | .cmdTpi _ n => if n ≤ 1 then 0 else Config.tpiRxSlots
  | .setPin _ _ | .cmd _ | .fragEncode _ _ | .tpiTx _ | .tpiRx | .send _ _ | .setBits _ _ _ | .getBits _ _ | .getPin _
  | .cell _ | .setData _ | .closeStretch | .closeIdle | .extractData _ _ | .fragExtract _ _ | .tpiFrame _
  | .tpiDecode _ | .flush | .fill | .recv _ | .drain | .usleep _ => 0

/-- The masks of the two pins the codec drives (R31). -/
def codecMask (pm : PinMap) : Byte := pm.sck.mask ||| pm.sdo.mask

/-- The configuration of a session agrees with itself: `ddr` is the PinMap's (R15), `out` has no bit outside `ddr` (U23) and is
0 before the session is opened (R29), and an open session has a legal PinMap (R20) and the multiplier of this hardware
(R16). -/
abbrev State.configured (s : State) : Prop :=
  s.ddr = ddrOf s.pinMap ∧ s.out &&& ~~~s.ddr = 0 ∧ (s.session = .setup → s.out = 0x00) ∧
  (s.session = .opened → pinMapLegal s.pinMap = true ∧ s.baudMultiplier = Config.sessionBaudMultiplier)

/-- The machine's invariant. -/
def State.inv (s : State) : Prop := s.chan.wf ∧ s.chan.inOrder ∧ s.configured

/-- The run is finished: the host has no further call (R166). Whether a run whose last operation ended in a recorded `Fault` is
finished R166 does not say: here it is, and being emptied it is clean too (DESIGN CHOICE, log 31). -/
abbrev State.finished (s : State) : Prop := s.calls = []

/-- The run is finished and clean: nothing staged, to be dropped or left in the queue `Q` (R166). The session is not looked at
(log 31). -/
abbrev State.clean (s : State) : Prop := s.finished ∧ s.chan.tx.len = 0 ∧ s.chan.discard = 0 ∧ s.chan.queue = []

end Sys2Proof.Machine
end

