-- ==== Sys2Proof/Certificates/Slice0/Obligations.lean ====
section
/-! DEFINITION. The statements for the provers, from the spec's rules. The channel's terms (`stream`, `handed`, `owed`,
`asked`, `queue`, `debts`, `sample`, `ready`) are those of Sys2Proof/Safety.lean; sample values are free, so every statement
about received bytes holds for every sample stream (R50). -/

open Sys2Proof Sys2Proof.Machine

/-! ### Packets, calls, the life of a session -/

/-- Every operation the spec gives a meaning is read back from its own packet, whatever follows it, with every operand at
every value. The packet's layout is the model's choice (log 1); the operations and selectors are those of R67 and R84. -/
def Obligations.DecodeInvertsEncode : Prop :=
  ∀ (i : Instr) (rest : List Byte), i.wellFormed = true → decode (encode i ++ rest) = .ok (i, rest)

/-- R85 (d), U12: a selector `0x17` to `0x1F` is refused by name, and the machine refuses the call. That the selector is in
bits 4 to 0 of the packet's first byte, and that bits 7 to 5 of it and the bytes after it do not matter, is the packet layout
of the model's choice (log 1). -/
def Obligations.UnassignedSelectorsRefused : Prop :=
  ∀ (b : Byte) (bs : List Byte), 0x17 ≤ b.toNat % 32 →
    decode (b :: bs) = .error (.selector (b.toNat % 32)) ∧
    ∀ (s : State) (rest : List HostCall), s.session = .opened → s.calls = .op (b :: bs) :: rest →
      step s = .refused (.packet (.selector (b.toNat % 32)))

/-- Packets written out by hand from R84's selectors and the layout of log 1 decode to what they stand for. -/
def Obligations.WrittenPacketsDecode : Prop :=
  decode [0x09, 0xAC, 0x53, 0x00, 0x00] = .ok (.cmd ⟨0xAC, 0x53, 0x00, 0x00⟩, []) ∧
  decode [0x02, 0x00, 0x00] = .ok (.setPin .sck 0, []) ∧
  decode [0x0F, 0x03, 0xFC] = .ok (.tpiDecode 0xFC03, []) ∧
  decode [0x10, 0x01, 0x8F, 0x01] = .ok (.cmdTpi [0x8F] 1, []) ∧
  decode [0x14, 0x81, 0x01] = .ok (.recv 129, [])

/-- R11, R37: a step takes the host's next call. In an open session a packet that decodes to an operation is run as that
operation, on the state without the call. What the operation ends in is what the step ends in, but for a `Fault` of the
channel, which the step records in the session (U7; log 18). -/
def Obligations.StepRunsDecodedOperation : Prop :=
  ∀ (s : State) (packet left : List Byte) (rest : List HostCall) (i : Instr), s.session = .opened →
    s.calls = .op packet :: rest → decode packet = .ok (i, left) →
    step s =
      match exec i (s.setCalls rest) with
      | .fault (.channel reason line) => .next (recordFault reason line (s.setCalls rest))
      | o => o

/-- R131, U7: a `Fault` recorded: the session is marked with its reason, PinMap, `ddr`, multiplier and the calls to come stay,
the drive stream is as the failed call left it, and nothing is staged, outstanding, held, set aside or owed any more. `out` is
free on the driven lines only. That the channel is emptied is the model's choice (log 18). -/
def Obligations.FaultIsRecorded : Prop :=
  ∀ (s : State) (reason : FaultReason) (line : Line), s.chan.wf →
    (recordFault reason line s).session = .faulted reason ∧
    (recordFault reason line s).pinMap = s.pinMap ∧ (recordFault reason line s).ddr = s.ddr ∧
    (recordFault reason line s).baudMultiplier = s.baudMultiplier ∧ (recordFault reason line s).calls = s.calls ∧
    (recordFault reason line s).ret = .unset ∧
    (recordFault reason line s).out &&& ~~~s.ddr = s.out &&& ~~~s.ddr ∧
    (recordFault reason line s).chan.stream = line.drive ∧ (recordFault reason line s).chan.owed = 0 ∧
    (recordFault reason line s).chan.debts = (0, [], []) ∧ (recordFault reason line s).chan.wf

/-- With no call queued the machine waits: its state does not change (log 2). -/
def Obligations.MachineWithoutCallWaits : Prop :=
  ∀ s : State, s.finished → step s = .next s

/-- R29, R146: the state after setup. That the bytes of the two buffers are 0 is log 16. -/
def Obligations.ResetIsAfterSetup : Prop :=
  State.reset.out = 0x00 ∧ State.reset.ddr = 0x00 ∧ State.reset.baudMultiplier = 0 ∧
  State.reset.chan.tx.len = 0 ∧ State.reset.chan.ring.len = 0 ∧ State.reset.chan.ring.rd = 0 ∧
  State.reset.chan.ring.wr = 0 ∧ State.reset.chan.pending = 0 ∧ State.reset.chan.debts = (0, [], []) ∧
  State.reset.session = .setup ∧ State.reset.chan.line.drive = [] ∧
  ∀ a, memRead State.reset.chan.tx.buf a = 0 ∧ memRead State.reset.chan.ring.buf a = 0

/-- R29, R147: opening a session fixes the PinMap, sets `ddr` to the union of the output masks and the multiplier to 1, and
changes nothing else, but that its four calls of the transport take their answers (log 7). R131: where one of the four fails,
a Transport fault is recorded and nothing was driven (log 18); that PinMap, `ddr` and multiplier then stay as they were is the
model's choice (log 30). R20, R85 (c): a PinMap that breaks a constraint of R20 is refused. -/
def Obligations.OpenPopulatesSession : Prop :=
  ∀ (s : State) (pm : PinMap) (rest : List HostCall), s.session = .setup → s.calls = .openSession pm :: rest →
    (pinMapLegal pm = true → (∀ m ∈ s.chan.line.modes.take 4, m ≠ .failed) →
      step s = .next { s with
        calls := rest, session := .opened, pinMap := pm, baudMultiplier := 1,
        chan := { s.chan with line := { s.chan.line with modes := s.chan.line.modes.drop 4 } },
        ddr := pm.sck.mask ||| pm.sdo.mask ||| pm.reset.mask ||| pm.buff.mask ||| pm.vcc.mask |||
          pm.led0.mask ||| pm.led1.mask ||| pm.led2.mask ||| pm.led3.mask }) ∧
    (pinMapLegal pm = true → .failed ∈ s.chan.line.modes.take 4 →
      ∃ l : Line, step s = .next (recordFault .transport l (s.setCalls rest)) ∧ l.drive = s.chan.line.drive) ∧
    (pinMapLegal pm = false → step s = .refused .illegalPinMap)

/-- U7, U13, R146, R153: an operation called when no session is open, or after a fault, is refused, whatever its packet. -/
def Obligations.OperationOutsideSessionRefused : Prop :=
  ∀ (s : State) (packet : List Byte) (rest : List HostCall), s.session ≠ .opened → s.calls = .op packet :: rest →
    step s = .refused .sessionNotOpen

/-- R44, R134, R153: closing a session, open or faulted, drains the channel and ends the session; a session that was never
opened or is closed is not closed again: such a call is refused (U13 says so of operations; of `close` it is the model's
reading, log 25). That the drain writes the staged bytes first is read from R37 (b) and R48 (log 28);
that `close` leaves the registers is the model's reading (log 20). R131: where the drain faults, its reason is recorded in
place of an earlier one and PinMap, `ddr`, multiplier and the calls to come stay (logs 18, 29); a refused bit mode change is
such a fault. -/
def Obligations.CloseDrainsAndEndsSession : Prop :=
  ∀ (s : State) (rest : List HostCall), s.calls = .closeSession :: rest →
    ((s.session = .opened ∨ ∃ reason, s.session = .faulted reason) → s.chan.ready 0 →
      ∃ c, step s = .next { s with calls := rest, session := .closed, chan := c } ∧
        c.tx.len = 0 ∧ c.pending = 0 ∧ c.debts = (0, [], []) ∧ c.ring.len = 0 ∧ c.ring.rd = c.ring.wr ∧
        c.line.drive = s.chan.stream) ∧
    ((s.session = .opened ∨ ∃ reason, s.session = .faulted reason) →
      (∀ reason line, exec .drain (s.setCalls rest) = .fault (.channel reason line) →
        ∃ t, step s = .next t ∧ t = recordFault reason line (s.setCalls rest) ∧ t.session = .faulted reason ∧
          t.pinMap = s.pinMap ∧ t.ddr = s.ddr ∧ t.baudMultiplier = s.baudMultiplier ∧ t.calls = rest ∧
          t.chan.stream = line.drive) ∧
      (∀ ms, s.chan.tx.len = 0 → (s.chan.line.modes = .failed :: ms ∨ s.chan.line.modes = .accepted :: .failed :: ms) →
        step s = .next (recordFault .transport { s.chan.line with modes := ms } (s.setCalls rest)))) ∧
    ((s.session = .setup ∨ s.session = .closed) → step s = .refused .sessionOrder)

/-- The state after setup meets the machine's invariant. -/
def Obligations.ResetMeetsInvariant : Prop := State.reset.inv

/-- Every step keeps the machine's invariant: the buffers stay canonical and in bounds, the ring indices agree (R24),
`pending` stays within `0 .. FIFO_CHUNK` and counts the samples not yet read (R25, R160), `discard` never exceeds what is owed
and stands for as many bytes of the stream (R26; log 19), the ring holds the samples in order (R37), `ddr` is the PinMap's (R15),
`out` has no bit outside `ddr` (U23) and is 0 before the session is opened (R29), and an open session has a legal PinMap (R20)
and multiplier 1 (R16). -/
def Obligations.StepKeepsInvariant : Prop :=
  ∀ s t : State, s.inv → step s = .next t → t.inv

/-! ### Whole-machine rules -/

/-- R13, R18: no step but the opening of a session writes `ddr`, `baud_multiplier` or the PinMap, and no operation touches the
calls behind it or the session, but for a fault that is recorded. -/
def Obligations.OnlyOpenWritesConfiguration : Prop :=
  ∀ (s t : State) (call : HostCall) (rest : List HostCall), s.calls = call :: rest → (∀ pm, call ≠ .openSession pm) →
    step s = .next t →
    t.pinMap = s.pinMap ∧ t.ddr = s.ddr ∧ t.baudMultiplier = s.baudMultiplier ∧ t.calls = rest ∧
    (call ≠ .closeSession → t.session = s.session ∨ ∃ reason, t.session = .faulted reason)

/-- R35, R37: nothing written to the chip is taken back, reordered or dropped, and no sample is read twice. -/
def Obligations.DriveStreamOnlyGrows : Prop :=
  ∀ s t : State, s.inv → step s = .next t →
    s.chan.line.drive <+: t.chan.line.drive ∧ s.chan.line.taken ≤ t.chan.line.taken

/-- R31 (derived by the spec): the codec leaves every bit of `out` outside the SCK and SDO masks alone, and holds those bits
in every byte it drives. -/
def Obligations.NeighbourPinsHeld : Prop :=
  ∀ (i : Instr) (s t : State), exec i s = .next t →
    ((∀ p x, i ≠ .setPin p x) → t.out &&& ~~~codecMask s.pinMap = s.out &&& ~~~codecMask s.pinMap) ∧
    (drivesLine i = true → s.chan.wf → s.chan.inOrder → 1 ≤ s.baudMultiplier →
      ∃ bs, t.chan.stream = s.chan.stream ++ bs ∧
        ∀ b ∈ bs, b &&& ~~~codecMask s.pinMap = s.out &&& ~~~codecMask s.pinMap)

/-- R14, R55, R67: the frame of every operation on the registers: none touches the session, `ddr`, the multiplier, the PinMap
or the host's calls; only the operations of R14 write `out`; only those of R55 reach the channel. -/
def Obligations.RegistersFrame : Prop :=
  ∀ (i : Instr) (s t : State), exec i s = .next t →
    t.session = s.session ∧ t.ddr = s.ddr ∧ t.baudMultiplier = s.baudMultiplier ∧ t.pinMap = s.pinMap ∧
    t.calls = s.calls ∧ (writesOut i = false → t.out = s.out) ∧ (usesChannel i = false → t.chan = s.chan)

/-- The frame of every operation on the line (the model's own fields, logs 5 to 9): the samples the environment is known to
give stay; answers to reads, writes, reads of the pins and control calls are only taken from the front; those to reads of the
pins are taken by `get_pin` alone, those to control calls by `drain` alone, and so are the counters. -/
def Obligations.LineFrame : Prop :=
  ∀ (i : Instr) (s t : State), s.chan.wf → s.chan.inOrder → 1 ≤ s.baudMultiplier → exec i s = .next t →
    t.chan.line.samples = s.chan.line.samples ∧
    t.chan.line.reads <:+ s.chan.line.reads ∧ t.chan.line.writes <:+ s.chan.line.writes ∧
    t.chan.line.pins <:+ s.chan.line.pins ∧ t.chan.line.modes <:+ s.chan.line.modes ∧
    ((∀ p, i ≠ .getPin p) → t.chan.line.pins = s.chan.line.pins ∧ t.chan.line.pinReads = s.chan.line.pinReads) ∧
    (i ≠ .drain → t.chan.line.modes = s.chan.line.modes ∧ t.chan.line.drains = s.chan.line.drains)

/-- The frame of every operation on the bytes of the receive ring (R24, R41): only the slots from `wr` on that the bytes read
back went to may change. -/
def Obligations.RingBytesFrame : Prop :=
  ∀ (i : Instr) (s t : State), s.chan.wf → s.chan.inOrder → 1 ≤ s.baudMultiplier → exec i s = .next t →
    ∀ a, (∀ j, j < t.chan.line.taken - s.chan.line.taken → a ≠ (s.chan.ring.wr + j) % Config.rxCapacity) →
      memRead t.chan.ring.buf a = memRead s.chan.ring.buf a

/-- The frame of every operation on the bytes of the staging buffer (R23, R39): only the slots from `tx.len` on that the
operation's bytes were staged in may change, and for the later windows of `cmd_tpi` those from 0 on. -/
def Obligations.StagingBytesFrame : Prop :=
  ∀ (i : Instr) (s t : State), s.chan.wf → s.chan.inOrder → 1 ≤ s.baudMultiplier → exec i s = .next t →
    ∀ a, (∀ j, j < s.baudMultiplier * stagedBytes i → a ≠ (s.chan.tx.len + j) % Config.fifoChunk) →
      (∀ j, j < s.baudMultiplier * restagedBytes i → a ≠ j % Config.fifoChunk) →
      memRead t.chan.tx.buf a = memRead s.chan.tx.buf a

/-! ### Pin operations (40_pin_ops.md) -/

/-- R91 (decision D3): `set_bits` hands back the byte whose bits under the mask are the line level of `x ≠ 0` and whose other
bits are those of `v`, and changes nothing else; it is idempotent, and with mask 0 it returns `v`. -/
def Obligations.SetBitsWritesField : Prop :=
  ∀ (s : State) (v : Byte) (p : Pin) (x : Nat),
    ∃ r : Byte, exec (.setBits v p x) s = .next (s.setRet (.byte r)) ∧
      (∀ i, i < 8 → r.getLsbD i =
        if (pinCfg s.pinMap p).mask.getLsbD i then (decide (x ≠ 0) ^^ (pinCfg s.pinMap p).inv) else v.getLsbD i) ∧
      exec (.setBits r p x) s = .next (s.setRet (.byte r)) ∧
      ((pinCfg s.pinMap p).mask = 0 → r = v)

/-- R91 (decision D3): for pins with disjoint masks the order of two writes does not matter. -/
def Obligations.DisjointPinWritesCommute : Prop :=
  ∀ (s : State) (v : Byte) (p q : Pin) (x y : Nat),
    (pinCfg s.pinMap p).mask &&& (pinCfg s.pinMap q).mask = 0 →
    ∃ a b r : Byte,
      exec (.setBits v p x) s = .next (s.setRet (.byte a)) ∧ exec (.setBits a q y) s = .next (s.setRet (.byte r)) ∧
      exec (.setBits v q y) s = .next (s.setRet (.byte b)) ∧ exec (.setBits b p x) s = .next (s.setRet (.byte r))

/-- R92 (decision D4): `get_bits` hands back whether `v` has a bit under the mask, complemented by the invert flag, and
changes nothing else; it looks at the bits under the mask only, and reads what `set_bits` wrote when the mask is not 0. -/
def Obligations.GetBitsReadsField : Prop :=
  ∀ (s : State) (v : Byte) (p : Pin),
    exec (.getBits v p) s = .next (s.setRet (.level
      (decide (v &&& (pinCfg s.pinMap p).mask ≠ 0) ^^ (pinCfg s.pinMap p).inv))) ∧
    (∀ w : Byte, v &&& (pinCfg s.pinMap p).mask = w &&& (pinCfg s.pinMap p).mask →
      exec (.getBits v p) s = exec (.getBits w p) s) ∧
    ∀ (x : Nat) (r : Byte), (pinCfg s.pinMap p).mask ≠ 0 → exec (.setBits v p x) s = .next (s.setRet (.byte r)) →
      exec (.getBits r p) s = .next (s.setRet (.level (decide (x ≠ 0))))

/-- R93 (decision D12): `set_pin` of an output pin writes the pin's field of `out` and stages the new byte once per copy, with
its discard, whether or not `out` changed; it completes when the channel is ready. The queue stays (R47; log 19, which also
names the lists that stand beside the count of discards). -/
def Obligations.SetPinSendsNewByte : Prop :=
  ∀ (s : State) (p : Pin) (x : Nat), p ≠ .sdi → s.chan.ready s.baudMultiplier →
    ∃ c, exec (.setPin p x) s =
        .next (((s.setOut (setBits s.out (pinCfg s.pinMap p) (decide (x ≠ 0)))).setChan c).setRet .done) ∧
      c.stream = s.chan.stream ++
        List.replicate s.baudMultiplier (setBits s.out (pinCfg s.pinMap p) (decide (x ≠ 0))) ∧
      c.debts = s.chan.debtsWith s.baudMultiplier ∧ c.handed = s.chan.handed ∧
      c.asked = s.chan.asked ∧ c.queue = s.chan.queue ∧ c.wf ∧ s.chan.line.movedTo c.line

/-- R93: `set_pin` on the input pin SDI is refused. -/
def Obligations.SetPinOnInputRefused : Prop :=
  ∀ (s : State) (x : Nat), exec (.setPin .sdi x) s = .refused .setPinOnInput

/-- R94 (decision D27): `get_pin` writes all that is staged, then hands back the pin's level in the chip's pin register, a
draw from the environment, which the model holds as queued answers and then free values (log 8); it takes no sample and drops
no discard. -/
def Obligations.GetPinFlushesThenReads : Prop :=
  ∀ (s : State) (p : Pin), s.chan.ready 0 →
    ∃ (c : Channel) (v : Byte),
      exec (.getPin p) s = .next ((s.setChan c).setRet (.level (getBits v (pinCfg s.pinMap p)))) ∧
      c.line.drive = s.chan.stream ∧ c.tx.len = 0 ∧ c.handed = s.chan.handed ∧ c.debts = s.chan.debts ∧
      c.queue = s.chan.queue ∧ c.pending ≤ Config.fifoChunk ∧ c.wf ∧
      (∀ u rest, s.chan.line.pins = .lines u :: rest → v = u ∧ c.line.pins = rest) ∧
      (s.chan.line.pins = [] → v = Config.freePins s.chan.stream s.chan.line.pinReads ∧ c.line.pins = []) ∧
      c.line.pinReads = s.chan.line.pinReads + 1

/-! ### ISP (41_isp_codec.md) -/

/-- R69, R100: `cell(x)` emits two bytes, SDO at `x` in both, SCK low then high, leaves `out` at the second, makes exactly one
rising edge, and changes nothing else. -/
def Obligations.CellEmitsTwoSlots : Prop :=
  ∀ (s : State) (x : Bool), pinMapLegal s.pinMap = true →
    ∃ b0 b1 : Byte,
      exec (.cell x) s = .next ((s.setOut b1).setRet (.drive [b0, b1])) ∧
      b0 = base s.pinMap s.out x false ∧ b1 = base s.pinMap s.out x true ∧
      getBits b0 s.pinMap.sdo = x ∧ getBits b1 s.pinMap.sdo = x ∧
      getBits b0 s.pinMap.sck = false ∧ getBits b1 s.pinMap.sck = true ∧
      b0 &&& ~~~codecMask s.pinMap = s.out &&& ~~~codecMask s.pinMap ∧
      b1 &&& ~~~codecMask s.pinMap = s.out &&& ~~~codecMask s.pinMap ∧
      b0 &&& ~~~s.pinMap.sck.mask = b1 &&& ~~~s.pinMap.sck.mask ∧
      risingEdges s.pinMap s.out [b0, b1] = 1

/-- R70, R101: `set_data(B)` emits 16 bytes, the byte at offset `2j + s` being `Base(B[7−j], s)`, eight rising edges, and
leaves `out` at `Base(B[0], 1)`. -/
def Obligations.SetDataEmitsMsbFirst : Prop :=
  ∀ (s : State) (b : Byte), pinMapLegal s.pinMap = true →
    ∃ bs : List Byte,
      exec (.setData b) s = .next ((s.setOut (base s.pinMap s.out (b.getLsbD 0) true)).setRet (.drive bs)) ∧
      bs.length = 16 ∧
      (∀ j, j < 8 → bs[2 * j]? = some (base s.pinMap s.out (b.getLsbD (7 - j)) false) ∧
        bs[2 * j + 1]? = some (base s.pinMap s.out (b.getLsbD (7 - j)) true)) ∧
      risingEdges s.pinMap s.out bs = 8

/-- R104, R105: `close_stretch` emits a copy of `out` and leaves it; `close_idle` lowers SCK in `out`, keeps SDO and every
other bit, and emits the new byte. Neither makes a rising edge. -/
def Obligations.ClosingBytes : Prop :=
  ∀ s : State, pinMapLegal s.pinMap = true →
    exec .closeStretch s = .next (s.setRet (.drive [s.out])) ∧ risingEdges s.pinMap s.out [s.out] = 0 ∧
    ∃ b : Byte, exec .closeIdle s = .next ((s.setOut b).setRet (.drive [b])) ∧
      getBits b s.pinMap.sck = false ∧ b &&& ~~~s.pinMap.sck.mask = s.out &&& ~~~s.pinMap.sck.mask ∧
      risingEdges s.pinMap s.out [b] = 0

/-- R74, R106 (decision D7): `extract_data(rx, w)` within bounds hands back the byte whose bit `7 − j` is the SDI level of the
sample at offset `16w + 2 + 2j`; it changes nothing else, and looks at no other byte or bit of `rx`. -/
def Obligations.ExtractReadsSdiSamples : Prop :=
  ∀ (s : State) (rx : List Byte) (w : Nat), 16 * w + 16 < rx.length →
    ∃ b : Byte, exec (.extractData rx w) s = .next (s.setRet (.byte b)) ∧
      ∀ j, j < 8 → b.getLsbD (7 - j) = getBits (rx.getD (16 * w + 2 + 2 * j) 0) s.pinMap.sdi

/-- R54, R85 (a), U10 (decision D9): extraction past the end of the received bytes is refused, for one word and for any word
of a list. -/
def Obligations.ExtractPastEndRefused : Prop :=
  ∀ (s : State) (rx : List Byte),
    (∀ w, rx.length ≤ 16 * w + 16 → exec (.extractData rx w) s = .refused .extractPastEnd) ∧
    ∀ ws : List Nat, (∃ w ∈ ws, rx.length ≤ 16 * w + 16) → exec (.fragExtract rx ws) s = .refused .extractPastEnd

/-- R110: `frag_extract(rx, ws)` hands back, in the order of `ws`, what `extract_data` gives for each index. -/
def Obligations.FragExtractReadsEachWord : Prop :=
  ∀ (s : State) (rx : List Byte) (ws : List Nat), (∀ w ∈ ws, 16 * w + 16 < rx.length) →
    ∃ res : List Byte, exec (.fragExtract rx ws) s = .next (s.setRet (.bytes res)) ∧ res.length = ws.length ∧
      ∀ j (hj : j < ws.length), exec (.extractData rx ws[j]) s = .next (s.setRet (.byte (res.getD j 0)))

/-- R71: the drive bytes of `cmd`: 65 of them, the byte at offset `16i + 2j + s` being `Base(cmd[i][7−j], s)` and the byte at
offset 64 `Base(cmd[3][0], 0)`, which is where `out` is left. -/
def Obligations.IspCommandLayout : Prop :=
  ∀ (pm : PinMap) (c : Cmd) (o : Byte), pinMapLegal pm = true →
    (cmdDrive pm c o).buf.length = 65 ∧
    (∀ i j, i < 4 → j < 8 →
      (cmdDrive pm c o).buf[16 * i + 2 * j]? =
        some (base pm o ((([c.c0, c.c1, c.c2, c.c3] : List Byte).getD i 0).getLsbD (7 - j)) false) ∧
      (cmdDrive pm c o).buf[16 * i + 2 * j + 1]? =
        some (base pm o ((([c.c0, c.c1, c.c2, c.c3] : List Byte).getD i 0).getLsbD (7 - j)) true)) ∧
    (cmdDrive pm c o).buf[64]? = some (base pm o (c.c3.getLsbD 0) false) ∧
    (cmdDrive pm c o).out = base pm o (c.c3.getLsbD 0) false

/-- R107 (decision D23): `cmd` sends its 65 bytes without discard, receives the next 65 samples of the queue (R47, R156) with
its own behind, and hands back four bytes, bit `7 − j` of byte `w` being SDI in the sample at offset `16w + 2 + 2j`. It leaves
nothing staged or to be dropped, and the rest of the queue. When the queue was empty (R148 b), as when only discards were
owed, the samples are those of its own bytes. -/
def Obligations.CmdExchangesCommand : Prop :=
  ∀ (s : State) (c : Cmd), pinMapLegal s.pinMap = true → 1 ≤ s.baudMultiplier →
    s.chan.ready (s.baudMultiplier * 65) →
    ∃ (ch : Channel) (res q : List Byte),
      exec (.cmd c) s =
        .next (((s.setOut (base s.pinMap s.out (c.c3.getLsbD 0) false)).setChan ch).setRet (.bytes res)) ∧
      q = s.chan.queue ++ ch.samplesFrom s.chan.stream.length (s.baudMultiplier * 65) ∧
      res.length = 4 ∧
      (∀ w j, w < 4 → j < 8 → (res.getD w 0).getLsbD (7 - j) =
        getBits (q.getD (s.baudMultiplier * (16 * w + 2 + 2 * j)) 0) s.pinMap.sdi) ∧
      ch.queue = q.drop (s.baudMultiplier * 65) ∧
      ch.stream = s.chan.stream ++ repeated s.baudMultiplier (cmdDrive s.pinMap c s.out).buf ∧
      ch.line.drive = ch.stream ∧ ch.debts = (0, [], ch.aside) ∧ ch.tx.len = 0 ∧
      ch.owed + ch.aside.length + s.chan.discard = s.chan.owed + s.chan.aside.length ∧ ch.wf ∧ ch.inOrder ∧
      s.chan.line.movedTo ch.line ∧
      (s.chan.owed = s.chan.discard → s.chan.aside = [] → s.chan.queue = []) ∧
      (s.chan.queue = [] → ∀ k, k < s.baudMultiplier * 65 → q.getD k 0 = ch.sample (s.chan.stream.length + k))

/-- R73: the drive bytes of a fragment of `k ≥ 1` commands: `64k + 1` of them, word `4q + i` at offset `16(4q + i)`, the
closing byte at offset `64k`; the 65 bytes of `cmd` are the fragment of one command with the idle closing. -/
def Obligations.FragmentLayout : Prop :=
  ∀ (pm : PinMap) (cmds : List Cmd) (last : Bool) (o : Byte), pinMapLegal pm = true → cmds ≠ [] →
    (fragDrive pm cmds last o).buf.length = 64 * cmds.length + 1 ∧
    (∀ q i j (hq : q < cmds.length), i < 4 → j < 8 →
      (fragDrive pm cmds last o).buf[64 * q + 16 * i + 2 * j]? =
        some (base pm o (((cmdBytes cmds[q]).getD i 0).getLsbD (7 - j)) false) ∧
      (fragDrive pm cmds last o).buf[64 * q + 16 * i + 2 * j + 1]? =
        some (base pm o (((cmdBytes cmds[q]).getD i 0).getLsbD (7 - j)) true)) ∧
    ∀ c : Cmd, (fragDrive pm [c] true o).buf = (cmdDrive pm c o).buf

/-- R72: a fragment that is not the last ends with a copy of the byte before, SCK high; the last one with that byte and SCK
low. Neither closing makes a rising edge. -/
def Obligations.FragmentClosingByte : Prop :=
  ∀ (pm : PinMap) (cmds : List Cmd) (c : Cmd) (o : Byte), pinMapLegal pm = true →
    let k := cmds.length + 1
    (fragDrive pm (cmds ++ [c]) false o).buf[64 * k - 1]? = some (base pm o (c.c3.getLsbD 0) true) ∧
    (fragDrive pm (cmds ++ [c]) false o).buf[64 * k]? = some (base pm o (c.c3.getLsbD 0) true) ∧
    (fragDrive pm (cmds ++ [c]) true o).buf[64 * k - 1]? = some (base pm o (c.c3.getLsbD 0) true) ∧
    (fragDrive pm (cmds ++ [c]) true o).buf[64 * k]? = some (base pm o (c.c3.getLsbD 0) false) ∧
    sckRises pm (base pm o (c.c3.getLsbD 0) true) (base pm o (c.c3.getLsbD 0) true) = false ∧
    sckRises pm (base pm o (c.c3.getLsbD 0) true) (base pm o (c.c3.getLsbD 0) false) = false

/-- R109 (decision D20): `frag_encode` of 1 to 8 commands sends the fragment without discard and receives nothing; SCK is left
low when `last`, high otherwise. -/
def Obligations.FragEncodeSendsFragment : Prop :=
  ∀ (s : State) (cmds : List Cmd) (last : Bool), 1 ≤ cmds.length → cmds.length ≤ 8 → pinMapLegal s.pinMap = true →
    s.chan.ready (s.baudMultiplier * (64 * cmds.length + 1)) →
    ∃ c, exec (.fragEncode cmds last) s =
        .next (((s.setOut (base s.pinMap s.out (lastBit cmds) (!last))).setChan c).setRet .done) ∧
      c.stream = s.chan.stream ++ repeated s.baudMultiplier (fragDrive s.pinMap cmds last s.out).buf ∧
      c.owed = s.chan.owed + s.baudMultiplier * (64 * cmds.length + 1) ∧
      c.debts = s.chan.debts ∧ c.handed = s.chan.handed ∧
      c.queue = s.chan.queue ++ c.samplesFrom s.chan.stream.length (s.baudMultiplier * (64 * cmds.length + 1)) ∧
      c.wf ∧ s.chan.line.movedTo c.line

/-- R85 (b), U11 (decision D9): a fragment of 0 or of more than 8 commands is refused. -/
def Obligations.FragmentCountRefused : Prop :=
  ∀ (s : State) (cmds : List Cmd) (last : Bool), (cmds.length = 0 ∨ 8 < cmds.length) →
    exec (.fragEncode cmds last) s = .refused .fragmentCount

/-- R111 (derived by the spec): a fragment of `k` commands has exactly `32k` rising SCK edges, whichever its closing byte and
whatever byte was on the lines before; `cmd` has 32. -/
def Obligations.RisingEdgesCountBits : Prop :=
  ∀ (pm : PinMap) (cmds : List Cmd) (last : Bool) (o p : Byte), pinMapLegal pm = true → cmds ≠ [] →
    risingEdges pm p (fragDrive pm cmds last o).buf = 32 * cmds.length ∧
    ∀ c : Cmd, risingEdges pm p (cmdDrive pm c o).buf = 32

/-- R88, R107: `cmd` is its expansion: four `set_data` and a `close_idle`, whose bytes together are sent without discard, a
`recv` of 65, and four `extract_data`. Both leave the same `out` and the same channel. -/
def Obligations.CmdIsItsExpansion : Prop :=
  ∀ (s s0 s1 s2 s3 s4 s5 s6 : State) (c : Cmd) (b0 b1 b2 b3 b4 rx : List Byte), pinMapLegal s.pinMap = true →
    1 ≤ s.baudMultiplier → s.chan.wf → s.chan.inOrder →
    exec (.setData c.c0) s = .next s0 → s0.ret = .drive b0 →
    exec (.setData c.c1) s0 = .next s1 → s1.ret = .drive b1 →
    exec (.setData c.c2) s1 = .next s2 → s2.ret = .drive b2 →
    exec (.setData c.c3) s2 = .next s3 → s3.ret = .drive b3 →
    exec .closeIdle s3 = .next s4 → s4.ret = .drive b4 →
    exec (.send (b0 ++ b1 ++ b2 ++ b3 ++ b4) false) s4 = .next s5 →
    exec (.recv 65) s5 = .next s6 → s6.ret = .bytes rx →
    ∃ r0 r1 r2 r3 : Byte, exec (.cmd c) s = .next (s6.setRet (.bytes [r0, r1, r2, r3])) ∧
      exec (.extractData rx 0) s6 = .next (s6.setRet (.byte r0)) ∧
      exec (.extractData rx 1) s6 = .next (s6.setRet (.byte r1)) ∧
      exec (.extractData rx 2) s6 = .next (s6.setRet (.byte r2)) ∧
      exec (.extractData rx 3) s6 = .next (s6.setRet (.byte r3))

/-- R108 (derived by the spec; decision D6): on the latched loopback of R51 the bytes of `set_data(B)` and a stretch byte
extract to `B` when SDI and SDO are inverted alike, and to its complement otherwise; wired without the lag they extract to
`((B << 1) & 0xFE) | (B & 1)` when inverted alike. -/
def Obligations.IspLoopbackReturnsByte : Prop :=
  ∀ (s : State) (b p : Byte), pinMapLegal s.pinMap = true →
    ∃ ds : List Byte, exec (.setData b) s = .next ((s.setOut (ds.getLastD 0)).setRet (.drive ds)) ∧
      exec (.extractData (latchedLoopback s.pinMap p (ds ++ [ds.getLastD 0])) 0) s =
        .next (s.setRet (.byte (if s.pinMap.sdi.inv = s.pinMap.sdo.inv then b else ~~~b))) ∧
      (s.pinMap.sdi.inv = s.pinMap.sdo.inv →
        exec (.extractData ((ds ++ [ds.getLastD 0]).map (wire s.pinMap)) 0) s =
          .next (s.setRet (.byte (((b <<< 1) &&& 0xFE) ||| (b &&& 1)))))

/-! ### TPI (42_tpi_codec.md) -/

/-- R115: `tpi_frame(B)`: a start cell 0, the eight bits least significant first, their exclusive-or, two stop cells 1. Cells
1 to 9 hold an even number of ones. Then the rule's corner cases and its example. -/
def Obligations.TpiFrameLayout : Prop :=
  ∀ (s : State) (b : Byte),
    ∃ P : Bool, P = (b.getLsbD 0 ^^ b.getLsbD 1 ^^ b.getLsbD 2 ^^ b.getLsbD 3 ^^ b.getLsbD 4 ^^ b.getLsbD 5 ^^
        b.getLsbD 6 ^^ b.getLsbD 7) ∧
      exec (.tpiFrame b) s = .next (s.setRet (.cells [false, b.getLsbD 0, b.getLsbD 1, b.getLsbD 2, b.getLsbD 3,
        b.getLsbD 4, b.getLsbD 5, b.getLsbD 6, b.getLsbD 7, P, true, true])) ∧
      ([b.getLsbD 0, b.getLsbD 1, b.getLsbD 2, b.getLsbD 3, b.getLsbD 4, b.getLsbD 5, b.getLsbD 6, b.getLsbD 7,
        P].count true) % 2 = 0 ∧
      exec (.tpiFrame 0x00) s = .next (s.setRet (.cells [false, false, false, false, false, false, false, false, false,
        false, true, true])) ∧
      exec (.tpiFrame 0xFF) s = .next (s.setRet (.cells [false, true, true, true, true, true, true, true, true,
        false, true, true])) ∧
      exec (.tpiFrame 0x80) s = .next (s.setRet (.cells [false, false, false, false, false, false, false, false, true,
        true, true, true])) ∧
      exec (.tpiFrame 0x8F) s = .next (s.setRet (.cells [false, true, true, true, true, false, false, false, true,
        true, true, true]))

/-- R76, R116: `tpi_tx(B)` stages 24 bytes with their discards, the byte at offset `2c + s` being `Base(f[c], s)` with `f` the
frame of `B`; nothing is received and no closing byte follows. `out` is left at `Base(1, 1)` and success is returned. The queue
stays (R47; log 19, which also names the lists that stand beside the count of discards). -/
def Obligations.TpiTxSendsFrame : Prop :=
  ∀ (s : State) (b : Byte), pinMapLegal s.pinMap = true → s.chan.ready (s.baudMultiplier * 24) →
    ∃ (c : Channel) (T : List Byte),
      exec (.tpiTx b) s = .next (((s.setOut (base s.pinMap s.out true true)).setChan c).setRet .done) ∧
      T.length = 24 ∧
      (∀ k, k < 12 → T[2 * k]? = some (base s.pinMap s.out ((tpiFrame b).getD k true) false) ∧
        T[2 * k + 1]? = some (base s.pinMap s.out ((tpiFrame b).getD k true) true)) ∧
      c.stream = s.chan.stream ++ repeated s.baudMultiplier T ∧
      c.debts = s.chan.debtsWith (s.baudMultiplier * 24) ∧ c.handed = s.chan.handed ∧
      c.asked = s.chan.asked ∧ c.queue = s.chan.queue ∧ c.wf ∧ s.chan.line.movedTo c.line

/-- R118: `tpi_decode(res)`: with no 0 among the first four cells, START_MISSING; else, from the lowest 0 cell `st`, a wrong
parity cell gives PARITY, then a 0 stop cell STOP, and else the byte of the cells `st + 1 .. st + 8`. Nothing else changes.
Then the rule's corner case and its examples. -/
def Obligations.TpiDecodeChecksInOrder : Prop :=
  ∀ (s : State) (res : Word16),
    ((∀ k, k < 4 → res.getLsbD k = true) →
      exec (.tpiDecode res) s = .next (s.setRet (.tpiError .startMissing []))) ∧
    (∀ st, st < 4 → res.getLsbD st = false → (∀ k, k < st → res.getLsbD k = true) →
      ∃ (P : Bool) (b : Byte),
        P = (res.getLsbD (st + 1) ^^ res.getLsbD (st + 2) ^^ res.getLsbD (st + 3) ^^ res.getLsbD (st + 4) ^^
          res.getLsbD (st + 5) ^^ res.getLsbD (st + 6) ^^ res.getLsbD (st + 7) ^^ res.getLsbD (st + 8)) ∧
        (∀ i, i < 8 → b.getLsbD i = res.getLsbD (st + 1 + i)) ∧
        exec (.tpiDecode res) s = .next (s.setRet (
          if res.getLsbD (st + 9) ≠ P then .tpiError .parity []
          else if res.getLsbD (st + 10) = false ∨ res.getLsbD (st + 11) = false then .tpiError .stop []
          else .byte b))) ∧
    exec (.tpiDecode 0x0000) s = .next (s.setRet (.tpiError .stop [])) ∧
    exec (.tpiDecode 0xFF00) s = .next (s.setRet (.byte 0x80)) ∧
    exec (.tpiDecode 0xFC03) s = .next (s.setRet (.byte 0x80)) ∧
    exec (.tpiDecode 0xFD00) s = .next (s.setRet (.tpiError .parity [])) ∧
    exec (.tpiDecode 0xFB00) s = .next (s.setRet (.tpiError .stop [])) ∧
    exec (.tpiDecode 0xF00F) s = .next (s.setRet (.tpiError .startMissing []))

/-- R121 (derived by the spec; decision D19): the frame of any byte decodes to it after at most three idle cells, and is
missed after more. -/
def Obligations.TpiFrameRoundTrip : Prop :=
  ∀ (b : Byte) (p : Nat), (p < 4 → tpiDecode (frameWord b p) = .ok b) ∧
    (4 ≤ p → tpiDecode (frameWord b p) = .error .startMissing)

/-- R121 (derived by the spec; decision D19): a single flipped cell of any frame, after at most three idle cells, never yields
a byte: a flipped data or parity cell gives PARITY, a flipped stop cell STOP, a flipped start cell START_MISSING when no 0 is
left among the first four cells and PARITY otherwise. -/
def Obligations.TpiSingleFlipDetected : Prop :=
  ∀ (b : Byte) (p c : Nat), p < 4 → c < 12 →
    tpiDecode (flippedWord b p c) = .error (
      if c = 0 then
        (if (List.range 4).all (fun k => (flippedWord b p c).getLsbD k) then .startMissing else .parity)
      else if c < 10 then .parity
      else .stop)

/-- R77, R78, R117, R130 (decisions D8, D25): `tpi_rx` sends 32 bytes, the byte at offset `2k + s` being `Base(1, s)`,
receives the next 32 samples of the queue (R47, R156) with its own behind, and decodes the word whose bit `k` is SDI in the
sample at offset `2k + 1`. The streams are balanced and `out` is `Base(1, 1)` whether a byte or an error is handed back. When
the queue was empty (R148 b), as when only discards were owed, the samples are those of its own bytes. -/
def Obligations.TpiRxReceivesFrame : Prop :=
  ∀ s : State, pinMapLegal s.pinMap = true → 1 ≤ s.baudMultiplier → s.chan.ready (s.baudMultiplier * 32) →
    ∃ (ch : Channel) (res : Word16) (T q : List Byte),
      exec .tpiRx s = .next (((s.setOut (base s.pinMap s.out true true)).setChan ch).setRet (
        match tpiDecode res with
        | .ok b => .byte b
        | .error cause => .tpiError cause [])) ∧
      q = s.chan.queue ++ ch.samplesFrom s.chan.stream.length (s.baudMultiplier * 32) ∧
      (∀ k, k < 16 → res.getLsbD k = getBits (q.getD (s.baudMultiplier * (2 * k + 1)) 0) s.pinMap.sdi) ∧
      ch.queue = q.drop (s.baudMultiplier * 32) ∧
      T.length = 32 ∧
      (∀ k, k < 16 → T[2 * k]? = some (base s.pinMap s.out true false) ∧
        T[2 * k + 1]? = some (base s.pinMap s.out true true)) ∧
      ch.stream = s.chan.stream ++ repeated s.baudMultiplier T ∧ ch.line.drive = ch.stream ∧
      ch.debts = (0, [], ch.aside) ∧ ch.tx.len = 0 ∧
      ch.owed + ch.aside.length + s.chan.discard = s.chan.owed + s.chan.aside.length ∧ ch.wf ∧ ch.inOrder ∧
      s.chan.line.movedTo ch.line ∧
      (s.chan.owed = s.chan.discard → s.chan.aside = [] → s.chan.queue = []) ∧
      (s.chan.queue = [] → ∀ k, k < s.baudMultiplier * 32 → q.getD k 0 = ch.sample (s.chan.stream.length + k))

/-- R119, R129, R130 (decisions D11, D24): `cmd_tpi` sends its frames with discard, then clocks one window of 32 bytes for
each receive and stops at the first bad one: the bytes of the `k` good windows are handed back, as the result when `k =
res_len`, with the cause of window `k` otherwise. Window `i` is 16 cells with SDO high (R77, D25) and is decoded from the
samples at its offsets `2j + 1` (R78, D8) of the queue, which the frames leave as it was (R47; log 19), with those of the
windows behind (R156). When the queue was empty (R148 b), as when only discards were owed, these are the samples of the
window's own bytes. -/
def Obligations.CmdTpiSendsThenReceives : Prop :=
  ∀ (s : State) (cmd : List Byte) (n : Nat), pinMapLegal s.pinMap = true → 1 ≤ s.baudMultiplier →
    s.chan.ready (s.baudMultiplier * (24 * cmd.length + 32 * n)) →
    ∃ (ch : Channel) (o : Byte) (r : Ret) (k windows : Nat) (res q : List Byte) (word : Nat → Word16),
      exec (.cmdTpi cmd n) s = .next (((s.setOut o).setChan ch).setRet r) ∧
      (o = if cmd.length + n = 0 then s.out else base s.pinMap s.out true true) ∧
      q = s.chan.queue ++
        ch.samplesFrom (s.chan.stream.length + s.baudMultiplier * (24 * cmd.length)) (s.baudMultiplier * (32 * windows)) ∧
      (∀ i j, i < windows → j < 16 → (word i).getLsbD j =
        getBits (q.getD (s.baudMultiplier * (32 * i + 2 * j + 1)) 0) s.pinMap.sdi) ∧
      ch.queue = q.drop (s.baudMultiplier * (32 * windows)) ∧
      res.length = k ∧ (∀ i, i < k → tpiDecode (word i) = .ok (res.getD i 0)) ∧
      ((k = n ∧ windows = n ∧ r = .bytes res) ∨
        (k < n ∧ windows = k + 1 ∧ ∃ cause, tpiDecode (word k) = .error cause ∧ r = .tpiError cause res)) ∧
      ch.stream = s.chan.stream ++ repeated s.baudMultiplier
        (cmd.flatMap (fun b => cellsBytes s.pinMap s.out (tpiFrame b)) ++
          cellsBytes s.pinMap s.out (List.replicate (16 * windows) true)) ∧
      (n = 0 → ch.debts = s.chan.debtsWith (s.baudMultiplier * (24 * cmd.length)) ∧ ch.handed = s.chan.handed) ∧
      (n ≠ 0 → ch.debts = (0, [], ch.aside) ∧ ch.tx.len = 0 ∧
        ch.owed + ch.aside.length + s.chan.discard = s.chan.owed + s.chan.aside.length) ∧
      ch.wf ∧ ch.inOrder ∧ s.chan.line.movedTo ch.line ∧
      (s.chan.owed = s.chan.discard → s.chan.aside = [] → s.chan.queue = []) ∧
      (s.chan.queue = [] → ∀ k, k < s.baudMultiplier * (32 * windows) →
        q.getD k 0 = ch.sample (s.chan.stream.length + s.baudMultiplier * (24 * cmd.length) + k))

/-- R128 (decision D10): success is numbered 0, and every TPI error, whatever its cause, one number that is not 0 and
otherwise open (log 13). -/
def Obligations.TpiErrorsShareNonZeroCode : Prop :=
  (∀ cause res, retCode (.tpiError cause res) = some Config.tpiErrCode) ∧ Config.tpiErrCode ≠ 0 ∧
  ∀ r : Ret, r ≠ .unset → (∀ cause res, r ≠ .tpiError cause res) → retCode r = some 0

/-- R22, R130, U5 (decision D11; log 14): after an error the result bytes written before it can be read, and reading one that
was not written is a fault. -/
def Obligations.UnwrittenResultFaults : Prop :=
  ∀ (cause : TpiCause) (res : List Byte) (i : Nat),
    (∀ h : i < res.length, readResult (.tpiError cause res) i = .next res[i]) ∧
    (res.length ≤ i → readResult (.tpiError cause res) i = .fault .unwrittenResult)

/-! ### The channel (20_memory.md) -/

/-- R39 (decision D17): `send` appends its bytes to the stream, each repeated `baud_multiplier` times, and with the flag adds
one discard for each copy (R26) with its offset (log 19); it takes no sample. R47: without the flag the queue grows by the
samples of those bytes, with it the queue stays. `tx.len` moves on modulo `FIFO_CHUNK`: a full buffer is flushed. -/
def Obligations.SendAppendsToStream : Prop :=
  ∀ (s : State) (bytes : List Byte) (d : Bool), s.chan.ready (s.baudMultiplier * bytes.length) →
    ∃ c, exec (.send bytes d) s = .next ((s.setChan c).setRet .done) ∧
      c.stream = s.chan.stream ++ bytes.flatMap (fun b => List.replicate s.baudMultiplier b) ∧
      c.debts = (if d then s.chan.debtsWith (s.baudMultiplier * bytes.length) else s.chan.debts) ∧
      c.asked = s.chan.asked ++
        (if d then [] else List.range' s.chan.stream.length (s.baudMultiplier * bytes.length)) ∧
      c.queue = s.chan.queue ++
        (if d then [] else c.samplesFrom s.chan.stream.length (s.baudMultiplier * bytes.length)) ∧
      c.tx.len = (s.chan.tx.len + s.baudMultiplier * bytes.length) % Config.fifoChunk ∧
      c.handed = s.chan.handed ∧ c.ring.rd = s.chan.ring.rd ∧ c.wf ∧ c.inOrder ∧ s.chan.line.movedTo c.line

/-- R40, R160: `flush` writes the staged bytes to the chip, in order; at most `FIFO_CHUNK` bytes are outstanding when it
returns. The discards and what was handed out stay; the staging buffer is emptied, so that no byte is written twice (R37; that
the caller of `Flush` resets `tx.len` is D17, log 10). No write offers more than the chip has room for, `FIFO_CHUNK − pending`:
a first write that takes so many bytes, or all the staged ones, is not short; where the chip is full, the room is what a fill
has just read. -/
def Obligations.FlushWritesStagedBytes : Prop :=
  (∀ s : State, s.chan.ready 0 →
    ∃ c, exec .flush s = .next ((s.setChan c).setRet .done) ∧
      c.line.drive = s.chan.line.drive ++ staged s.chan.tx ∧ c.stream = s.chan.stream ∧
      c.tx = { s.chan.tx with len := 0 } ∧
      c.pending ≤ Config.fifoChunk ∧ c.pending + c.line.taken = c.line.drive.length ∧
      c.debts = s.chan.debts ∧ c.queue = s.chan.queue ∧ c.handed = s.chan.handed ∧ c.wf ∧ s.chan.line.movedTo c.line) ∧
  ∀ (s : State) (k n : Nat) (reads : List ReadReply) (writes : List WriteReply), s.chan.wf → s.chan.room 0 →
    s.chan.line.writes = .took n :: writes → (∀ w ∈ writes, w.whole = true) → (∀ r ∈ s.chan.line.reads, r.delivers = true) →
    (s.chan.pending < Config.fifoChunk ∧ k = Config.fifoChunk - s.chan.pending ∨
      s.chan.pending = Config.fifoChunk ∧ 0 < k ∧ k ≤ Config.fifoChunk ∧ s.chan.line.reads = .got k :: reads) →
    min k s.chan.tx.len ≤ n →
    ∃ c, exec .flush s = .next ((s.setChan c).setRet .done) ∧
      c.line.drive = s.chan.line.drive ++ staged s.chan.tx

/-- R41 (decision D17): `fill` moves some of the outstanding samples to the ring, in order, and hands back how many; with no
answer queued, all of them (log 6). From a transport that never delivers it gets none and changes nothing (R138). -/
def Obligations.FillMovesOutstandingSamples : Prop :=
  (∀ s : State, s.chan.ready 0 →
    ∃ (c : Channel) (k : Nat), exec .fill s = .next ((s.setChan c).setRet (.count k)) ∧
      k ≤ s.chan.pending ∧ c.pending = s.chan.pending - k ∧ c.ring.len = s.chan.ring.len + k ∧
      c.ring.wr = (s.chan.ring.wr + k) % Config.rxCapacity ∧ c.ring.rd = s.chan.ring.rd ∧
      (∀ j, j < k → memRead c.ring.buf ((s.chan.ring.wr + j) % Config.rxCapacity) =
        s.chan.sample (s.chan.line.taken + j)) ∧
      c.tx = s.chan.tx ∧ c.debts = s.chan.debts ∧ c.queue = s.chan.queue ∧ c.line.drive = s.chan.line.drive ∧
      (s.chan.line.reads = [] → k = s.chan.pending) ∧
      (∀ n rest, s.chan.line.reads = .got n :: rest → k = min n s.chan.pending)) ∧
  ∀ (s : State) (rest : List ReadReply), s.chan.line.reads = .starved :: rest → exec .fill s = .next (s.setRet (.count 0))

/-- R43, R47, R58: `recv(n)` of no more than is owed writes all that is staged, drops the owed discards, and hands back the next
`n` logical bytes of the queue: of the `baud_multiplier` copies of each, the first. The rest of the queue stays. Where the
bytes sent with discard are the oldest owed, the queue is what comes after that many samples, behind those set aside before;
elsewhere what was asked for before them is not dropped (log 19). -/
def Obligations.RecvReturnsNextSamples : Prop :=
  ∀ (s : State) (n : Nat), 1 ≤ s.baudMultiplier → s.chan.ready 0 →
    s.chan.discard + s.baudMultiplier * n ≤ s.chan.owed + s.chan.aside.length →
    ∃ c, exec (.recv n) s = .next ((s.setChan c).setRet
        (.bytes ((List.range n).map fun i => s.chan.queue.getD (s.baudMultiplier * i) 0))) ∧
      s.baudMultiplier * n ≤ s.chan.queue.length ∧ c.queue = s.chan.queue.drop (s.baudMultiplier * n) ∧
      c.line.drive = s.chan.stream ∧ c.stream = s.chan.stream ∧
      c.owed + c.aside.length + s.chan.discard + s.baudMultiplier * n = s.chan.owed + s.chan.aside.length ∧
      c.debts = (0, [], c.aside) ∧ c.tx.len = 0 ∧ c.wf ∧ c.inOrder ∧ s.chan.line.movedTo c.line ∧
      (s.chan.echoes.reverse = List.range' s.chan.handed s.chan.discard → s.chan.queue =
        s.chan.aside ++ s.chan.samplesFrom (s.chan.handed + s.chan.discard) (s.chan.owed - s.chan.discard))

/-- R42, R138, U8 (decision D22): `recv(n)` of more than is owed never completes: the machine is stuck; and so it is where the
transport never delivers again and too little was read before, whatever is staged or outstanding. -/
def Obligations.RecvBeyondOwedIsStuck : Prop :=
  (∀ (s : State) (n : Nat), 1 ≤ s.baudMultiplier → s.chan.ready 0 →
    s.chan.owed + s.chan.aside.length < s.chan.discard + s.baudMultiplier * n → exec (.recv n) s = .fault .stuck) ∧
  ∀ (s : State) (n : Nat) (rest : List ReadReply), 1 ≤ s.baudMultiplier → s.chan.wf →
    (∀ w ∈ s.chan.line.writes, w.whole = true) → s.chan.line.reads = .starved :: rest →
    s.chan.ring.len + s.chan.aside.length < s.chan.discard + s.baudMultiplier * n → exec (.recv n) s = .fault .stuck

/-- R37 (b), R44, R48, R58 (decision D17; log 28): `drain` writes all that is staged and then leaves nothing staged, pending,
owed, set aside or in the ring; the samples of the bytes sent before are lost, so that the next sample received is that of the
next byte sent. -/
def Obligations.DrainEmptiesChannel : Prop :=
  ∀ s : State, s.chan.ready 0 →
    ∃ c, exec .drain s = .next ((s.setChan c).setRet .done) ∧
      c.tx.len = 0 ∧ c.ring.len = 0 ∧ c.ring.rd = c.ring.wr ∧ c.pending = 0 ∧ c.debts = (0, [], []) ∧ c.queue = [] ∧
      c.line.drive = s.chan.stream ∧ c.stream = s.chan.stream ∧ c.handed = s.chan.stream.length ∧
      c.wf ∧ c.inOrder

/-- R46: `usleep` writes all that is staged and empties the staging buffer; the sleep itself changes nothing, whatever its
length. -/
def Obligations.UsleepFlushes : Prop :=
  ∀ (s : State) (us : Nat), s.chan.ready 0 →
    ∃ c, exec (.usleep us) s = .next ((s.setChan c).setRet .done) ∧
      c.line.drive = s.chan.stream ∧ c.tx.len = 0 ∧ c.handed = s.chan.handed ∧ c.debts = s.chan.debts ∧
      c.queue = s.chan.queue ∧ c.owed = s.chan.owed ∧ c.wf ∧ c.inOrder ∧ s.chan.line.movedTo c.line ∧
      ∀ us', exec (.usleep us') s = exec (.usleep us) s

/-- R40, R45, R131: a write the transport takes short is fatal, the bytes it took having reached the chip, and a transport
call that fails is fatal. -/
def Obligations.TransportErrorsAreFatal : Prop :=
  ∀ s : State, s.chan.wf →
    (∀ n rest, s.chan.pending < Config.fifoChunk → s.chan.line.writes = .took n :: rest →
      n < min (Config.fifoChunk - s.chan.pending) s.chan.tx.len →
      exec .flush s = .fault (.channel .shortWrite { s.chan.line with
        drive := s.chan.line.drive ++ (staged s.chan.tx).take n, writes := rest })) ∧
    (∀ rest, s.chan.pending < Config.fifoChunk → 0 < s.chan.tx.len → s.chan.line.writes = .failed :: rest →
      ∃ l, exec .flush s = .fault (.channel .transport l)) ∧
    (∀ rest, s.chan.line.reads = .failed :: rest →
      exec .fill s = .fault (.channel .transport { s.chan.line with reads := rest })) ∧
    (∀ rest, s.chan.tx.len = 0 → s.chan.line.modes = .failed :: rest →
      exec .drain s = .fault (.channel .transport { s.chan.line with modes := rest })) ∧
    ∀ (p : Pin) (rest : List PinReply), s.chan.tx.len = 0 → s.chan.line.pins = .failed :: rest →
      exec (.getPin p) s = .fault (.channel .transport { s.chan.line with pins := rest })

/-- R59, U6 (decision D22): a received byte that finds the ring full refuses the run, be the ring full before the batch or
filled by it. The size of the batch is the transport's answer, at most what is outstanding, which is also its size where no
answer is queued (log 6). -/
def Obligations.FullRingRefusesRun : Prop :=
  ∀ s : State, s.chan.wf →
    (s.chan.line.reads = [] → Config.rxCapacity < s.chan.ring.len + s.chan.pending →
      exec .fill s = .refused .ringFull) ∧
    ∀ n rest, s.chan.line.reads = .got n :: rest → Config.rxCapacity < s.chan.ring.len + min n s.chan.pending →
      exec .fill s = .refused .ringFull

/-- R37 (a), R47, DOC0 property 1 (X1): when only discards were owed, the `k`-th byte received is the sample of the `k`-th byte
sent without discard (of its first copy), whatever was sent with discard behind it before the receive (R43's loop would drop
the oldest samples there: log 19). Where every sample of the stream is the byte driven, what was sent comes back, byte by
byte, in order. -/
def Obligations.EchoReturnsBytesSent : Prop :=
  ∀ (s : State) (bytes noise : List Byte), 1 ≤ s.baudMultiplier →
    s.chan.ready (s.baudMultiplier * (bytes.length + noise.length)) → s.chan.owed = s.chan.discard → s.chan.aside = [] →
    ∃ t u v : State, exec (.send bytes false) s = .next t ∧ exec (.send noise true) t = .next u ∧
      exec (.recv bytes.length) u = .next v ∧
      (∀ k, k < bytes.length → t.chan.stream[s.chan.stream.length + s.baudMultiplier * k]? = bytes[k]?) ∧
      v.ret = .bytes ((List.range bytes.length).map fun k =>
        u.chan.sample (s.chan.stream.length + s.baudMultiplier * k)) ∧
      ((∀ k, k < u.chan.stream.length → u.chan.sample k = u.chan.stream.getD k 0) → v.ret = .bytes bytes)

/-- R43, R58, DOC0 property 2 (X2): after a send of at least one byte with discard, whatever was owed before, `recv(0)` leaves
no discard and an empty ring, and loses nothing that was asked for: the queue is what it was (a sample asked for that stands
before an echo is set aside: log 19). From any state `recv(0)` leaves no discard and the queue as it was. -/
def Obligations.RecvZeroConsumesEchoes : Prop :=
  (∀ (s : State) (bytes : List Byte), bytes ≠ [] → 1 ≤ s.baudMultiplier →
    s.chan.ready (s.baudMultiplier * bytes.length) →
    ∃ t u : State, exec (.send bytes true) s = .next t ∧ exec (.recv 0) t = .next u ∧
      u.chan.discard = 0 ∧ u.chan.ring.len = 0 ∧ u.chan.pending = 0 ∧ u.chan.tx.len = 0 ∧
      u.chan.queue = s.chan.queue ∧ u.ret = .bytes []) ∧
  ∀ s : State, 1 ≤ s.baudMultiplier → s.chan.ready 0 →
    ∃ u : State, exec (.recv 0) s = .next u ∧ u.chan.discard = 0 ∧ u.chan.queue = s.chan.queue ∧ u.ret = .bytes []
end

