-- ==== Sys2Proof/Laws/State.lean ====
section
/-! SUPPORT. What each named update of the state leaves in each field, and how the outcomes of operations chain. -/

namespace Sys2Proof.Machine

section Setters

variable (s : State) (o d : Byte) (m : Nat) (pm : PinMap) (c : Channel) (r : Ret) (cs : List HostCall) (x : Session)

@[simp] theorem setOut_session : (s.setOut o).session = s.session := rfl
@[simp] theorem setOut_out : (s.setOut o).out = o := rfl
@[simp] theorem setOut_ddr : (s.setOut o).ddr = s.ddr := rfl
@[simp] theorem setOut_baudMultiplier : (s.setOut o).baudMultiplier = s.baudMultiplier := rfl
@[simp] theorem setOut_pinMap : (s.setOut o).pinMap = s.pinMap := rfl
@[simp] theorem setOut_chan : (s.setOut o).chan = s.chan := rfl
@[simp] theorem setOut_calls : (s.setOut o).calls = s.calls := rfl
@[simp] theorem setOut_ret : (s.setOut o).ret = s.ret := rfl

@[simp] theorem setChan_session : (s.setChan c).session = s.session := rfl
@[simp] theorem setChan_out : (s.setChan c).out = s.out := rfl
@[simp] theorem setChan_ddr : (s.setChan c).ddr = s.ddr := rfl
@[simp] theorem setChan_baudMultiplier : (s.setChan c).baudMultiplier = s.baudMultiplier := rfl
@[simp] theorem setChan_pinMap : (s.setChan c).pinMap = s.pinMap := rfl
@[simp] theorem setChan_chan : (s.setChan c).chan = c := rfl
@[simp] theorem setChan_calls : (s.setChan c).calls = s.calls := rfl
@[simp] theorem setChan_ret : (s.setChan c).ret = s.ret := rfl

@[simp] theorem setRet_session : (s.setRet r).session = s.session := rfl
@[simp] theorem setRet_out : (s.setRet r).out = s.out := rfl
@[simp] theorem setRet_ddr : (s.setRet r).ddr = s.ddr := rfl
@[simp] theorem setRet_baudMultiplier : (s.setRet r).baudMultiplier = s.baudMultiplier := rfl
@[simp] theorem setRet_pinMap : (s.setRet r).pinMap = s.pinMap := rfl
@[simp] theorem setRet_chan : (s.setRet r).chan = s.chan := rfl
@[simp] theorem setRet_calls : (s.setRet r).calls = s.calls := rfl
@[simp] theorem setRet_ret : (s.setRet r).ret = r := rfl

@[simp] theorem setCalls_session : (s.setCalls cs).session = s.session := rfl
@[simp] theorem setCalls_out : (s.setCalls cs).out = s.out := rfl
@[simp] theorem setCalls_ddr : (s.setCalls cs).ddr = s.ddr := rfl
@[simp] theorem setCalls_baudMultiplier : (s.setCalls cs).baudMultiplier = s.baudMultiplier := rfl
@[simp] theorem setCalls_pinMap : (s.setCalls cs).pinMap = s.pinMap := rfl
@[simp] theorem setCalls_chan : (s.setCalls cs).chan = s.chan := rfl
@[simp] theorem setCalls_calls : (s.setCalls cs).calls = cs := rfl
@[simp] theorem setCalls_ret : (s.setCalls cs).ret = s.ret := rfl

@[simp] theorem setSession_session : (s.setSession x).session = x := rfl
@[simp] theorem setSession_out : (s.setSession x).out = s.out := rfl
@[simp] theorem setSession_ddr : (s.setSession x).ddr = s.ddr := rfl
@[simp] theorem setSession_baudMultiplier : (s.setSession x).baudMultiplier = s.baudMultiplier := rfl
@[simp] theorem setSession_pinMap : (s.setSession x).pinMap = s.pinMap := rfl
@[simp] theorem setSession_chan : (s.setSession x).chan = s.chan := rfl
@[simp] theorem setSession_calls : (s.setSession x).calls = s.calls := rfl
@[simp] theorem setSession_ret : (s.setSession x).ret = s.ret := rfl

@[simp] theorem configure_session : (s.configure pm d m).session = s.session := rfl
@[simp] theorem configure_out : (s.configure pm d m).out = s.out := rfl
@[simp] theorem configure_ddr : (s.configure pm d m).ddr = d := rfl
@[simp] theorem configure_baudMultiplier : (s.configure pm d m).baudMultiplier = m := rfl
@[simp] theorem configure_pinMap : (s.configure pm d m).pinMap = pm := rfl
@[simp] theorem configure_chan : (s.configure pm d m).chan = s.chan := rfl
@[simp] theorem configure_calls : (s.configure pm d m).calls = s.calls := rfl
@[simp] theorem configure_ret : (s.configure pm d m).ret = s.ret := rfl

end Setters

/-! ### Chaining -/

@[simp] theorem andThen_next {α β : Type} (a : α) (f : α → Out β) : andThen (.next a) f = f a := rfl

@[simp] theorem andThen_fault {α β : Type} (r : Fault) (f : α → Out β) :
    andThen (.fault r) f = .fault r := rfl

@[simp] theorem andThen_refused {α β : Type} (r : Refusal) (f : α → Out β) :
    andThen (.refused r) f = .refused r := rfl

/-- A chain that answers a next value answered one at its first link. -/
theorem andThen_eq_next {α β : Type} {x : Out α} {f : α → Out β} {b : β} (h : andThen x f = .next b) :
    ∃ a, x = .next a ∧ f a = .next b := by
  cases x with
  | next a => exact ⟨a, rfl, h⟩
  | fault r => cases h
  | refused r => cases h

theorem andThen_assoc {α β γ : Type} (x : Out α) (f : α → Out β) (g : β → Out γ) :
    andThen (andThen x f) g = andThen x fun a => andThen (f a) g := by
  cases x <;> rfl

/-! ### Handing back -/

@[simp] theorem handBack_eq (r : Ret) (s : State) : handBack r s = s.setRet r := rfl

@[simp] theorem raiseTpi_eq (cause : TpiCause) (res : List Byte) (s : State) :
    raiseTpi cause res s = s.setRet (.tpiError cause res) := rfl

end Sys2Proof.Machine
end

