-- ==== Sys2Proof/Laws/Memory.lean ====
section
/-! SUPPORT. The buffers: a read after a write, and the canonical form that every write keeps. -/

namespace Sys2Proof.Machine

theorem memRead_of_lt {m : Memory} {a : Nat} (h : ∀ e ∈ m, a < e.1) : memRead m a = unlistedByte := by
  induction m with
  | nil => rfl
  | cons e m ih =>
    have he := h e (by simp)
    simp only [memRead]
    rw [if_neg (by omega)]
    exact ih fun x hx => h x (by simp [hx])

theorem mem_memWrite {m : Memory} {a : Nat} {v : Byte} {e : Host.Cell} (h : e ∈ memWrite m a v) :
    e ∈ m ∨ (e = (a, v) ∧ v ≠ unlistedByte) := by
  induction m with
  | nil =>
    simp only [memWrite] at h
    split at h <;> simp_all
  | cons c m ih =>
    simp only [memWrite] at h
    split at h
    · split at h <;> simp_all
      tauto
    · split at h
      · split at h
        · exact .inl (by simp [h])
        · rcases List.mem_cons.mp h with h | h
          · exact .inr ⟨h, ‹_›⟩
          · exact .inl (by simp [h])
      · rcases List.mem_cons.mp h with h | h
        · exact .inl (by simp [h])
        · rcases ih h with h | h
          · exact .inl (by simp [h])
          · exact .inr h

/-- Every write keeps the canonical form. -/
theorem memWrite_wf {m : Memory} (h : m.wf) (a : Nat) (v : Byte) : (memWrite m a v).wf := by
  refine ⟨?_, fun e he => ?_⟩
  · obtain ⟨hs, -⟩ := h
    induction m with
    | nil => simp only [memWrite]; split <;> simp
    | cons c m ih =>
      rw [List.pairwise_cons] at hs
      simp only [memWrite]
      split
      · split
        · exact List.pairwise_cons.mpr hs
        · refine List.pairwise_cons.mpr ⟨fun x hx => ?_, List.pairwise_cons.mpr hs⟩
          rcases List.mem_cons.mp hx with rfl | hx
          · assumption
          · exact Nat.lt_trans ‹_› (hs.1 x hx)
      · split
        · subst a
          split
          · exact hs.2
          · exact List.pairwise_cons.mpr hs
        · refine List.pairwise_cons.mpr ⟨fun x hx => ?_, ih hs.2⟩
          rcases mem_memWrite hx with hx | ⟨rfl, -⟩
          · exact hs.1 x hx
          · show c.1 < a
            omega
  · rcases mem_memWrite he with he | ⟨rfl, hv⟩
    · exact h.2 e he
    · exact hv

/-- A write below `cap` keeps a buffer of `cap` bytes well formed. -/
theorem bufferWf_memWrite {cap a : Nat} {m : Memory} (h : bufferWf cap m) (ha : a < cap) (v : Byte) :
    bufferWf cap (memWrite m a v) := by
  refine ⟨memWrite_wf h.1 a v, fun e he => ?_⟩
  rcases mem_memWrite he with he | ⟨rfl, -⟩
  · exact h.2 e he
  · exact ha

/-- A read where the write was gives the value written. -/
theorem memRead_memWrite_self {m : Memory} (h : m.wf) (a : Nat) (v : Byte) : memRead (memWrite m a v) a = v := by
  obtain ⟨hs, -⟩ := h
  induction m with
  | nil => simp only [memWrite]; split <;> simp_all [memRead]
  | cons c m ih =>
    rw [List.pairwise_cons] at hs
    simp only [memWrite]
    split
    · split
      · subst v
        refine memRead_of_lt fun e he => ?_
        rcases List.mem_cons.mp he with rfl | he
        · assumption
        · exact Nat.lt_trans ‹_› (hs.1 e he)
      · simp [memRead]
    · split
      · subst a
        split
        · subst v
          exact memRead_of_lt hs.1
        · simp [memRead]
      · simp only [memRead]
        rw [if_neg ‹_›]
        exact ih hs.2

/-- A write leaves every other index alone. -/
theorem memRead_memWrite_other {m : Memory} {a i : Nat} (hne : i ≠ a) (v : Byte) :
    memRead (memWrite m a v) i = memRead m i := by
  induction m with
  | nil => simp only [memWrite]; split <;> simp [memRead, hne]
  | cons c m ih =>
    simp only [memWrite]
    split
    · split
      · rfl
      · simp [memRead, hne]
    · split
      · subst a
        split
        · simp [memRead, hne]
        · simp [memRead, hne]
      · simp only [memRead, ih]

theorem memRead_memWrite {m : Memory} (h : m.wf) (a i : Nat) (v : Byte) :
    memRead (memWrite m a v) i = if i = a then v else memRead m i := by
  split
  · subst i; exact memRead_memWrite_self h a v
  · exact memRead_memWrite_other ‹_› v

/-- Two canonical buffers that read alike are the same data. -/
theorem memory_ext {m n : Memory} (hm : m.wf) (hn : n.wf) (h : ∀ a, memRead m a = memRead n a) : m = n := by
  induction m generalizing n with
  | nil =>
    cases n with
    | nil => rfl
    | cons d n =>
      have := h d.1
      simp only [memRead, if_true] at this
      exact absurd this.symm (hn.2 d (by simp))
  | cons c m ih =>
    cases n with
    | nil =>
      have := h c.1
      simp only [memRead, if_true] at this
      exact absurd this (hm.2 c (by simp))
    | cons d n =>
      have hm1 := List.pairwise_cons.mp hm.1
      have hn1 := List.pairwise_cons.mp hn.1
      have hc := h c.1
      have hd := h d.1
      simp only [memRead, if_true] at hc hd
      have hkey : c.1 = d.1 := by
        rcases Nat.lt_trichotomy c.1 d.1 with hlt | heq | hgt
        · rw [if_neg (by omega), memRead_of_lt fun e he => Nat.lt_trans hlt (hn1.1 e he)] at hc
          exact absurd hc (hm.2 c (by simp))
        · exact heq
        · rw [if_neg (by omega), memRead_of_lt fun e he => Nat.lt_trans hgt (hm1.1 e he)] at hd
          exact absurd hd.symm (hn.2 d (by simp))
      rw [if_pos hkey] at hc
      have hcd : c = d := Prod.ext hkey hc
      subst hcd
      congr 1
      refine ih ⟨hm1.2, fun e he => hm.2 e (by simp [he])⟩ ⟨hn1.2, fun e he => hn.2 e (by simp [he])⟩ fun a => ?_
      have ha := h a
      simp only [memRead] at ha
      by_cases hac : a = c.1
      · rw [memRead_of_lt (hac ▸ hm1.1), memRead_of_lt (hac ▸ hn1.1)]
      · simpa [if_neg hac] using ha

/-- The buffers after setup are canonical. -/
theorem reset_buffers_wf : Memory.wf State.reset.chan.tx.buf ∧ Memory.wf State.reset.chan.ring.buf := by
  decide

end Sys2Proof.Machine
end

