-- ==== Sys2Proof/Laws/Line.lean ====
section
/-! SUPPORT. The line: what each transport call can do, when it completes, and that a sample once driven stays what it
is. -/

namespace Sys2Proof.Machine

/-! ### Samples -/

/-- The sample of a byte already driven does not change with what is driven later. -/
theorem sampleAt_stable {l l' : Line} {k : Nat} (hs : l'.samples = l.samples) (hd : l.drive <+: l'.drive)
    (hk : k < l.drive.length) : sampleAt l' k = sampleAt l k := by
  obtain ⟨t, ht⟩ := hd
  unfold sampleAt
  rw [hs, ← ht, List.take_append_of_le_length (by omega)]

/-- A sample of the physical stream is that of the line once its byte is driven. -/
theorem sample_eq_sampleAt {c : Channel} {k : Nat} (hk : k < c.line.drive.length) :
    c.sample k = sampleAt c.line k := by
  unfold Channel.sample sampleAt Channel.stream
  cases c.line.samples[k]? with
  | some v => rfl
  | none => exact congrArg (Config.freeSample · k) (List.take_append_of_le_length (by omega))

/-- The samples of a stream that only grew are the same. -/
theorem sample_stable {c c' : Channel} {k : Nat} (hs : c'.line.samples = c.line.samples)
    (hd : c.stream <+: c'.stream) (hk : k < c.stream.length) : c'.sample k = c.sample k := by
  obtain ⟨t, ht⟩ := hd
  unfold Channel.sample
  rw [hs, ← ht, List.take_append_of_le_length (by omega)]

@[simp] theorem nextSamples_length (l : Line) (n : Nat) : (nextSamples l n).length = n := by
  simp [nextSamples]

theorem nextSamples_getElem (l : Line) (n i : Nat) (h : i < (nextSamples l n).length) :
    (nextSamples l n)[i] = sampleAt l (l.taken + i) := by
  simp [nextSamples]

/-! ### Transport calls -/

/-- Reads deliver and writes are whole: all that the channel's inner work asks of the outside. -/
def Line.flows (l : Line) : Prop := (∀ r ∈ l.reads, r.delivers = true) ∧ ∀ w ∈ l.writes, w.whole = true

theorem Line.healthy.flows {l : Line} (h : l.healthy) : l.flows := ⟨h.1, h.2.1⟩

/-- The answers to reads that are left after one: a transport that never delivers again stays so. -/
def readsLeft : List ReadReply → List ReadReply
  | .starved :: rs => .starved :: rs
  | .got _ :: rs => rs
  | .failed :: rs => rs
  | [] => []

theorem readsLeft_suffix (rs : List ReadReply) : readsLeft rs <:+ rs := by
  unfold readsLeft
  split
  · exact List.suffix_refl _
  · exact List.suffix_cons _ _
  · exact List.suffix_cons _ _
  · exact List.suffix_refl _

/-- Where every answer delivers, each read takes one. -/
theorem readsLeft_length {rs : List ReadReply} (h : ∀ r ∈ rs, r.delivers = true) : (readsLeft rs).length = rs.length - 1 := by
  unfold readsLeft
  split
  · exact absurd (h .starved (by simp)) (by simp [ReadReply.delivers])
  · simp
  · simp
  · rfl

/-- All that a read can do. -/
theorem transportRead_next {l : Line} {m : Nat} {p : Line × List Byte} (h : transportRead l m = .next p) :
    ∃ k, k ≤ m ∧ (l.reads = [] → k = m) ∧
      p = ({ l with taken := l.taken + k, reads := readsLeft l.reads }, nextSamples l k) := by
  unfold transportRead at h
  split at h
  · rename_i hr
    cases h
    exact ⟨m, Nat.le_refl m, fun _ => rfl, by simp [hr, readsLeft]⟩
  · rename_i n rest hr
    cases h
    exact ⟨min n m, Nat.min_le_right n m, fun h => by simp [h] at hr, by simp [hr, readsLeft]⟩
  · cases h
  · rename_i rest hr
    cases h
    have : readsLeft l.reads = l.reads := by rw [hr, readsLeft]
    exact ⟨0, Nat.zero_le _, fun h => by simp [h] at hr, by rw [this]; rfl⟩

/-- A transport that never delivers again gives nothing and stays so (R138). -/
theorem transportRead_starved {l : Line} {rest : List ReadReply} (h : l.reads = .starved :: rest) (m : Nat) :
    transportRead l m = .next (l, []) := by
  unfold transportRead
  rw [h]

theorem transportRead_completes {l : Line} (hl : l.flows) (m : Nat) : ∃ p, transportRead l m = .next p := by
  unfold transportRead
  split
  · exact ⟨_, rfl⟩
  · exact ⟨_, rfl⟩
  · rename_i rest hr
    exact absurd (hl.1 .failed (by simp [hr])) (by simp [ReadReply.delivers])
  · exact ⟨_, rfl⟩

/-- All that a write can do. -/
theorem transportWrite_next {l l' : Line} {bs : List Byte} (h : transportWrite l bs = .next l') :
    l' = { l with drive := l.drive ++ bs, writes := l.writes.tail } := by
  unfold transportWrite at h
  split at h
  · rename_i hw
    cases h
    simp [hw]
  · rename_i n rest hw
    split at h
    · cases h
    · cases h
      simp [hw]
  · cases h

/-- A write to a transport whose answers are all whole is taken. -/
theorem transportWrite_whole {l : Line} (hl : ∀ w ∈ l.writes, w.whole = true) {bs : List Byte}
    (hb : bs.length ≤ Config.fifoChunk) : ∃ l', transportWrite l bs = .next l' := by
  unfold transportWrite
  split
  · exact ⟨_, rfl⟩
  · rename_i n rest hw
    have := hl (.took n) (by simp [hw])
    simp only [WriteReply.whole, decide_eq_true_eq] at this
    rw [if_neg (by omega)]
    exact ⟨_, rfl⟩
  · rename_i rest hw
    have := hl .failed (by simp [hw])
    simp [WriteReply.whole] at this

/-- All that a read of the pins can do. -/
theorem readPins_next {l : Line} {p : Line × Byte} (h : readPins l = .next p) :
    p.1 = { l with pinReads := l.pinReads + 1, pins := l.pins.tail } ∧
      (l.pins = [] → p.2 = Config.freePins l.drive l.pinReads) ∧
      ∀ v rest, l.pins = .lines v :: rest → p.2 = v := by
  unfold readPins at h
  split at h
  · rename_i hp
    cases h
    simp [hp]
  · rename_i v rest hp
    cases h
    simp [hp]
  · cases h

theorem readPins_completes {l : Line} (hl : l.healthy) : ∃ p, readPins l = .next p := by
  unfold readPins
  split
  · exact ⟨_, rfl⟩
  · exact ⟨_, rfl⟩
  · rename_i rest hp
    exact absurd rfl (hl.2.2.1 .failed (by simp [hp]))

/-- All that a change of the bit mode can do. -/
theorem changeMode_next {l l' : Line} (h : changeMode l = .next l') : l' = { l with modes := l.modes.tail } := by
  unfold changeMode at h
  split at h
  · rename_i hm
    cases h
    rw [hm, List.tail_nil, ← hm]
  · rename_i rest hm
    cases h
    simp [hm]
  · cases h

theorem changeMode_completes {l : Line} (hl : l.healthy) :
    changeMode l = .next { l with modes := l.modes.tail } := by
  unfold changeMode
  split
  · rename_i hm
    rw [hm, List.tail_nil, ← hm]
  · rename_i rest hm
    simp [hm]
  · rename_i rest hm
    exact absurd rfl (hl.2.2.2 .failed (by simp [hm]))

/-- All that the transport's calls of `open` can do. -/
theorem bringUp_next {l l' : Line} (h : bringUp l = .next l') : l' = { l with modes := l.modes.drop 4 } := by
  unfold bringUp at h
  obtain ⟨l1, h1, h⟩ := andThen_eq_next h
  obtain ⟨l2, h2, h⟩ := andThen_eq_next h
  obtain ⟨l3, h3, h⟩ := andThen_eq_next h
  obtain rfl := changeMode_next h1
  obtain rfl := changeMode_next h2
  obtain rfl := changeMode_next h3
  obtain rfl := changeMode_next h
  simp only [← List.drop_one, List.drop_drop]

/-- They are accepted where no answer they take is an error, and fail with the drive stream as it was otherwise. -/
theorem bringUp_cases (l : Line) :
    ((∀ m ∈ l.modes.take 4, m ≠ .failed) → bringUp l = .next { l with modes := l.modes.drop 4 }) ∧
    (.failed ∈ l.modes.take 4 → ∃ l' : Line, bringUp l = .fault (.channel .transport l') ∧ l'.drive = l.drive) := by
  obtain ⟨drive, taken, samples, reads, writes, pins, modes, pinReads, drains⟩ := l
  rcases modes with _ | ⟨_ | _, _ | ⟨_ | _, _ | ⟨_ | _, _ | ⟨_ | _, ms⟩⟩⟩⟩ <;> simp [bringUp, changeMode, andThen]

/-- An outside whose queued answers are among those of one that does not fail does not fail. -/
theorem healthy_of_suffix {l l' : Line} (hl : l.healthy) (hr : l'.reads <:+ l.reads) (hw : l'.writes <:+ l.writes)
    (hp : l'.pins <:+ l.pins) (hm : l'.modes <:+ l.modes) : l'.healthy :=
  ⟨fun r h => hl.1 r (hr.mem h), fun w h => hl.2.1 w (hw.mem h), fun p h => hl.2.2.1 p (hp.mem h),
    fun m h => hl.2.2.2 m (hm.mem h)⟩

end Sys2Proof.Machine
end

