-- ==== Sys2Proof/Laws/Ring.lean ====
section
/-! SUPPORT. The receive ring: what pushing bytes does to it, that its indices stay in step, and when it completes. -/

namespace Sys2Proof.Machine

theorem mod_ne_of_lt {n a b : Nat} (h : a < b) (hb : b - a < n) : a % n ≠ b % n := by
  intro e
  have hd : n ∣ b - a := (Nat.modEq_iff_dvd' (Nat.le_of_lt h)).mp e
  have := Nat.le_of_dvd (by omega) hd
  omega

/-- The ring's part of the channel's invariant. -/
def RxRing.wf (r : RxRing) : Prop :=
  bufferWf Config.rxCapacity r.buf ∧ r.len ≤ Config.rxCapacity ∧ r.rd < Config.rxCapacity ∧
  r.wr = (r.rd + r.len) % Config.rxCapacity

theorem RxRing.wf.wr_lt {r : RxRing} (h : r.wf) : r.wr < Config.rxCapacity := by
  rw [h.2.2.2]
  exact Nat.mod_lt _ (by decide)

/-- All that a push can do. -/
theorem ringPush_next {r r' : RxRing} {b : Byte} (h : ringPush r b = .next r') :
    r.len < Config.rxCapacity ∧
      r' = { r with buf := memWrite r.buf r.wr b, wr := (r.wr + 1) % Config.rxCapacity, len := r.len + 1 } := by
  unfold ringPush at h
  split at h
  · cases h
  · split at h
    · cases h
    · cases h
      exact ⟨by omega, rfl⟩

theorem ringPush_wf {r r' : RxRing} {b : Byte} (hr : r.wf) (h : ringPush r b = .next r') : r'.wf := by
  obtain ⟨hl, rfl⟩ := ringPush_next h
  refine ⟨bufferWf_memWrite hr.1 hr.wr_lt b, hl, hr.2.2.1, ?_⟩
  show (r.wr + 1) % Config.rxCapacity = (r.rd + (r.len + 1)) % Config.rxCapacity
  rw [hr.2.2.2, Nat.mod_add_mod, Nat.add_assoc]

/-- All that pushing bytes can do. -/
theorem ringPushAll_next {r r' : RxRing} {bs : List Byte} (hr : r.wf) (h : ringPushAll r bs = .next r') :
    r'.wf ∧ r'.len = r.len + bs.length ∧ r'.rd = r.rd ∧
    (∀ a, (∀ j, j < bs.length → a ≠ (r.wr + j) % Config.rxCapacity) → memRead r'.buf a = memRead r.buf a) ∧
    ∀ j (hj : j < bs.length), memRead r'.buf ((r.wr + j) % Config.rxCapacity) = bs[j] := by
  induction bs generalizing r with
  | nil =>
    cases h
    exact ⟨hr, rfl, rfl, fun _ _ => rfl, fun j hj => absurd hj (by simp)⟩
  | cons b bs ih =>
    obtain ⟨r1, h1, h2⟩ := andThen_eq_next h
    have hr1 := ringPush_wf hr h1
    obtain ⟨hlen, he⟩ := ringPush_next h1
    obtain ⟨hw', hl', hrd', hk', hv'⟩ := ih hr1 h2
    have hwr : r1.wr = (r.wr + 1) % Config.rxCapacity := by rw [he]
    have hl1 : r1.len = r.len + 1 := by rw [he]
    have hbuf : r1.buf = memWrite r.buf r.wr b := by rw [he]
    have haddr : ∀ j, (r1.wr + j) % Config.rxCapacity = (r.wr + (j + 1)) % Config.rxCapacity := fun j => by
      rw [hwr, Nat.mod_add_mod, Nat.add_assoc, Nat.add_comm 1 j]
    have hwrlt := hr.wr_lt
    refine ⟨hw', by simp only [List.length_cons]; omega, by rw [hrd', he], fun a ha => ?_, fun j hj => ?_⟩
    · rw [hk' a fun j hj => haddr j ▸ ha (j + 1) (by simpa using hj), hbuf]
      refine memRead_memWrite_other ?_ b
      have := ha 0 (by simp)
      rwa [Nat.add_zero, Nat.mod_eq_of_lt hwrlt] at this
    · cases j with
      | zero =>
        rw [Nat.add_zero, Nat.mod_eq_of_lt hwrlt, hk', hbuf, memRead_memWrite_self hr.1.1]
        · rfl
        · intro j hj
          rw [haddr]
          have hcap : r'.len ≤ Config.rxCapacity := hw'.2.1
          have := mod_ne_of_lt (n := Config.rxCapacity) (a := r.wr) (b := r.wr + (j + 1)) (by omega) (by omega)
          rwa [Nat.mod_eq_of_lt hwrlt] at this
      | succ j =>
        rw [← haddr, hv' j (by simpa using hj)]
        rfl

theorem ringPush_completes {r : RxRing} (hr : r.wf) (b : Byte) (hl : r.len < Config.rxCapacity) :
    ∃ r', ringPush r b = .next r' := by
  unfold ringPush
  have := hr.wr_lt
  rw [if_neg (by omega), if_neg (by omega)]
  exact ⟨_, rfl⟩

theorem ringPushAll_completes {r : RxRing} (hr : r.wf) {bs : List Byte} (hl : r.len + bs.length ≤ Config.rxCapacity) :
    ∃ r', ringPushAll r bs = .next r' := by
  induction bs generalizing r with
  | nil => exact ⟨r, rfl⟩
  | cons b bs ih =>
    simp only [List.length_cons] at hl
    obtain ⟨r1, h1⟩ := ringPush_completes hr b (by omega)
    have hr1 := ringPush_wf hr h1
    obtain ⟨-, he⟩ := ringPush_next h1
    have hl1 : r1.len = r.len + 1 := by rw [he]
    obtain ⟨r2, h2⟩ := ih hr1 (by omega)
    exact ⟨r2, by rw [ringPushAll, h1]; exact h2⟩

/-- More bytes than the ring has room for refuse the run, wherever in the batch it fills (R59). -/
theorem ringPushAll_full {r : RxRing} (hr : r.wf) {bs : List Byte} (hl : Config.rxCapacity < r.len + bs.length) :
    ringPushAll r bs = .refused .ringFull := by
  induction bs generalizing r with
  | nil => exact absurd hr.2.1 (by simpa using hl)
  | cons b bs ih =>
    simp only [List.length_cons] at hl
    rw [ringPushAll]
    rcases Nat.lt_or_ge r.len Config.rxCapacity with h | h
    · obtain ⟨r1, h1⟩ := ringPush_completes hr b h
      obtain ⟨-, he⟩ := ringPush_next h1
      rw [h1, andThen_next, ih (ringPush_wf hr h1) (by rw [he]; simp only; omega)]
    · rw [ringPush, if_pos h, andThen_refused]

end Sys2Proof.Machine
end

