-- ==== Sys2Proof/Laws/Worked.lean ====
section
/-! SUPPORT. What the channel's inner work does, said once: `Worked c c' ws n` holds when `c'` comes from `c` by reads, by
writing the bytes `ws` to the chip and by taking `n` bytes from the ring. `fill`, the flush loop and `takeByte` are
shown to do only that. -/

namespace Sys2Proof.Machine

/-- The part of the channel's invariant that every inner step keeps. -/
structure Channel.core (c : Channel) : Prop where
  tx      : bufferWf Config.fifoChunk c.tx.buf
  ring    : c.ring.wf
  pending : c.pending ≤ Config.fifoChunk
  balance : c.pending + c.line.taken = c.line.drive.length
  held    : c.ring.len ≤ c.line.taken

theorem Channel.wf.core {c : Channel} (h : c.wf) : c.core :=
  ⟨h.1, ⟨h.2.1, h.2.2.2.1, h.2.2.2.2.1, h.2.2.2.2.2.1⟩, h.2.2.2.2.2.2.1, h.2.2.2.2.2.2.2.1, h.2.2.2.2.2.2.2.2.1⟩

/-- The channel's invariant is its inner part and the bounds on `tx.len` and the debts. -/
theorem Channel.core.wf {c : Channel} (h : c.core) (ht : c.tx.len < Config.fifoChunk) (hd : c.debtsWf) : c.wf :=
  ⟨h.tx, h.ring.1, ht, h.ring.2.1, h.ring.2.2.1, h.ring.2.2.2, h.pending, h.balance, h.held, hd⟩

/-- The inner invariant does not look at the debts. -/
theorem Channel.core.setDebts {c : Channel} (h : c.core) (d : Nat) (e : List Nat) (a : List Byte) :
    Channel.core { c with discard := d, echoes := e, aside := a } :=
  ⟨h.tx, h.ring, h.pending, h.balance, h.held⟩

/-- How far the drive stream is ahead of what was handed out. -/
theorem Channel.core.inFlight {c : Channel} (h : c.core) : c.handed + c.ring.len + c.pending = c.line.drive.length := by
  have := h.balance
  have := h.held
  unfold Channel.handed
  omega

/-- What reads, writes of `ws` and the taking of `n` bytes do to a channel. -/
structure Worked (c c' : Channel) (ws : List Byte) (n : Nat) : Prop where
  core     : c'.core
  tx       : c'.tx = c.tx
  drive    : c'.line.drive = c.line.drive ++ ws
  taken    : c.line.taken ≤ c'.line.taken
  handed   : c'.handed = c.handed + n
  rd       : c'.ring.rd = (c.ring.rd + n) % Config.rxCapacity
  wr       : c'.ring.wr = (c.ring.wr + (c'.line.taken - c.line.taken)) % Config.rxCapacity
  kept     : ∀ a, (∀ j, j < c'.line.taken - c.line.taken → a ≠ (c.ring.wr + j) % Config.rxCapacity) →
               memRead c'.ring.buf a = memRead c.ring.buf a
  order    : c.inOrder → c'.inOrder
  samples  : c'.line.samples = c.line.samples
  reads    : c'.line.reads <:+ c.line.reads
  writes   : c'.line.writes <:+ c.line.writes
  pins     : c'.line.pins = c.line.pins
  modes    : c'.line.modes = c.line.modes
  pinReads : c'.line.pinReads = c.line.pinReads
  drains   : c'.line.drains = c.line.drains

theorem Worked.refl {c : Channel} (h : c.core) : Worked c c [] 0 where
  core := h
  tx := rfl
  drive := by simp
  taken := Nat.le_refl _
  handed := rfl
  rd := by rw [Nat.add_zero, Nat.mod_eq_of_lt h.ring.2.2.1]
  wr := by rw [Nat.sub_self, Nat.add_zero, Nat.mod_eq_of_lt h.ring.wr_lt]
  kept := fun _ _ => rfl
  order := id
  samples := rfl
  reads := List.suffix_refl _
  writes := List.suffix_refl _
  pins := rfl
  modes := rfl
  pinReads := rfl
  drains := rfl

theorem Worked.trans {a b c : Channel} {xs ys : List Byte} {n m : Nat} (h1 : Worked a b xs n) (h2 : Worked b c ys m) :
    Worked a c (xs ++ ys) (n + m) where
  core := h2.core
  tx := h2.tx.trans h1.tx
  drive := by rw [h2.drive, h1.drive, List.append_assoc]
  taken := Nat.le_trans h1.taken h2.taken
  handed := by rw [h2.handed, h1.handed, Nat.add_assoc]
  rd := by rw [h2.rd, h1.rd, Nat.mod_add_mod, Nat.add_assoc]
  wr := by
    have := h1.taken
    have := h2.taken
    rw [h2.wr, h1.wr, Nat.mod_add_mod]
    congr 1
    omega
  kept := fun x hx => by
    have h1t := h1.taken
    have h2t := h2.taken
    rw [h2.kept x, h1.kept x fun j hj => hx j (by omega)]
    intro j hj
    rw [h1.wr, Nat.mod_add_mod]
    have := hx (b.line.taken - a.line.taken + j) (by omega)
    rwa [← Nat.add_assoc] at this
  order := h2.order ∘ h1.order
  samples := h2.samples.trans h1.samples
  reads := h2.reads.trans h1.reads
  writes := h2.writes.trans h1.writes
  pins := h2.pins.trans h1.pins
  modes := h2.modes.trans h1.modes
  pinReads := h2.pinReads.trans h1.pinReads
  drains := h2.drains.trans h1.drains

theorem Worked.flows {c c' : Channel} {ws : List Byte} {n : Nat} (h : Worked c c' ws n) (hl : c.line.flows) : c'.line.flows :=
  ⟨fun r hr => hl.1 r (h.reads.mem hr), fun w hw => hl.2 w (h.writes.mem hw)⟩

/-- What is in flight after the work: what was, and the bytes written, less the bytes taken. -/
theorem Worked.inFlight {c c' : Channel} {ws : List Byte} {n : Nat} (h : Worked c c' ws n) (hc : c.core) :
    c'.ring.len + c'.pending + n = c.ring.len + c.pending + ws.length := by
  have h1 := h.core.inFlight
  have h2 := hc.inFlight
  have h3 := congrArg List.length h.drive
  simp only [List.length_append] at h3
  have := h.handed
  omega

/-- The work does not look at the debts. -/
theorem Worked.setDebts {c c' : Channel} {ws : List Byte} {n : Nat} (h : Worked c c' ws n) (d : Nat) (e : List Nat)
    (a : List Byte) : Worked c { c' with discard := d, echoes := e, aside := a } ws n where
  core := h.core.setDebts d e a
  tx := h.tx
  drive := h.drive
  taken := h.taken
  handed := h.handed
  rd := h.rd
  wr := h.wr
  kept := h.kept
  order := h.order
  samples := h.samples
  reads := h.reads
  writes := h.writes
  pins := h.pins
  modes := h.modes
  pinReads := h.pinReads
  drains := h.drains

theorem Worked.fromDebts {c c' : Channel} {ws : List Byte} {n d : Nat} {e : List Nat} {a : List Byte}
    (h : Worked { c with discard := d, echoes := e, aside := a } c' ws n) : Worked c c' ws n where
  core := h.core
  tx := h.tx
  drive := h.drive
  taken := h.taken
  handed := h.handed
  rd := h.rd
  wr := h.wr
  kept := h.kept
  order := h.order
  samples := h.samples
  reads := h.reads
  writes := h.writes
  pins := h.pins
  modes := h.modes
  pinReads := h.pinReads
  drains := h.drains

/-! ### Fill (R41) -/

/-- All that `Fill()` can do: some of the outstanding samples go to the ring, all of them when no answer is queued. -/
theorem fill_next {c : Channel} {p : Channel × Nat} (hc : c.core) (h : fill c = .next p) :
    Worked c p.1 [] 0 ∧ p.1.debts = c.debts ∧ p.2 ≤ c.pending ∧
    p.1.pending = c.pending - p.2 ∧ p.1.ring.len = c.ring.len + p.2 ∧ p.1.line.taken = c.line.taken + p.2 ∧
    p.1.line.reads = readsLeft c.line.reads ∧ (c.line.reads = [] → p.2 = c.pending) := by
  obtain ⟨q, hq, h⟩ := andThen_eq_next h
  obtain ⟨k, hk, hall, rfl⟩ := transportRead_next hq
  obtain ⟨r, hr, h⟩ := andThen_eq_next h
  obtain ⟨hrw, hlen, hrd, hkept, hval⟩ := ringPushAll_next hc.ring hr
  cases h
  simp only [nextSamples_length] at hlen hkept hval ⊢
  have hb := hc.balance
  have hh := hc.held
  have hcap : c.ring.len + k ≤ Config.rxCapacity := hlen ▸ hrw.2.1
  refine ⟨?_, rfl, hk, trivial, hlen, trivial, trivial, hall⟩
  exact
    { core := ⟨hc.tx, hrw, by
          have := hc.pending
          show c.pending - k ≤ _
          omega, by
          show c.pending - k + (c.line.taken + k) = c.line.drive.length
          omega, by
          show r.len ≤ c.line.taken + k
          omega⟩
      tx := rfl
      drive := by simp
      taken := Nat.le_add_right _ _
      handed := by
        show c.line.taken + k - r.len = c.line.taken - c.ring.len + 0
        omega
      rd := by
        show r.rd = _
        rw [hrd, Nat.add_zero, Nat.mod_eq_of_lt hc.ring.2.2.1]
      wr := by
        show r.wr = (c.ring.wr + (c.line.taken + k - c.line.taken)) % Config.rxCapacity
        rw [hrw.2.2.2, hlen, hrd, hc.ring.2.2.2, Nat.mod_add_mod, Nat.add_sub_cancel_left, Nat.add_assoc]
      kept := fun a ha => hkept a fun j hj => ha j (by
        show j < c.line.taken + k - c.line.taken
        omega)
      order := fun ho j hj => by
        show memRead r.buf ((r.rd + j) % Config.rxCapacity) = sampleAt _ (c.line.taken + k - r.len + j)
        replace hj : j < r.len := hj
        have hst : ∀ i, i < c.line.drive.length →
            sampleAt { c.line with taken := c.line.taken + k, reads := readsLeft c.line.reads } i = sampleAt c.line i :=
          fun i hi => sampleAt_stable rfl (List.prefix_refl _) hi
        rw [hrd, hst _ (by omega)]
        by_cases hjl : j < c.ring.len
        · rw [hkept]
          · rw [ho j hjl]
            unfold Channel.handed
            congr 1
            omega
          · intro i hi
            rw [hc.ring.2.2.2, Nat.mod_add_mod]
            exact mod_ne_of_lt (by omega) (by omega)
        · have hv := hval (j - c.ring.len) (by omega)
          rw [nextSamples_getElem] at hv
          rw [hc.ring.2.2.2, Nat.mod_add_mod] at hv
          rw [show c.ring.rd + j = c.ring.rd + c.ring.len + (j - c.ring.len) by omega, hv]
          congr 1
          omega
      samples := rfl
      reads := readsLeft_suffix _
      writes := List.suffix_refl _
      pins := rfl
      modes := rfl
      pinReads := rfl
      drains := rfl }

theorem fill_completes {c : Channel} (hc : c.core) (hl : c.line.flows)
    (hr : c.ring.len + c.pending ≤ Config.rxCapacity) : ∃ p, fill c = .next p := by
  obtain ⟨q, hq⟩ := transportRead_completes hl c.pending
  obtain ⟨k, hk, -, rfl⟩ := transportRead_next hq
  obtain ⟨r, hr⟩ := ringPushAll_completes hc.ring (bs := nextSamples c.line k) (by
    simp only [nextSamples_length]
    omega)
  exact ⟨_, by rw [fill, hq, andThen_next, hr, andThen_next]⟩

/-! ### The blocking fill (R42) -/

/-- All that a blocking fill can do. -/
theorem fillUntil_next {done : Channel → Bool} {k : Nat} {c c' : Channel} (hc : c.core)
    (h : fillUntil done k c = .next c') : Worked c c' [] 0 ∧ c'.debts = c.debts ∧ done c' = true := by
  induction k generalizing c with
  | zero =>
    simp only [fillUntil] at h
    split at h
    · cases h
      exact ⟨.refl hc, rfl, ‹_›⟩
    · obtain ⟨p, hp, h⟩ := andThen_eq_next h
      split at h
      · cases h
        have := fill_next hc hp
        exact ⟨this.1, this.2.1, ‹_›⟩
      · cases h
  | succ k ih =>
    simp only [fillUntil] at h
    split at h
    · cases h
      exact ⟨.refl hc, rfl, ‹_›⟩
    · obtain ⟨p, hp, h⟩ := andThen_eq_next h
      have hf := fill_next hc hp
      obtain ⟨hw, hd, hdone⟩ := ih hf.1.core h
      exact ⟨hf.1.trans hw, hd.trans hf.2.1, hdone⟩

/-- A blocking fill completes when its goal holds of every channel that has all its samples in the ring. -/
theorem fillUntil_completes {done : Channel → Bool} {k : Nat} {c : Channel} (hc : c.core) (hl : c.line.flows)
    (hr : c.ring.len + c.pending ≤ Config.rxCapacity) (hk : c.line.reads.length ≤ k)
    (hdone : ∀ c', Worked c c' [] 0 → c'.pending = 0 → done c' = true) : ∃ c', fillUntil done k c = .next c' := by
  induction k generalizing c with
  | zero =>
    simp only [fillUntil]
    split
    · exact ⟨c, rfl⟩
    · obtain ⟨p, hp⟩ := fill_completes hc hl hr
      obtain ⟨hw, -, -, hpend, -, -, -, hall⟩ := fill_next hc hp
      have hnil : c.line.reads = [] := List.length_eq_zero_iff.mp (by omega)
      rw [hp, andThen_next, if_pos (hdone p.1 hw (by rw [hpend, hall hnil, Nat.sub_self]))]
      exact ⟨_, rfl⟩
  | succ k ih =>
    simp only [fillUntil]
    split
    · exact ⟨c, rfl⟩
    · obtain ⟨p, hp⟩ := fill_completes hc hl hr
      obtain ⟨hw, -, hle, hpend, hlen, -, hreads, -⟩ := fill_next hc hp
      rw [hp, andThen_next]
      refine ih hw.core (hw.flows hl) (by omega) ?_ fun c' h' hp' => hdone c' (hw.trans h') hp'
      rw [hreads, readsLeft_length hl.1]
      omega

/-- A blocking fill for a byte that nothing is owed for is stuck (R138). -/
theorem fillUntil_hasByte_stuck {k : Nat} {c : Channel} (hc : c.core) (hl : c.line.flows)
    (hr : c.ring.len = 0) (hp : c.pending = 0) : fillUntil hasByte k c = .fault .stuck := by
  induction k generalizing c with
  | zero =>
    obtain ⟨p, hf⟩ := fill_completes hc hl (by rw [hr, hp]; decide)
    obtain ⟨-, -, hle, -, hlen, -⟩ := fill_next hc hf
    have h1 : hasByte c = false := by simp [hasByte, hr]
    have h2 : hasByte p.1 = false := by simp [hasByte, hlen, hr]; omega
    simp [fillUntil, h1, hf, h2]
  | succ k ih =>
    obtain ⟨p, hf⟩ := fill_completes hc hl (by rw [hr, hp]; decide)
    obtain ⟨hw, -, hle, hpend, hlen, -⟩ := fill_next hc hf
    have h1 : hasByte c = false := by simp [hasByte, hr]
    simp only [fillUntil, h1, hf, andThen_next]
    exact ih hw.core (hw.flows hl) (by omega) (by omega)

/-! ### The flush loop (R40) -/

/-- A write to the chip. -/
theorem write_worked {c : Channel} {l : Line} {bs : List Byte} (hc : c.core)
    (hn : c.pending + bs.length ≤ Config.fifoChunk) (h : transportWrite c.line bs = .next l) :
    Worked c { c with line := l, pending := c.pending + bs.length } bs 0 := by
  obtain rfl := transportWrite_next h
  have hb := hc.balance
  have hh := hc.held
  exact
    { core := ⟨hc.tx, hc.ring, hn, by
        show c.pending + bs.length + c.line.taken = (c.line.drive ++ bs).length
        rw [List.length_append]
        omega, hc.held⟩
      tx := rfl
      drive := rfl
      taken := Nat.le_refl _
      handed := rfl
      rd := by rw [Nat.add_zero, Nat.mod_eq_of_lt hc.ring.2.2.1]
      wr := by
        show c.ring.wr = (c.ring.wr + (c.line.taken - c.line.taken)) % Config.rxCapacity
        rw [Nat.sub_self, Nat.add_zero, Nat.mod_eq_of_lt hc.ring.wr_lt]
      kept := fun _ _ => rfl
      order := fun ho j hj => by
        replace hj : j < c.ring.len := hj
        refine (ho j hj).trans (Eq.symm ?_)
        refine sampleAt_stable rfl (List.prefix_append _ _) ?_
        show c.line.taken - c.ring.len + j < c.line.drive.length
        omega
      samples := rfl
      reads := List.suffix_refl _
      writes := List.tail_suffix _
      pins := rfl
      modes := rfl
      pinReads := rfl
      drains := rfl }

/-- All that the flush loop can do: the bytes go to the chip, in order. -/
theorem flushLoop_next {k : Nat} {c c' : Channel} {bs : List Byte} (hc : c.core) (hk : bs.length ≤ k)
    (h : flushLoop k c bs = .next c') : Worked c c' bs 0 ∧ c'.debts = c.debts := by
  induction k generalizing c bs with
  | zero =>
    obtain rfl : bs = [] := List.length_eq_zero_iff.mp (by omega)
    cases h
    exact ⟨.refl hc, rfl⟩
  | succ k ih =>
    cases bs with
    | nil =>
      cases h
      exact ⟨.refl hc, rfl⟩
    | cons b bs =>
      obtain ⟨c1, h1, h⟩ := andThen_eq_next h
      obtain ⟨l, hl, h⟩ := andThen_eq_next h
      obtain ⟨hw1, hd1, hroom⟩ := fillUntil_next hc h1
      simp only [hasRoom, decide_eq_true_eq] at hroom
      have hlen : ((b :: bs).take (min (Config.fifoChunk - c1.pending) (b :: bs).length)).length
          = min (Config.fifoChunk - c1.pending) (b :: bs).length := by
        rw [List.length_take, Nat.min_eq_left (Nat.min_le_right _ _)]
      have hw2 := write_worked hw1.core (by rw [hlen]; omega) hl
      rw [hlen] at hw2
      obtain ⟨hw3, hd3⟩ := ih hw2.core (by
        rw [List.length_drop]
        simp only [List.length_cons] at hk ⊢
        omega) h
      refine ⟨?_, hd3.trans hd1⟩
      have := (hw1.trans hw2).trans hw3
      rwa [List.nil_append, List.take_append_drop] at this

theorem flushLoop_completes {k : Nat} {c : Channel} {bs : List Byte} (hc : c.core) (hl : c.line.flows)
    (hk : bs.length ≤ k) (hr : c.ring.len + c.pending + bs.length ≤ Config.rxCapacity) :
    ∃ c', flushLoop k c bs = .next c' := by
  induction k generalizing c bs with
  | zero => exact ⟨c, rfl⟩
  | succ k ih =>
    cases bs with
    | nil => exact ⟨c, rfl⟩
    | cons b bs =>
      obtain ⟨c1, h1⟩ := fillUntil_completes (done := hasRoom) hc hl (by omega) (Nat.le_refl _) fun c' _ hp => by
        simp [hasRoom, hp]
      obtain ⟨hw1, -, hroom⟩ := fillUntil_next hc h1
      simp only [hasRoom, decide_eq_true_eq] at hroom
      have hlen : ((b :: bs).take (min (Config.fifoChunk - c1.pending) (b :: bs).length)).length
          = min (Config.fifoChunk - c1.pending) (b :: bs).length := by
        rw [List.length_take, Nat.min_eq_left (Nat.min_le_right _ _)]
      obtain ⟨l, h2⟩ := transportWrite_whole (hw1.flows hl).2
        (bs := (b :: bs).take (min (Config.fifoChunk - c1.pending) (b :: bs).length)) (by rw [hlen]; omega)
      have hw2 := write_worked hw1.core (by rw [hlen]; omega) h2
      rw [hlen] at hw2
      have hf := (hw1.trans hw2).inFlight hc
      obtain ⟨c', h3⟩ := ih hw2.core (hw2.flows (hw1.flows hl))
        (bs := (b :: bs).drop (min (Config.fifoChunk - c1.pending) (b :: bs).length)) (by
          rw [List.length_drop]
          simp only [List.length_cons] at hk ⊢
          omega) (by
          rw [List.nil_append, hlen] at hf
          rw [List.length_drop]
          have := Nat.min_le_right (Config.fifoChunk - c1.pending) (b :: bs).length
          omega)
      refine ⟨c', ?_⟩
      simp only [flushLoop, h1, andThen_next, h2]
      exact h3

/-! ### Taking a byte (R43) -/

/-- All that the take of a byte can do: the oldest sample that was not handed out comes out. -/
theorem takeByte_next {c : Channel} {p : Channel × Byte} (hc : c.core) (ho : c.inOrder) (h : takeByte c = .next p) :
    Worked c p.1 [] 1 ∧ p.1.debts = c.debts ∧ c.handed < c.line.drive.length ∧ p.2 = sampleAt c.line c.handed := by
  obtain ⟨c1, h1, h⟩ := andThen_eq_next h
  obtain ⟨hw, hd, hb⟩ := fillUntil_next hc h1
  simp only [hasByte, decide_eq_true_eq] at hb
  split at h
  · cases h
  · cases h
    have hcore := hw.core
    have hbal := hcore.balance
    have hheld := hcore.held
    have hpos : 0 < c1.ring.len := by omega
    have hdrive : c1.line.drive = c.line.drive := by rw [hw.drive, List.append_nil]
    have hhanded : c1.handed = c.handed := hw.handed
    have hlt : c.handed < c.line.drive.length := by
      rw [← hdrive, ← hhanded]
      unfold Channel.handed
      omega
    refine ⟨?_, hd, hlt, ?_⟩
    · have htake : Worked c1 { c1 with ring := { c1.ring with
          rd := (c1.ring.rd + 1) % Config.rxCapacity, len := c1.ring.len - 1 } } [] 1 :=
        { core := ⟨hcore.tx, ⟨hcore.ring.1, by
              have := hcore.ring.2.1
              show c1.ring.len - 1 ≤ _
              omega, Nat.mod_lt _ (by decide), by
              show c1.ring.wr = ((c1.ring.rd + 1) % Config.rxCapacity + (c1.ring.len - 1)) % Config.rxCapacity
              rw [Nat.mod_add_mod, hcore.ring.2.2.2]
              congr 1
              omega⟩, hcore.pending, hcore.balance, by
              show c1.ring.len - 1 ≤ c1.line.taken
              omega⟩
          tx := rfl
          drive := by simp
          taken := Nat.le_refl _
          handed := by
            show c1.line.taken - (c1.ring.len - 1) = c1.line.taken - c1.ring.len + 1
            omega
          rd := rfl
          wr := by
            show c1.ring.wr = (c1.ring.wr + (c1.line.taken - c1.line.taken)) % Config.rxCapacity
            rw [Nat.sub_self, Nat.add_zero, Nat.mod_eq_of_lt hcore.ring.wr_lt]
          kept := fun _ _ => rfl
          order := fun ho j hj => by
            replace hj : j < c1.ring.len - 1 := hj
            have := ho (j + 1) (by omega)
            show memRead c1.ring.buf (((c1.ring.rd + 1) % Config.rxCapacity + j) % Config.rxCapacity)
              = sampleAt c1.line (c1.line.taken - (c1.ring.len - 1) + j)
            rw [Nat.mod_add_mod, Nat.add_right_comm, Nat.add_assoc, this]
            unfold Channel.handed
            congr 1
            omega
          samples := rfl
          reads := List.suffix_refl _
          writes := List.suffix_refl _
          pins := rfl
          modes := rfl
          pinReads := rfl
          drains := rfl }
      exact hw.trans htake
    · have := hw.order ho 0 hpos
      rw [Nat.add_zero, Nat.mod_eq_of_lt hcore.ring.2.2.1, Nat.add_zero, hhanded] at this
      show memRead c1.ring.buf c1.ring.rd = _
      rw [this]
      exact sampleAt_stable hw.samples (by rw [hdrive]) hlt

theorem takeByte_completes {c : Channel} (hc : c.core) (hl : c.line.flows)
    (hr : c.ring.len + c.pending ≤ Config.rxCapacity) (hpos : 0 < c.ring.len + c.pending) :
    ∃ p, takeByte c = .next p := by
  obtain ⟨c1, h1⟩ := fillUntil_completes (done := hasByte) hc hl hr (Nat.le_refl _) fun c' hw hp => by
    have := hw.inFlight hc
    simp only [List.length_nil] at this
    simp only [hasByte, decide_eq_true_eq]
    omega
  have hw := (fillUntil_next hc h1).1
  have := hw.core.ring.2.2.1
  simp only [takeByte, h1, andThen_next]
  rw [if_neg (by omega)]
  exact ⟨_, rfl⟩

/-- A take when nothing is in flight is stuck (R138). -/
theorem takeByte_stuck {c : Channel} (hc : c.core) (hl : c.line.flows) (hr : c.ring.len = 0) (hp : c.pending = 0) :
    takeByte c = .fault .stuck := by
  simp [takeByte, fillUntil_hasByte_stuck hc hl hr hp]

end Sys2Proof.Machine
end

