-- ==== Sys2Proof/Laws/Channel.lean ====
section
/-! SUPPORT. The channel operations as a whole: what `flush` and `send` can do, said once each, and when they complete
(R39, R40). -/

namespace Sys2Proof.Machine

/-! ### What every operation of the channel keeps -/

/-- The line only goes on, and the ring's bytes change only where received bytes went. -/
structure Passed (c c' : Channel) : Prop where
  drive    : c.line.drive <+: c'.line.drive
  taken    : c.line.taken ≤ c'.line.taken
  wr       : c'.ring.wr = (c.ring.wr + (c'.line.taken - c.line.taken)) % Config.rxCapacity
  kept     : ∀ a, (∀ j, j < c'.line.taken - c.line.taken → a ≠ (c.ring.wr + j) % Config.rxCapacity) →
               memRead c'.ring.buf a = memRead c.ring.buf a
  order    : c.inOrder → c'.inOrder
  samples  : c'.line.samples = c.line.samples
  reads    : c'.line.reads <:+ c.line.reads
  writes   : c'.line.writes <:+ c.line.writes
  pins     : c'.line.pins = c.line.pins
  modes    : c'.line.modes = c.line.modes
  pinReads : c'.line.pinReads = c.line.pinReads
  drains   : c'.line.drains = c.line.drains

theorem Worked.passed {c c' : Channel} {ws : List Byte} {n : Nat} (h : Worked c c' ws n) : Passed c c' where
  drive := h.drive ▸ List.prefix_append _ _
  taken := h.taken
  wr := h.wr
  kept := h.kept
  order := h.order
  samples := h.samples
  reads := h.reads
  writes := h.writes
  pins := h.pins
  modes := h.modes
  pinReads := h.pinReads
  drains := h.drains

theorem Passed.trans {a b c : Channel} (h1 : Passed a b) (h2 : Passed b c) : Passed a c where
  drive := h1.drive.trans h2.drive
  taken := Nat.le_trans h1.taken h2.taken
  wr := by
    have := h1.taken
    have := h2.taken
    rw [h2.wr, h1.wr, Nat.mod_add_mod]
    congr 1
    omega
  kept := fun x hx => by
    have h1t := h1.taken
    have h2t := h2.taken
    rw [h2.kept x, h1.kept x fun j hj => hx j (by omega)]
    intro j hj
    rw [h1.wr, Nat.mod_add_mod]
    have := hx (b.line.taken - a.line.taken + j) (by omega)
    rwa [← Nat.add_assoc] at this
  order := h2.order ∘ h1.order
  samples := h2.samples.trans h1.samples
  reads := h2.reads.trans h1.reads
  writes := h2.writes.trans h1.writes
  pins := h2.pins.trans h1.pins
  modes := h2.modes.trans h1.modes
  pinReads := h2.pinReads.trans h1.pinReads
  drains := h2.drains.trans h1.drains

/-- A change that leaves the ring and the line alone. -/
theorem Passed.of_same {c c' : Channel} (hc : c.core) (hr : c'.ring = c.ring) (hl : c'.line = c.line) : Passed c c' where
  drive := hl ▸ List.prefix_refl _
  taken := hl ▸ Nat.le_refl _
  wr := by rw [hr, hl, Nat.sub_self, Nat.add_zero, Nat.mod_eq_of_lt hc.ring.wr_lt]
  kept := fun _ _ => by rw [hr]
  order := fun h => by
    unfold Channel.inOrder Channel.handed at h ⊢
    rw [hr, hl]
    exact h
  samples := by rw [hl]
  reads := hl ▸ List.suffix_refl _
  writes := hl ▸ List.suffix_refl _
  pins := by rw [hl]
  modes := by rw [hl]
  pinReads := by rw [hl]
  drains := by rw [hl]

theorem Passed.healthy {c c' : Channel} (h : Passed c c') (hl : c.line.healthy) : c'.line.healthy :=
  healthy_of_suffix hl h.reads h.writes (h.pins ▸ List.suffix_refl _) (h.modes ▸ List.suffix_refl _)

theorem Passed.movedTo {c c' : Channel} (h : Passed c c') : c.line.movedTo c'.line :=
  ⟨h.drive, h.taken, h.reads, h.writes, h.samples, h.pins, h.modes, h.pinReads, h.drains⟩

/-! ### Stream and staging -/

@[simp] theorem staged_length (t : TxBuffer) : (staged t).length = t.len := by simp [staged]

theorem staged_clear (t : TxBuffer) : staged { t with len := 0 } = [] := rfl

theorem stream_length (c : Channel) : c.stream.length = c.line.drive.length + c.tx.len := by
  simp [Channel.stream]

/-- What is owed is what the stream is ahead of the bytes handed out. -/
theorem Channel.core.owed_eq {c : Channel} (hc : c.core) : c.handed + c.owed = c.stream.length := by
  have := hc.inFlight
  rw [stream_length]
  unfold Channel.owed
  omega

/-- Staging a byte puts it at the end. -/
theorem staged_push {t : TxBuffer} (h : t.buf.wf) (b : Byte) :
    staged ⟨memWrite t.buf t.len b, t.len + 1⟩ = staged t ++ [b] := by
  unfold staged
  rw [List.range_succ, List.map_append]
  congr 1
  · refine List.map_congr_left fun i hi => memRead_memWrite_other ?_ b
    have := List.mem_range.mp hi
    omega
  · simp [memRead_memWrite_self h]

theorem core_clearTx {c : Channel} (h : c.core) : (clearTx c).core := ⟨h.tx, h.ring, h.pending, h.balance, h.held⟩

theorem passed_clearTx {c : Channel} (h : c.core) : Passed c (clearTx c) := .of_same h rfl rfl

/-! ### flush (R40) -/

/-- All that `Flush()` can do: the staged bytes go to the chip. -/
theorem flush_next {c c' : Channel} (hc : c.core) (h : flush c = .next c') :
    Worked c c' (staged c.tx) 0 ∧ c'.debts = c.debts :=
  flushLoop_next hc (by simp) h

theorem flush_completes {c : Channel} (hc : c.core) (hl : c.line.healthy) (hr : c.room 0) : ∃ c', flush c = .next c' :=
  flushLoop_completes hc hl.flows (by simp) (by unfold Channel.room Channel.owed at hr; rw [staged_length]; omega)

/-- All that `Flush() ; tx.len <- 0` can do. -/
theorem flushAndClear_next {c c' : Channel} (hc : c.core) (h : flushAndClear c = .next c') :
    ∃ c1, Worked c c1 (staged c.tx) 0 ∧ c1.debts = c.debts ∧ c' = clearTx c1 := by
  obtain ⟨c1, h1, h⟩ := andThen_eq_next h
  cases h
  obtain ⟨hw, hd⟩ := flush_next hc h1
  exact ⟨c1, hw, hd, rfl⟩

theorem flushAndClear_completes {c : Channel} (hc : c.core) (hl : c.line.healthy) (hr : c.room 0) :
    ∃ c', flushAndClear c = .next c' := by
  obtain ⟨c1, h1⟩ := flush_completes hc hl hr
  exact ⟨clearTx c1, by rw [flushAndClear, h1]; rfl⟩

/-- What a flush that empties the staging buffer does. -/
structure Flushed (c c' : Channel) : Prop where
  passed  : Passed c c'
  core    : c'.core
  tx      : c'.tx = { c.tx with len := 0 }
  drive   : c'.line.drive = c.stream
  stream  : c'.stream = c.stream
  handed  : c'.handed = c.handed
  debts   : c'.debts = c.debts
  rd      : c'.ring.rd = c.ring.rd

theorem flushAndClear_flushed {c c' : Channel} (hc : c.core) (h : flushAndClear c = .next c') : Flushed c c' := by
  obtain ⟨c1, hw, hd, rfl⟩ := flushAndClear_next hc h
  exact
    { passed := hw.passed.trans (passed_clearTx hw.core)
      core := core_clearTx hw.core
      tx := by
        show ({ c1.tx with len := 0 } : TxBuffer) = _
        rw [hw.tx]
      drive := hw.drive
      stream := by
        show c1.line.drive ++ [] = _
        rw [hw.drive, List.append_nil, Channel.stream]
      handed := hw.handed
      debts := hd
      rd := by
        show c1.ring.rd = _
        rw [hw.rd, Nat.add_zero, Nat.mod_eq_of_lt hc.ring.2.2.1] }

/-- The debts of a channel that has the same, with as much handed out and owed. -/
theorem Channel.debtsWf.congr {c c' : Channel} (h : c.debtsWf) (hd : c'.debts = c.debts) (hh : c'.handed = c.handed)
    (ho : c'.owed = c.owed) : c'.debtsWf := by
  obtain ⟨h1, h2⟩ := Prod.mk.inj hd
  obtain ⟨h2, -⟩ := Prod.mk.inj h2
  unfold Channel.debtsWf
  rw [h1, h2, hh, ho]
  exact h

theorem Channel.wf.debts {c : Channel} (h : c.wf) : c.debtsWf := h.2.2.2.2.2.2.2.2.2

/-- What is owed is what it was where the stream and what was handed out are. -/
theorem owed_congr {c c' : Channel} (hc : c.core) (hc' : c'.core) (hs : c'.stream = c.stream) (hh : c'.handed = c.handed) :
    c'.owed = c.owed := by
  have h1 := hc'.owed_eq
  have h2 := hc.owed_eq
  rw [hs, hh] at h1
  omega

theorem Flushed.owed {c c' : Channel} (h : Flushed c c') (hc : c.core) : c'.owed = c.owed :=
  owed_congr hc h.core h.stream h.handed

theorem Flushed.wf {c c' : Channel} (h : Flushed c c') (hc : c.wf) : c'.wf :=
  h.core.wf (by rw [h.tx]; exact (by decide : 0 < Config.fifoChunk)) (hc.debts.congr h.debts h.handed (h.owed hc.core))

/-! ### send (R39) -/

/-- What sending the physical bytes `bs` does. -/
structure Sent (disc : Bool) (c c' : Channel) (bs : List Byte) : Prop where
  passed  : Passed c c'
  wf      : c'.wf
  stream  : c'.stream = c.stream ++ bs
  handed  : c'.handed = c.handed
  debts   : c'.debts = if disc then c.debtsWith bs.length else c.debts
  txLen   : c'.tx.len = (c.tx.len + bs.length) % Config.fifoChunk
  txKept  : ∀ a, (∀ j, j < bs.length → a ≠ (c.tx.len + j) % Config.fifoChunk) →
              memRead c'.tx.buf a = memRead c.tx.buf a
  rd      : c'.ring.rd = c.ring.rd

theorem Sent.aside {disc : Bool} {c c' : Channel} {bs : List Byte} (h : Sent disc c c' bs) : c'.aside = c.aside := by
  cases disc
  · exact congrArg (fun p => p.2.2) h.debts
  · exact congrArg (fun p => p.2.2) h.debts

theorem Sent.refl {disc : Bool} {c : Channel} (hc : c.wf) : Sent disc c c [] where
  passed := .of_same hc.core rfl rfl
  wf := hc
  stream := by simp
  handed := rfl
  debts := by cases disc <;> rfl
  txLen := by
    have := hc.2.2.1
    rw [List.length_nil, Nat.add_zero, Nat.mod_eq_of_lt this]
  txKept := fun _ _ => rfl
  rd := rfl

/-- The debts after two sends with discard are those after one of both. -/
theorem debtsWith_add {a b : Channel} {xs : List Byte} {k : Nat} (hd : b.debts = a.debtsWith xs.length)
    (hs : b.stream = a.stream ++ xs) : b.debtsWith k = a.debtsWith (xs.length + k) := by
  obtain ⟨h1, h2⟩ := Prod.mk.inj hd
  obtain ⟨h2, h3⟩ := Prod.mk.inj h2
  unfold Channel.debtsWith
  rw [h1, h2, h3, hs, List.length_append, Nat.add_assoc, ← List.append_assoc, ← List.reverse_append, ← List.range'_append_1]

theorem Sent.trans {disc : Bool} {a b c : Channel} {xs ys : List Byte} (h1 : Sent disc a b xs) (h2 : Sent disc b c ys) :
    Sent disc a c (xs ++ ys) where
  passed := h1.passed.trans h2.passed
  wf := h2.wf
  stream := by rw [h2.stream, h1.stream, List.append_assoc]
  handed := h2.handed.trans h1.handed
  debts := by
    have hd := h1.debts
    rw [h2.debts, List.length_append]
    cases disc
    · exact hd
    · exact debtsWith_add hd h1.stream
  txLen := by rw [h2.txLen, h1.txLen, Nat.mod_add_mod, List.length_append, Nat.add_assoc]
  txKept := fun x hx => by
    rw [List.length_append] at hx
    rw [h2.txKept x, h1.txKept x fun j hj => hx j (by omega)]
    intro j hj
    rw [h1.txLen, Nat.mod_add_mod, Nat.add_assoc]
    exact hx _ (by omega)
  rd := h2.rd.trans h1.rd

/-- The channel with one more byte staged. -/
def stagedOne (disc : Bool) (c : Channel) (b : Byte) : Channel :=
  { c with
    tx := { buf := memWrite c.tx.buf c.tx.len b, len := c.tx.len + 1 }
    discard := if disc then c.discard + 1 else c.discard
    echoes := if disc then (c.line.taken + c.pending + c.tx.len) :: c.echoes else c.echoes }

theorem stageByte_eq {disc : Bool} {c : Channel} (hc : c.wf) (b : Byte) :
    stageByte disc c b =
      if c.tx.len + 1 = Config.fifoChunk then flushAndClear (stagedOne disc c b) else .next (stagedOne disc c b) := by
  have := hc.2.2.1
  unfold stageByte
  rw [if_neg (by omega)]
  rfl

theorem stagedOne_core {disc : Bool} {c : Channel} (hc : c.wf) (b : Byte) : (stagedOne disc c b).core :=
  ⟨bufferWf_memWrite hc.1 hc.2.2.1 b, hc.core.ring, hc.core.pending, hc.core.balance, hc.core.held⟩

theorem stagedOne_stream {disc : Bool} {c : Channel} (hc : c.wf) (b : Byte) :
    (stagedOne disc c b).stream = c.stream ++ [b] := by
  show c.line.drive ++ staged ⟨memWrite c.tx.buf c.tx.len b, c.tx.len + 1⟩ = _
  rw [staged_push hc.1.1, Channel.stream, List.append_assoc]

theorem stagedOne_debts {c : Channel} (disc : Bool) (hc : c.wf) (b : Byte) :
    (stagedOne disc c b).debts = if disc then c.debtsWith 1 else c.debts := by
  have h1 : c.line.taken + c.pending + c.tx.len = c.stream.length := by
    have := hc.core.balance
    rw [stream_length]
    omega
  cases disc
  · rfl
  · rw [if_pos rfl, Channel.debtsWith, ← h1]
    rfl

theorem stagedOne_txKept (disc : Bool) (c : Channel) (b : Byte) {a : Nat} (ha : a ≠ c.tx.len) :
    memRead (stagedOne disc c b).tx.buf a = memRead c.tx.buf a :=
  memRead_memWrite_other ha b

theorem stagedOne_owed {disc : Bool} {c : Channel} (b : Byte) :
    (stagedOne disc c b).owed = c.owed + 1 := by
  show c.ring.len + c.pending + (c.tx.len + 1) = _
  unfold Channel.owed
  omega

theorem stagedOne_debtsWf {disc : Bool} {c : Channel} (hc : c.wf) (b : Byte) : (stagedOne disc c b).debtsWf := by
  obtain ⟨h1, h2, h3, h4⟩ := hc.debts
  have ho := stagedOne_owed (disc := disc) (c := c) b
  have hh : (stagedOne disc c b).handed = c.handed := rfl
  cases disc
  · refine ⟨?_, h2, h3, fun e he => ?_⟩
    · show c.discard ≤ _
      omega
    · have := h4 e he
      omega
  · have hbal := hc.core.balance
    have hheld := hc.core.held
    have he0 : c.line.taken + c.pending + c.tx.len = c.handed + c.owed := by
      unfold Channel.handed Channel.owed
      omega
    refine ⟨?_, ?_, ?_, fun e he => ?_⟩
    · show c.discard + 1 ≤ _
      omega
    · show (_ :: c.echoes).length = c.discard + 1
      rw [List.length_cons, h2]
    · show List.Pairwise _ (_ :: c.echoes)
      refine List.pairwise_cons.mpr ⟨fun e he => ?_, h3⟩
      have := h4 e he
      omega
    · rcases List.mem_cons.mp he with rfl | he
      · omega
      · have := h4 e he
        omega

/-- All that staging a byte can do. -/
theorem stageByte_sent {disc : Bool} {c c' : Channel} {b : Byte} (hc : c.wf) (h : stageByte disc c b = .next c') :
    Sent disc c c' [b] := by
  rw [stageByte_eq hc] at h
  have hcore := stagedOne_core (disc := disc) hc b
  have hpass : Passed c (stagedOne disc c b) := .of_same hc.core rfl rfl
  have hlen := hc.2.2.1
  have hdo := stagedOne_debtsWf (disc := disc) hc b
  have hkept : ∀ a, (∀ j, j < [b].length → a ≠ (c.tx.len + j) % Config.fifoChunk) →
      memRead (stagedOne disc c b).tx.buf a = memRead c.tx.buf a := fun a ha => by
    refine stagedOne_txKept disc c b ?_
    have := ha 0 (by simp)
    rwa [Nat.add_zero, Nat.mod_eq_of_lt hlen] at this
  split at h
  · have hf := flushAndClear_flushed hcore h
    exact
      { passed := hpass.trans hf.passed
        wf := hf.core.wf (by rw [hf.tx]; exact (by decide : 0 < Config.fifoChunk)) (hdo.congr hf.debts hf.handed (hf.owed hcore))
        stream := by rw [hf.stream, stagedOne_stream hc]
        handed := hf.handed
        debts := by rw [hf.debts, stagedOne_debts disc hc]; rfl
        txLen := by
          rw [hf.tx]
          show 0 = (c.tx.len + 1) % _
          rw [‹c.tx.len + 1 = _›, Nat.mod_self]
        txKept := fun a ha => by rw [hf.tx]; exact hkept a ha
        rd := hf.rd }
  · cases h
    exact
      { passed := hpass
        wf := hcore.wf (by show c.tx.len + 1 < _; omega) hdo
        stream := stagedOne_stream hc b
        handed := rfl
        debts := stagedOne_debts disc hc b
        txLen := by
          show c.tx.len + 1 = (c.tx.len + 1) % _
          rw [Nat.mod_eq_of_lt (by omega)]
        txKept := hkept
        rd := rfl }

theorem stageByte_completes {disc : Bool} {c : Channel} (hc : c.wf) (hl : c.line.healthy) (hr : c.room 1) (b : Byte) :
    ∃ c', stageByte disc c b = .next c' := by
  rw [stageByte_eq hc]
  split
  · refine flushAndClear_completes (stagedOne_core hc b) hl ?_
    have ho := stagedOne_owed (disc := disc) (c := c) b
    have ha : (stagedOne disc c b).aside = c.aside := rfl
    unfold Channel.room at hr ⊢
    rw [ha]
    omega
  · exact ⟨_, rfl⟩

/-- All that staging bytes can do. -/
theorem stageAll_sent {disc : Bool} {c c' : Channel} {bs : List Byte} (hc : c.wf) (h : stageAll disc c bs = .next c') :
    Sent disc c c' bs := by
  induction bs generalizing c with
  | nil => cases h; exact .refl hc
  | cons b bs ih =>
    obtain ⟨c1, h1, h⟩ := andThen_eq_next h
    have hs := stageByte_sent hc h1
    exact hs.trans (ih hs.wf h)

/-- What is owed after a send: what was, and the bytes sent. -/
theorem Sent.owed {disc : Bool} {c c' : Channel} {bs : List Byte} (h : Sent disc c c' bs) (hc : c.wf) :
    c'.owed = c.owed + bs.length := by
  have h1 := h.wf.core.owed_eq
  have h2 := hc.core.owed_eq
  rw [h.stream, h.handed, List.length_append] at h1
  omega

theorem stageAll_completes {disc : Bool} {c : Channel} {bs : List Byte} (hc : c.wf) (hl : c.line.healthy)
    (hr : c.room bs.length) : ∃ c', stageAll disc c bs = .next c' := by
  induction bs generalizing c with
  | nil => exact ⟨c, rfl⟩
  | cons b bs ih =>
    simp only [List.length_cons, Channel.room] at hr
    obtain ⟨c1, h1⟩ := stageByte_completes (disc := disc) hc hl (by unfold Channel.room; omega) b
    have hs := stageByte_sent hc h1
    have ho := hs.owed hc
    simp only [List.length_cons, List.length_nil] at ho
    obtain ⟨c2, h2⟩ := ih hs.wf (hs.passed.healthy hl) (by unfold Channel.room; rw [hs.aside]; omega)
    exact ⟨c2, by rw [stageAll, h1]; exact h2⟩

@[simp] theorem repeated_length (m : Nat) (bs : List Byte) : (repeated m bs).length = m * bs.length := by
  unfold repeated
  induction bs with
  | nil => rfl
  | cons b bs ih =>
    rw [List.flatMap_cons, List.length_append, ih, List.length_replicate, List.length_cons, Nat.mul_succ, Nat.add_comm]

@[simp] theorem repeated_one (bs : List Byte) : repeated 1 bs = bs := by
  unfold repeated
  induction bs with
  | nil => rfl
  | cons b bs ih => rw [List.flatMap_cons, ih]; rfl

/-- All that `Send` can do. -/
theorem sendBytes_sent {m : Nat} {bs : List Byte} {disc : Bool} {c c' : Channel} (hc : c.wf)
    (h : sendBytes m bs disc c = .next c') : Sent disc c c' (repeated m bs) :=
  stageAll_sent hc h

theorem sendBytes_completes {m : Nat} {bs : List Byte} {disc : Bool} {c : Channel} (hc : c.wf) (hl : c.line.healthy)
    (hr : c.room (m * bs.length)) : ∃ c', sendBytes m bs disc c = .next c' :=
  stageAll_completes hc hl (by rwa [repeated_length])

end Sys2Proof.Machine
end

