-- ==== Sys2Proof/Laws/Pins.lean ====
section
/-! SUPPORT. The laws of `SetBits` and `GetBits` (R91, R92), what a legal PinMap gives (R20), and the shadow register's two
codec fields (R31). -/

namespace Sys2Proof.Machine

/-! ### SetBits and GetBits -/

/-- Every bit of `SetBits`: the line level on the mask, the old bit elsewhere. -/
theorem setBits_getLsbD (v : Byte) (p : PinCfg) (x : Bool) (i : Nat) :
    (setBits v p x).getLsbD i = if p.mask.getLsbD i then x ^^ p.inv else v.getLsbD i := by
  unfold setBits
  by_cases hx : (x ^^ p.inv) = true
  · rw [if_pos hx, hx, BitVec.getLsbD_or]
    cases p.mask.getLsbD i <;> simp
  · rw [if_neg hx, Bool.eq_false_iff.mpr hx, BitVec.getLsbD_and, BitVec.getLsbD_not]
    cases p.mask.getLsbD i
    · by_cases hi : i < 8
      · simp [hi]
      · simp [BitVec.getLsbD_of_ge v i (by omega)]
    · simp

theorem byte_ext {a b : Byte} (h : ∀ i, a.getLsbD i = b.getLsbD i) : a = b :=
  BitVec.eq_of_getLsbD_eq fun i _ => h i

/-- Masks with no common bit, seen at one bit. -/
theorem disjoint_bit {a b : Byte} (h : a &&& b = 0) (i : Nat) : (a.getLsbD i && b.getLsbD i) = false := by
  have := congrArg (fun v => BitVec.getLsbD v i) h
  simpa using this

/-- The last write to a pin is the one that counts. -/
theorem setBits_setBits (v : Byte) (p : PinCfg) (x y : Bool) : setBits (setBits v p x) p y = setBits v p y := by
  refine byte_ext fun i => ?_
  simp only [setBits_getLsbD]
  split <;> rfl

/-- Writes to pins with disjoint masks commute. -/
theorem setBits_comm {p q : PinCfg} (h : p.mask &&& q.mask = 0) (v : Byte) (x y : Bool) :
    setBits (setBits v p x) q y = setBits (setBits v q y) p x := by
  refine byte_ext fun i => ?_
  have := disjoint_bit h i
  simp only [setBits_getLsbD]
  cases hp : p.mask.getLsbD i <;> cases hq : q.mask.getLsbD i <;> simp_all

theorem setBits_noMask {p : PinCfg} (h : p.mask = 0) (v : Byte) (x : Bool) : setBits v p x = v := by
  refine byte_ext fun i => ?_
  simp [setBits_getLsbD, h]

/-- Bits outside the mask pass through. -/
theorem setBits_outside {p : PinCfg} {m : Byte} (h : p.mask &&& m = 0) (v : Byte) (x : Bool) :
    setBits v p x &&& m = v &&& m := by
  refine byte_ext fun i => ?_
  have := disjoint_bit h i
  simp only [BitVec.getLsbD_and, setBits_getLsbD]
  cases hp : p.mask.getLsbD i <;> simp_all

/-- A pin reads back as it was written. -/
theorem getBits_setBits {p : PinCfg} (h : p.mask ≠ 0) (v : Byte) (x : Bool) : getBits (setBits v p x) p = x := by
  have hm : setBits v p x &&& p.mask = if x ^^ p.inv then p.mask else 0 := by
    refine byte_ext fun i => ?_
    simp only [BitVec.getLsbD_and, setBits_getLsbD]
    cases hp : p.mask.getLsbD i <;> cases hx : x ^^ p.inv <;> simp_all
  unfold getBits
  rw [hm]
  cases x <;> cases hi : p.inv <;> simp_all

/-- A read looks at the bits of its mask only. -/
theorem getBits_congr {p : PinCfg} {v w : Byte} (h : v &&& p.mask = w &&& p.mask) : getBits v p = getBits w p := by
  unfold getBits
  rw [h]

/-- A write to another pin does not change what a pin reads. -/
theorem getBits_setBits_other {p q : PinCfg} (h : p.mask &&& q.mask = 0) (v : Byte) (x : Bool) :
    getBits (setBits v p x) q = getBits v q :=
  getBits_congr (setBits_outside h v x)

/-! ### Legal PinMaps (R20) -/

theorem oneBit_cases : ∀ m : Byte, oneBit m = true → ∃ i : Fin 8, m = BitVec.twoPow 8 i := by
  decide

theorem oneBit_ne_zero {m : Byte} (h : oneBit m = true) : m ≠ 0 := by
  simp only [oneBit, decide_eq_true_eq] at h
  exact h.1

theorem oneBit_disjoint {a b : Byte} (ha : oneBit a = true) (hb : oneBit b = true) (h : a ≠ b) : a &&& b = 0 := by
  obtain ⟨i, rfl⟩ := oneBit_cases a ha
  obtain ⟨j, rfl⟩ := oneBit_cases b hb
  have : ∀ i j : Fin 8, BitVec.twoPow 8 i.val ≠ BitVec.twoPow 8 j.val →
      BitVec.twoPow 8 i.val &&& BitVec.twoPow 8 j.val = 0 := by decide
  exact this i j h

/-- What a legal PinMap gives (R20). -/
structure Legal (pm : PinMap) : Prop where
  sckOne    : oneBit pm.sck.mask = true
  sdoOne    : oneBit pm.sdo.mask = true
  sdiOne    : oneBit pm.sdi.mask = true
  sckSdo    : pm.sck.mask &&& pm.sdo.mask = 0
  sckSdi    : pm.sck.mask &&& pm.sdi.mask = 0
  sdoSdi    : pm.sdo.mask &&& pm.sdi.mask = 0
  sdiDdr    : pm.sdi.mask &&& ddrOf pm = 0
  sckOthers : pm.sck.mask &&& neighbourMask pm = 0
  sdoOthers : pm.sdo.mask &&& neighbourMask pm = 0
  sdiOthers : pm.sdi.mask &&& neighbourMask pm = 0

theorem legal_of {pm : PinMap} (h : pinMapLegal pm = true) : Legal pm := by
  simp only [pinMapLegal, Bool.and_eq_true, decide_eq_true_eq] at h
  obtain ⟨⟨⟨⟨⟨⟨⟨⟨⟨⟨⟨h1, h2⟩, h3⟩, h4⟩, h5⟩, h6⟩, h7⟩, -⟩, -⟩, h10⟩, h11⟩, h12⟩ := h
  exact ⟨h1, h2, h3, oneBit_disjoint h1 h2 h4, oneBit_disjoint h1 h3 h5, oneBit_disjoint h2 h3 h6, h7, h10, h11, h12⟩

theorem Legal.sck_ne {pm : PinMap} (h : Legal pm) : pm.sck.mask ≠ 0 := oneBit_ne_zero h.sckOne
theorem Legal.sdo_ne {pm : PinMap} (h : Legal pm) : pm.sdo.mask ≠ 0 := oneBit_ne_zero h.sdoOne
theorem Legal.sdi_ne {pm : PinMap} (h : Legal pm) : pm.sdi.mask ≠ 0 := oneBit_ne_zero h.sdiOne

theorem Legal.sdoSck {pm : PinMap} (h : Legal pm) : pm.sdo.mask &&& pm.sck.mask = 0 := by
  rw [BitVec.and_comm]
  exact h.sckSdo

/-- Every output pin's mask is in the direction register (R15). -/
theorem mask_in_ddr (pm : PinMap) {p : Pin} (h : isOutputPin p = true) :
    (pinCfg pm p).mask &&& ~~~ddrOf pm = 0 := by
  refine byte_ext fun i => ?_
  cases p with
  | sdi => cases h
  | _ =>
    have hz : BitVec.getLsbD (0 : Byte) i = false := by simp
    simp only [pinCfg, ddrOf, BitVec.getLsbD_and, BitVec.getLsbD_not, BitVec.getLsbD_or, hz]
    by_cases hi : i < 8
    · simp only [hi, decide_true, Bool.true_and]
      generalize pm.sck.mask.getLsbD i = a
      generalize pm.sdo.mask.getLsbD i = b
      generalize pm.reset.mask.getLsbD i = c
      generalize pm.buff.mask.getLsbD i = d
      generalize pm.vcc.mask.getLsbD i = e
      generalize pm.led0.mask.getLsbD i = f
      generalize pm.led1.mask.getLsbD i = g
      generalize pm.led2.mask.getLsbD i = k
      generalize pm.led3.mask.getLsbD i = l
      revert a b c d e f g k l
      decide
    · simp [hi]

/-- A write of an output pin keeps the shadow register inside the direction register (U23). -/
theorem setBits_in_ddr {v d : Byte} {p : PinCfg} (hv : v &&& ~~~d = 0) (hp : p.mask &&& ~~~d = 0) (x : Bool) :
    setBits v p x &&& ~~~d = 0 := by
  rw [setBits_outside hp, hv]

/-! ### The two codec fields (30_encoding.md, head) -/

section Base

variable {pm : PinMap}

/-- `Base` of a byte that is itself a `Base` forgets its fields. -/
theorem base_base (h : Legal pm) (o : Byte) (x c y d : Bool) : base pm (base pm o x c) y d = base pm o y d := by
  unfold base
  rw [setBits_comm h.sckSdo, setBits_setBits, setBits_setBits]

theorem getBits_base_sck (h : Legal pm) (o : Byte) (x c : Bool) : getBits (base pm o x c) pm.sck = c :=
  getBits_setBits h.sck_ne _ c

theorem getBits_base_sdo (h : Legal pm) (o : Byte) (x c : Bool) : getBits (base pm o x c) pm.sdo = x := by
  unfold base
  rw [getBits_setBits_other h.sckSdo, getBits_setBits h.sdo_ne]

/-- The codec's writes leave every bit outside its two fields alone (R31). -/
theorem base_outside (o : Byte) (x c : Bool) : base pm o x c &&& ~~~codecMask pm = o &&& ~~~codecMask pm := by
  unfold base
  rw [setBits_outside, setBits_outside] <;>
  · refine byte_ext fun i => ?_
    simp only [codecMask, BitVec.getLsbD_and, BitVec.getLsbD_not, BitVec.getLsbD_or]
    cases pm.sck.mask.getLsbD i <;> cases pm.sdo.mask.getLsbD i <;> simp

theorem base_in_ddr {o d : Byte} (ho : o &&& ~~~d = 0) (hc : pm.sck.mask &&& ~~~d = 0) (hs : pm.sdo.mask &&& ~~~d = 0)
    (x c : Bool) : base pm o x c &&& ~~~d = 0 :=
  setBits_in_ddr (setBits_in_ddr ho hs x) hc c

/-- A `Base` whose fields are set again to what they are is itself. -/
theorem base_same (o : Byte) (x c d : Bool) :
    setBits (base pm o x c) pm.sck d = base pm o x d := by
  unfold base
  rw [setBits_setBits]

end Base

end Sys2Proof.Machine
end

