-- ==== Sys2Proof/Laws/Bits.lean ====
section
/-! SUPPORT. The bits of assembled bytes and words (R81): each bit is the one that was put there. -/

namespace Sys2Proof.Machine

theorem setBitIf_getLsbD {w : Nat} (v : BitVec w) (i j : Nat) (x : Bool) :
    (setBitIf v i x).getLsbD j = (v.getLsbD j || (decide (i = j ∧ j < w) && x)) := by
  unfold setBitIf
  cases x
  · simp
  · by_cases h : i = j
    · subst h; by_cases hw : i < w <;> simp [hw]
    · simp [h]

/-- Bits put into a word at the places `g 0, g 1, …`: a place no bit goes to keeps its bit. -/
theorem assemble_getLsbD {w : Nat} (g : Nat → Nat) (f : Nat → Bool) (v : BitVec w) (ks : List Nat) (j : Nat) (hj : j < w) :
    (ks.foldl (fun r k => setBitIf r (g k) (f k)) v).getLsbD j =
      (v.getLsbD j || ks.any fun k => decide (g k = j) && f k) := by
  induction ks generalizing v with
  | nil => simp
  | cons k ks ih =>
    rw [List.foldl_cons, ih, setBitIf_getLsbD, List.any_cons, Bool.or_assoc]
    simp only [hj, and_true]

theorem assembleMsb_getLsbD (f : Nat → Bool) (j : Nat) (hj : j < 8) : (assembleMsb f).getLsbD (7 - j) = f j := by
  unfold assembleMsb
  rw [assemble_getLsbD (fun j => 7 - j) f 0 _ _ (by omega)]
  have : ∀ j, j < 8 → ∀ k ∈ List.range 8, decide (7 - k = 7 - j) = decide (k = j) := by decide
  rw [Bool.eq_iff_iff]
  simp only [BitVec.ofNat_eq_ofNat, BitVec.getLsbD_zero, Bool.false_or, List.any_eq_true, Bool.and_eq_true]
  constructor
  · rintro ⟨k, hk, h1, h2⟩
    rw [this j hj k hk, decide_eq_true_eq] at h1
    exact h1 ▸ h2
  · exact fun h => ⟨j, List.mem_range.mpr hj, by simp, h⟩

theorem assembleLsb_getLsbD (f : Nat → Bool) (j : Nat) (hj : j < 8) : (assembleLsb f).getLsbD j = f j := by
  unfold assembleLsb
  rw [assemble_getLsbD (fun j => j) f 0 _ _ hj, Bool.eq_iff_iff]
  simp only [BitVec.ofNat_eq_ofNat, BitVec.getLsbD_zero, Bool.false_or, List.any_eq_true, Bool.and_eq_true,
    decide_eq_true_eq, List.mem_range]
  exact ⟨fun ⟨k, _, h1, h2⟩ => h1 ▸ h2, fun h => ⟨j, hj, rfl, h⟩⟩

theorem assembleWord_getLsbD (f : Nat → Bool) (j : Nat) (hj : j < 16) : (assembleWord f).getLsbD j = f j := by
  unfold assembleWord
  rw [assemble_getLsbD (fun j => j) f 0 _ _ hj, Bool.eq_iff_iff]
  simp only [BitVec.ofNat_eq_ofNat, BitVec.getLsbD_zero, Bool.false_or, List.any_eq_true, Bool.and_eq_true,
    decide_eq_true_eq, List.mem_range]
  exact ⟨fun ⟨k, _, h1, h2⟩ => h1 ▸ h2, fun h => ⟨j, hj, rfl, h⟩⟩

/-- Every bit of an extracted ISP byte (R74, R106). -/
theorem ispWord_getLsbD (pm : PinMap) (rx : List Byte) (w j : Nat) (hj : j < 8) :
    (ispWord pm rx w).getLsbD (7 - j) = getBits (rx.getD (16 * w + 2 + 2 * j) 0) pm.sdi :=
  assembleMsb_getLsbD _ j hj

/-- Every bit of a received TPI word (R78, R117). -/
theorem tpiWord_getLsbD (pm : PinMap) (rx : List Byte) (k : Nat) (hk : k < 16) :
    (tpiWord pm rx).getLsbD k = getBits (rx.getD (2 * k + 1) 0) pm.sdi :=
  assembleWord_getLsbD _ k hk

/-- A byte is known by its bits from the most significant on. -/
theorem byte_ext_msb {a b : Byte} (h : ∀ j, j < 8 → a.getLsbD (7 - j) = b.getLsbD (7 - j)) : a = b := by
  refine BitVec.eq_of_getLsbD_eq fun i hi => ?_
  have := h (7 - i) (by omega)
  rwa [show 7 - (7 - i) = i by omega] at this

end Sys2Proof.Machine
end

