-- ==== Sys2Proof/Laws/Codec.lean ====
section
/-! SUPPORT. Each operand of a packet is read back as the encoder wrote it, whatever follows; and an operation's selector byte. -/

namespace Sys2Proof

@[simp] theorem parseThen_ok {α β : Type} (a : α) (bs : List Byte) (f : α → List Byte → Parse β) :
    parseThen (.ok (a, bs)) f = f a bs := rfl

@[simp] theorem parseThen_error {α β : Type} (e : DecodeError) (f : α → List Byte → Parse β) :
    parseThen (.error e) f = .error e := rfl

@[simp] theorem getByte_cons (b : Byte) (bs : List Byte) : getByte (b :: bs) = .ok (b, bs) := rfl

theorem getBool_putBool (x : Bool) (rest : List Byte) : getBool (putBool x ++ rest) = .ok (x, rest) := by
  cases x <;> rfl

theorem getPinOperand_putPin (p : Pin) (rest : List Byte) : getPinOperand (putPin p ++ rest) = .ok (p, rest) := by
  cases p <;> rfl

theorem getNat_putNatFuel (fuel n : Nat) (h : n ≤ fuel) (rest : List Byte) :
    getNat (putNatFuel fuel n ++ rest) = .ok (n, rest) := by
  induction fuel generalizing n with
  | zero =>
    obtain rfl : n = 0 := by omega
    rfl
  | succ fuel ih =>
    unfold putNatFuel
    split
    · have : (BitVec.ofNat 8 n).toNat = n := by rw [BitVec.toNat_ofNat]; omega
      simp only [List.cons_append, List.nil_append, getNat, this, if_pos ‹n < 128›]
    · have : (BitVec.ofNat 8 (n % 128 + 128)).toNat = n % 128 + 128 := by rw [BitVec.toNat_ofNat]; omega
      simp only [List.cons_append, getNat, this]
      rw [if_neg (by omega), ih _ (by omega), parseThen_ok]
      congr 2
      omega

theorem getNat_putNat (n : Nat) (rest : List Byte) : getNat (putNat n ++ rest) = .ok (n, rest) :=
  getNat_putNatFuel n n (Nat.le_refl _) rest

theorem getWord16_putWord16 (w : Word16) (rest : List Byte) : getWord16 (putWord16 w ++ rest) = .ok (w, rest) := by
  have : w.extractLsb' 8 8 ++ w.extractLsb' 0 8 = w := by
    apply BitVec.eq_of_getLsbD_eq
    intro i hi
    rw [BitVec.getLsbD_append]
    by_cases h : i < 8
    · simp [h]
    · simp [h, show i - 8 < 8 by omega]
      congr 1
      omega
  simp [getWord16, putWord16, this]

theorem getCmd_putCmd (c : Cmd) (rest : List Byte) : getCmd (putCmd c ++ rest) = .ok (c, rest) := rfl

theorem getMany_flatMap {α : Type} {one : List Byte → Parse α} {put : α → List Byte}
    (h : ∀ a rest, one (put a ++ rest) = .ok (a, rest)) (as : List α) (rest : List Byte) :
    getMany one as.length (as.flatMap put ++ rest) = .ok (as, rest) := by
  induction as with
  | nil => rfl
  | cons a as ih => simp [getMany, h, ih, List.append_assoc]

theorem getMany_bytes (bs rest : List Byte) : getMany getByte bs.length (bs ++ rest) = .ok (bs, rest) := by
  have := getMany_flatMap (one := getByte) (put := fun b => [b]) (fun _ _ => rfl) bs rest
  rwa [List.flatMap_singleton'] at this

theorem getList_put {α : Type} {one : List Byte → Parse α} {put : α → List Byte}
    (h : ∀ a rest, one (put a ++ rest) = .ok (a, rest)) (as : List α) (rest : List Byte) :
    getList one (putNat as.length ++ (as.flatMap put ++ rest)) = .ok (as, rest) := by
  rw [getList, getNat_putNat, parseThen_ok, getMany_flatMap h]

theorem getList_putBytes (bs rest : List Byte) : getList getByte (putBytes bs ++ rest) = .ok (bs, rest) := by
  rw [putBytes, List.append_assoc, getList, getNat_putNat, parseThen_ok, getMany_bytes]

theorem selector_lt (i : Instr) : selector i < 23 := by
  cases i <;> exact of_decide_eq_true rfl

theorem selector_byte (i : Instr) : (BitVec.ofNat 8 (selector i)).toNat % 32 = selector i := by
  have := selector_lt i
  rw [BitVec.toNat_ofNat]
  omega

end Sys2Proof
end

