-- ==== Sys2Proof/Laws/Queue.lean ====
section
/-! SUPPORT. The queue `Q` of R47: which samples are asked for, how many, and what sends, flushes and fills do to it. -/

namespace Sys2Proof.Machine

/-! ### Offsets asked for -/

/-- Of a range that holds them all, the offsets in a list without repeats are as many as the list is long. -/
theorem filter_mem_length {h n : Nat} {e : List Nat} (hp : e.Pairwise fun a b => b < a)
    (hb : ∀ x ∈ e, h ≤ x ∧ x < h + n) : ((List.range' h n).filter fun k => decide (k ∈ e)).length = e.length := by
  refine (List.perm_ext_iff_of_nodup ?_ ?_ |>.mpr fun x => ?_).length_eq
  · exact (List.nodup_range' (step := 1)).filter _
  · exact hp.imp fun h => Nat.ne_of_gt h
  · rw [List.mem_filter, List.mem_range'_1, decide_eq_true_eq]
    exact ⟨And.right, fun hx => ⟨hb x hx, hx⟩⟩

/-- Those in a list and those not in it are all. -/
theorem filter_mem_add (e l : List Nat) :
    (l.filter fun k => decide (k ∈ e)).length + (l.filter fun k => decide (k ∉ e)).length = l.length := by
  induction l with
  | nil => rfl
  | cons a l ih =>
    by_cases h : a ∈ e
    · rw [List.filter_cons_of_pos (by simpa using h), List.filter_cons_of_neg (by simpa using h)]
      simp only [List.length_cons]
      omega
    · rw [List.filter_cons_of_neg (by simpa using h), List.filter_cons_of_pos (by simpa using h)]
      simp only [List.length_cons]
      omega

/-- What is asked for is what is owed without the discards. -/
theorem asked_length {c : Channel} (hw : c.debtsWf) : c.asked.length + c.discard = c.owed := by
  obtain ⟨h1, h2, h3, h4⟩ := hw
  have ha := filter_mem_add c.echoes (List.range' c.handed c.owed)
  rw [filter_mem_length h3 h4, List.length_range'] at ha
  unfold Channel.asked
  omega

theorem queue_length {c : Channel} (hw : c.debtsWf) : c.queue.length + c.discard = c.owed + c.aside.length := by
  have := asked_length hw
  rw [Channel.queue, List.length_append, List.length_map]
  omega

/-- When only discards are owed and nothing was set aside, the queue is empty. -/
theorem queue_empty {c : Channel} (hw : c.debtsWf) (ho : c.owed = c.discard) (ha : c.aside = []) : c.queue = [] := by
  have := queue_length hw
  rw [ha, List.length_nil] at this
  exact List.length_eq_zero_iff.mp (by omega)

/-- What is asked for lies in what is owed. -/
theorem asked_mem {c : Channel} {k : Nat} (hk : k ∈ c.asked) : c.handed ≤ k ∧ k < c.handed + c.owed :=
  List.mem_range'_1.mp (List.mem_filter.mp hk).1

/-- Where the bytes that discards stand for are the oldest owed, those after them are asked for (R43). -/
theorem asked_oldest {c : Channel} (hw : c.debtsWf) (h : c.echoes.reverse = List.range' c.handed c.discard) :
    c.asked = List.range' (c.handed + c.discard) (c.owed - c.discard) := by
  have hm : ∀ k, k ∈ c.echoes ↔ c.handed ≤ k ∧ k < c.handed + c.discard := fun k => by
    rw [← List.mem_reverse, h, List.mem_range'_1]
  have ho : c.owed = c.discard + (c.owed - c.discard) := by
    have := hw.1
    omega
  rw [Channel.asked, ho, ← List.range'_append_1, Nat.add_sub_cancel_left, List.filter_append, List.filter_eq_nil_iff.mpr,
    List.nil_append, List.filter_eq_self.mpr]
  · intro k hk
    have := List.mem_range'_1.mp hk
    rw [decide_eq_true_eq, hm]
    omega
  · intro k hk
    have := List.mem_range'_1.mp hk
    rw [decide_eq_true_eq, hm]
    omega

/-! ### The queue under sends, flushes and fills -/

theorem asked_congr {c c' : Channel} (hd : c'.debts = c.debts) (hh : c'.handed = c.handed) (ho : c'.owed = c.owed) :
    c'.asked = c.asked := by
  have he : c'.echoes = c.echoes := congrArg (fun p => p.2.1) hd
  unfold Channel.asked
  rw [he, hh, ho]

/-- The samples of a channel's offsets stay what they are as the stream grows. -/
theorem map_sample_stable {c c' : Channel} {l : List Nat} (hs : c'.line.samples = c.line.samples) (hp : c.stream <+: c'.stream)
    (hl : ∀ k ∈ l, k < c.stream.length) : l.map c'.sample = l.map c.sample :=
  List.map_congr_left fun k hk => sample_stable hs hp (hl k hk)

theorem asked_lt {c : Channel} (hc : c.wf) {k : Nat} (hk : k ∈ c.asked) : k < c.stream.length := by
  have := asked_mem hk
  rw [← hc.core.owed_eq]
  exact this.2

/-- A change that leaves debts, stream, samples and what was handed out alone leaves the queue alone. -/
theorem queue_congr {c c' : Channel} (hc : c.wf) (hc' : c'.core) (hd : c'.debts = c.debts) (hh : c'.handed = c.handed)
    (hs : c'.stream = c.stream) (hsm : c'.line.samples = c.line.samples) : c'.queue = c.queue := by
  have ha : c'.aside = c.aside := congrArg (fun p => p.2.2) hd
  rw [Channel.queue, Channel.queue, ha, asked_congr hd hh (owed_congr hc.core hc' hs hh),
    map_sample_stable hsm (hs ▸ List.prefix_refl _) fun k hk => asked_lt hc hk]

theorem Flushed.queue {c c' : Channel} (h : Flushed c c') (hc : c.wf) : c'.queue = c.queue :=
  queue_congr hc h.core h.debts h.handed h.stream h.passed.samples

/-- A send without discard asks for the samples of its bytes, one with discard for none (R47). -/
theorem Sent.asked {disc : Bool} {c c' : Channel} {bs : List Byte} (h : Sent disc c c' bs) (hc : c.wf) :
    c'.asked = if disc then c.asked else c.asked ++ List.range' c.stream.length bs.length := by
  have hlen := hc.core.owed_eq
  have hb := hc.debts.2.2.2
  unfold Channel.asked
  rw [h.handed, h.owed hc, ← hlen, ← List.range'_append_1, List.filter_append]
  cases disc
  · rw [show c'.echoes = c.echoes from congrArg (fun p => p.2.1) h.debts]
    refine congrArg _ (List.filter_eq_self.mpr fun k hk => ?_)
    have := List.mem_range'_1.mp hk
    rw [decide_eq_true_eq]
    intro hk
    have := hb k hk
    omega
  · rw [show c'.echoes = (List.range' c.stream.length bs.length).reverse ++ c.echoes from congrArg (fun p => p.2.1) h.debts,
      ← hlen]
    have hnil : ((List.range' (c.handed + c.owed) bs.length).filter fun k =>
        decide (k ∉ (List.range' (c.handed + c.owed) bs.length).reverse ++ c.echoes)) = [] :=
      List.filter_eq_nil_iff.mpr fun k hk => by simp [hk]
    rw [hnil, List.append_nil]
    refine List.filter_congr fun k hk => ?_
    have := List.mem_range'_1.mp hk
    rw [decide_eq_decide, List.mem_append, List.mem_reverse, List.mem_range'_1]
    constructor
    · exact fun h he => h (.inr he)
    · rintro h (he | he)
      · omega
      · exact h he

/-- The samples asked for before a send are what they were. -/
theorem Sent.map_asked {disc : Bool} {c c' : Channel} {bs : List Byte} (h : Sent disc c c' bs) (hc : c.wf) :
    c.asked.map c'.sample = c.asked.map c.sample :=
  map_sample_stable h.passed.samples (h.stream ▸ List.prefix_append _ _) fun _ hk => asked_lt hc hk

/-- A send with discard leaves the queue alone (R47). -/
theorem Sent.queue_discard {c c' : Channel} {bs : List Byte} (h : Sent true c c' bs) (hc : c.wf) : c'.queue = c.queue := by
  have ha : c'.asked = c.asked := h.asked hc
  rw [Channel.queue, Channel.queue, h.aside, ha, h.map_asked hc]

/-- A send without discard puts the samples of its bytes at the end of the queue (R47). -/
theorem Sent.queue {c c' : Channel} {bs : List Byte} (h : Sent false c c' bs) (hc : c.wf) :
    c'.queue = c.queue ++ c'.samplesFrom c.stream.length bs.length := by
  have ha : c'.asked = c.asked ++ List.range' c.stream.length bs.length := h.asked hc
  rw [Channel.queue, Channel.queue, h.aside, ha, List.map_append, List.append_assoc, h.map_asked hc]
  rfl

/-! ### Samples that can be taken -/

/-- The samples that can be handed out of what was written: those in the ring and those outstanding. -/
def Channel.coming (c : Channel) : List Byte :=
  (List.range' c.handed (c.ring.len + c.pending)).map (sampleAt c.line)

theorem coming_length (c : Channel) : c.coming.length = c.ring.len + c.pending := by simp [Channel.coming]

/-- Taking `n` bytes drops as many of the samples to come. -/
theorem Worked.coming {c c' : Channel} {n : Nat} (h : Worked c c' [] n) (hc : c.core) : c'.coming = c.coming.drop n := by
  have hf := h.inFlight hc
  have hi := hc.inFlight
  rw [List.length_nil] at hf
  unfold Channel.coming
  rw [← List.map_drop, List.drop_range', Nat.mul_one, h.handed]
  rw [show c.ring.len + c.pending - n = c'.ring.len + c'.pending by omega]
  refine List.map_congr_left fun k hk => ?_
  have := List.mem_range'_1.mp hk
  exact sampleAt_stable h.samples (by rw [h.drive, List.append_nil]) (by omega)

/-- The samples that can be taken: those set aside, then those to come. -/
def Channel.avail (c : Channel) : List Byte := c.aside ++ c.coming

theorem avail_length (c : Channel) : c.avail.length = c.aside.length + (c.ring.len + c.pending) := by
  rw [Channel.avail, List.length_append, coming_length]

/-- When all that is asked for was written and no discard is owed, the samples that can be taken are the queue. -/
theorem avail_eq_queue {c : Channel} (hc : c.core) (hw : c.debtsWf) (ht : c.tx.len = 0) (hd : c.discard = 0) :
    c.avail = c.queue := by
  have he : c.echoes = [] := List.length_eq_zero_iff.mp (hw.2.1.trans hd)
  have ho : c.owed = c.ring.len + c.pending := by rw [Channel.owed, ht, Nat.add_zero]
  have ha : c.asked = List.range' c.handed (c.ring.len + c.pending) := by
    rw [asked_oldest hw (by rw [he, hd]; rfl), hd, ho]
    rfl
  rw [Channel.avail, Channel.queue, ha, Channel.coming]
  congr 1
  refine List.map_congr_left fun k hk => ?_
  have := List.mem_range'_1.mp hk
  have := hc.inFlight
  exact (sample_eq_sampleAt (by omega)).symm

end Sys2Proof.Machine
end

