-- ==== Sys2Proof/Laws/Recv.lean ====
section
/-! SUPPORT. `recv` and `drain`: what they can do, said once each, and when they complete or are stuck (R37, R43, R44, R47,
R58, R138). -/

namespace Sys2Proof.Machine

/-! ### Taking what was asked for (R43) -/

/-- The take of a byte gives the first of the samples to come. -/
theorem takeByte_coming {c : Channel} {p : Channel × Byte} (hc : c.core) (ho : c.inOrder) (h : takeByte c = .next p) :
    c.coming = p.2 :: p.1.coming := by
  obtain ⟨hw, -, hlt, hv⟩ := takeByte_next hc ho h
  have hi := hc.inFlight
  rw [hw.coming hc, hv, Channel.coming]
  cases hn : c.ring.len + c.pending with
  | zero => omega
  | succ n => rfl

/-- What taking samples does: those set aside go first, then those to come. -/
structure Taken (c c' : Channel) (k : Nat) : Prop where
  worked  : ∃ j, Worked c c' [] j ∧ c.aside.length + j = k + c'.aside.length
  discard : c'.discard = c.discard
  echoes  : c'.echoes = c.echoes
  avail   : c'.avail = c.avail.drop k
  enough  : k ≤ c.avail.length

theorem Taken.refl {c : Channel} (h : c.core) : Taken c c 0 where
  worked := ⟨0, .refl h, (Nat.zero_add _).symm⟩
  discard := rfl
  echoes := rfl
  avail := rfl
  enough := Nat.zero_le _

theorem Taken.trans {a b c : Channel} {k n : Nat} (h1 : Taken a b k) (h2 : Taken b c n) : Taken a c (k + n) where
  worked := by
    obtain ⟨j1, w1, e1⟩ := h1.worked
    obtain ⟨j2, w2, e2⟩ := h2.worked
    exact ⟨j1 + j2, w1.trans w2, by omega⟩
  discard := h2.discard.trans h1.discard
  echoes := h2.echoes.trans h1.echoes
  avail := by rw [h2.avail, h1.avail, List.drop_drop]
  enough := by
    have h := h2.enough
    rw [h1.avail, List.length_drop] at h
    have := h1.enough
    omega

theorem Taken.core {c c' : Channel} {k : Nat} (h : Taken c c' k) : c'.core :=
  let ⟨_, w, _⟩ := h.worked
  w.core

theorem Taken.order {c c' : Channel} {k : Nat} (h : Taken c c' k) (ho : c.inOrder) : c'.inOrder :=
  let ⟨_, w, _⟩ := h.worked
  w.order ho

theorem Taken.flows {c c' : Channel} {k : Nat} (h : Taken c c' k) (hl : c.line.flows) : c'.line.flows :=
  let ⟨_, w, _⟩ := h.worked
  w.flows hl

/-- What can still be taken, and what is in the ring or outstanding, after the takes. -/
theorem Taken.left {c c' : Channel} {k : Nat} (h : Taken c c' k) (hc : c.core) :
    c'.avail.length + k = c.avail.length ∧ c'.ring.len + c'.pending ≤ c.ring.len + c.pending := by
  obtain ⟨j, w, -⟩ := h.worked
  have hf := w.inFlight hc
  have he := h.enough
  rw [List.length_nil] at hf
  rw [h.avail, List.length_drop]
  omega

/-- All that the take of a sample asked for can do. -/
theorem takeAsked_next {c : Channel} {p : Channel × Byte} (hc : c.core) (ho : c.inOrder) (h : takeAsked c = .next p) :
    Taken c p.1 1 ∧ p.2 = c.avail.getD 0 0 := by
  unfold takeAsked at h
  split at h
  · rename_i b rest ha
    cases h
    have hav : c.avail = b :: (rest ++ c.coming) := by rw [Channel.avail, ha, List.cons_append]
    refine ⟨⟨⟨0, (Worked.refl hc).setDebts c.discard c.echoes rest, ?_⟩, rfl, rfl, ?_, ?_⟩, ?_⟩
    · rw [ha, List.length_cons, Nat.add_zero, Nat.add_comm]
    · rw [hav]
      rfl
    · rw [hav, List.length_cons]
      omega
    · rw [hav]
      rfl
  · rename_i ha
    obtain ⟨hw, hd, -⟩ := takeByte_next hc ho h
    obtain ⟨hd, he⟩ := Prod.mk.inj hd
    obtain ⟨he, has⟩ := Prod.mk.inj he
    have hav : c.avail = p.2 :: p.1.avail := by
      rw [Channel.avail, Channel.avail, has, ha, takeByte_coming hc ho h, List.nil_append, List.nil_append]
    refine ⟨⟨⟨1, hw, by rw [has, Nat.add_comm]⟩, hd, he, ?_, ?_⟩, ?_⟩
    · rw [hav]
      rfl
    · rw [hav, List.length_cons]
      omega
    · rw [hav]
      rfl

theorem takeAsked_completes {c : Channel} (hc : c.core) (hl : c.line.flows)
    (hr : c.ring.len + c.pending ≤ Config.rxCapacity) (hpos : 0 < c.avail.length) : ∃ p, takeAsked c = .next p := by
  unfold takeAsked
  split
  · exact ⟨_, rfl⟩
  · rename_i ha
    rw [avail_length, ha, List.length_nil] at hpos
    exact takeByte_completes hc hl hr (by omega)

/-- A take when nothing is left is stuck (R138). -/
theorem takeAsked_stuck {c : Channel} (hc : c.core) (hl : c.line.flows) (h : c.avail.length = 0) :
    takeAsked c = .fault .stuck := by
  rw [avail_length] at h
  unfold takeAsked
  rw [List.length_eq_zero_iff.mp (show c.aside.length = 0 by omega)]
  exact takeByte_stuck hc hl (by omega) (by omega)

theorem dropCopies_next {k : Nat} {c c' : Channel} (hc : c.core) (ho : c.inOrder) (h : dropCopies k c = .next c') :
    Taken c c' k := by
  induction k generalizing c with
  | zero => cases h; exact .refl hc
  | succ k ih =>
    obtain ⟨p, hp, h⟩ := andThen_eq_next h
    have ht := (takeAsked_next hc ho hp).1
    exact Nat.add_comm 1 k ▸ ht.trans (ih ht.core (ht.order ho) h)

theorem takeLogical_next {m n : Nat} (hm : 1 ≤ m) {c : Channel} {q : Channel × List Byte} (hc : c.core) (ho : c.inOrder)
    (h : takeLogical m n c = .next q) :
    Taken c q.1 (m * n) ∧ q.2 = (List.range n).map fun i => c.avail.getD (m * i) 0 := by
  induction n generalizing c q with
  | zero => cases h; exact ⟨.refl hc, rfl⟩
  | succ n ih =>
    obtain ⟨p, hp, h⟩ := andThen_eq_next h
    obtain ⟨c1, h1, h⟩ := andThen_eq_next h
    obtain ⟨r, hr, h⟩ := andThen_eq_next h
    cases h
    obtain ⟨ht, hv⟩ := takeAsked_next hc ho hp
    have ht1 := ht.trans (dropCopies_next ht.core (ht.order ho) h1)
    rw [Nat.add_sub_cancel' hm] at ht1
    obtain ⟨ht2, hv2⟩ := ih ht1.core (ht1.order ho) hr
    refine ⟨by rw [Nat.mul_succ, Nat.add_comm]; exact ht1.trans ht2, ?_⟩
    show p.2 :: r.2 = _
    rw [hv, hv2, List.range_succ_eq_map, List.map_cons, List.map_map]
    refine congrArg _ (List.map_congr_left fun i _ => ?_)
    rw [ht1.avail, Function.comp_apply, Nat.mul_succ, List.getD_eq_getElem?_getD, List.getD_eq_getElem?_getD,
      List.getElem?_drop, Nat.add_comm]

theorem dropCopies_completes {k : Nat} {c : Channel} (hc : c.core) (ho : c.inOrder) (hl : c.line.flows)
    (hr : c.ring.len + c.pending ≤ Config.rxCapacity) (hk : k ≤ c.avail.length) : ∃ c', dropCopies k c = .next c' := by
  induction k generalizing c with
  | zero => exact ⟨c, rfl⟩
  | succ k ih =>
    obtain ⟨p, hp⟩ := takeAsked_completes hc hl hr (by omega)
    have ht := (takeAsked_next hc ho hp).1
    have hf := ht.left hc
    obtain ⟨c', h⟩ := ih ht.core (ht.order ho) (ht.flows hl) (by omega) (by omega)
    exact ⟨c', by rw [dropCopies, hp]; exact h⟩

theorem takeLogical_completes {m n : Nat} (hm : 1 ≤ m) {c : Channel} (hc : c.core) (ho : c.inOrder) (hl : c.line.flows)
    (hr : c.ring.len + c.pending ≤ Config.rxCapacity) (hk : m * n ≤ c.avail.length) : ∃ q, takeLogical m n c = .next q := by
  induction n generalizing c with
  | zero => exact ⟨_, rfl⟩
  | succ n ih =>
    rw [Nat.mul_succ] at hk
    obtain ⟨p, hp⟩ := takeAsked_completes hc hl hr (by omega)
    have ht := (takeAsked_next hc ho hp).1
    have hf := ht.left hc
    obtain ⟨c1, h1⟩ := dropCopies_completes (k := m - 1) ht.core (ht.order ho) (ht.flows hl) (by omega) (by omega)
    have ht1 := dropCopies_next ht.core (ht.order ho) h1
    have hf1 := ht1.left ht.core
    obtain ⟨q, h2⟩ := ih ht1.core (ht1.order (ht.order ho)) (ht1.flows (ht.flows hl)) (by omega) (by omega)
    exact ⟨_, by rw [takeLogical, hp, andThen_next, h1, andThen_next, h2, andThen_next]⟩

/-! ### stuck receives (R138) -/

theorem dropCopies_stuck {k : Nat} {c : Channel} (hc : c.core) (ho : c.inOrder) (hl : c.line.flows)
    (hr : c.ring.len + c.pending ≤ Config.rxCapacity) (hk : c.avail.length < k) : dropCopies k c = .fault .stuck := by
  induction k generalizing c with
  | zero => omega
  | succ k ih =>
    by_cases hz : c.avail.length = 0
    · rw [dropCopies, takeAsked_stuck hc hl hz]
      rfl
    · obtain ⟨p, hp⟩ := takeAsked_completes hc hl hr (by omega)
      have ht := (takeAsked_next hc ho hp).1
      have hf := ht.left hc
      rw [dropCopies, hp]
      exact ih ht.core (ht.order ho) (ht.flows hl) (by omega) (by omega)

theorem takeLogical_stuck {m n : Nat} (hm : 1 ≤ m) {c : Channel} (hc : c.core) (ho : c.inOrder) (hl : c.line.flows)
    (hr : c.ring.len + c.pending ≤ Config.rxCapacity) (hk : c.avail.length < m * n) :
    takeLogical m n c = .fault .stuck := by
  induction n generalizing c with
  | zero => omega
  | succ n ih =>
    rw [Nat.mul_succ] at hk
    by_cases hz : c.avail.length = 0
    · rw [takeLogical, takeAsked_stuck hc hl hz]
      rfl
    · obtain ⟨p, hp⟩ := takeAsked_completes hc hl hr (by omega)
      have ht := (takeAsked_next hc ho hp).1
      have hf := ht.left hc
      rw [takeLogical, hp, andThen_next]
      by_cases hcopies : p.1.avail.length < m - 1
      · rw [dropCopies_stuck ht.core (ht.order ho) (ht.flows hl) (by omega) hcopies]
        rfl
      · obtain ⟨c1, h1⟩ := dropCopies_completes (k := m - 1) ht.core (ht.order ho) (ht.flows hl) (by omega) (by omega)
        have ht1 := dropCopies_next ht.core (ht.order ho) h1
        have hf1 := ht1.left ht.core
        rw [h1, andThen_next, ih ht1.core (ht1.order (ht.order ho)) (ht1.flows (ht.flows hl)) (by omega) (by omega)]
        rfl

/-! ### The owed discards (R26, R37, R43, R58) -/

/-- All that dropping the samples of bytes sent with discard can do: of the next `k`, those are dropped, the others set
aside. -/
theorem dropDiscards_next {k : Nat} {c c' : Channel} (hc : c.core) (ho : c.inOrder) (h : dropDiscards k c = .next c') :
    Worked c c' [] k ∧ c'.discard = c.discard - ((List.range' c.handed k).filter fun i => decide (i ∈ c.echoes)).length ∧
    c'.aside = c.aside ++ ((List.range' c.handed k).filter fun i => decide (i ∉ c.echoes)).map (sampleAt c.line) := by
  induction k generalizing c with
  | zero => cases h; exact ⟨.refl hc, rfl, by simp⟩
  | succ k ih =>
    obtain ⟨p, hp, h⟩ := andThen_eq_next h
    obtain ⟨hw, hd, hlt, hv⟩ := takeByte_next hc ho hp
    obtain ⟨hd, he⟩ := Prod.mk.inj hd
    obtain ⟨he, ha⟩ := Prod.mk.inj he
    have hh : p.1.handed = c.handed + 1 := hw.handed
    have hdr : p.1.line.drive = c.line.drive := by rw [hw.drive, List.append_nil]
    have hst : ∀ (c2 : Channel) (e : List Nat), Worked p.1 c2 [] k →
        ((List.range' p.1.handed k).filter fun i => decide (i ∉ e)).map (sampleAt p.1.line) =
          ((List.range' (c.handed + 1) k).filter fun i => decide (i ∉ e)).map (sampleAt c.line) := fun c2 e hw2 => by
      rw [hh]
      refine List.map_congr_left fun i hi => sampleAt_stable hw.samples (by rw [hdr]) ?_
      have := List.mem_range'_1.mp (List.mem_filter.mp hi).1
      have h1 := hw2.inFlight hw.core
      have h2 := hw.core.inFlight
      rw [hdr, hh] at h2
      rw [List.length_nil] at h1
      omega
    rw [List.range'_succ]
    split at h
    · rename_i hm
      obtain ⟨hw', hd', ha'⟩ := ih (c := { p.1 with discard := p.1.discard - 1 }) (hw.core.setDebts _ _ _) (hw.order ho) h
      have hw2 : Worked p.1 c' [] k := hw'.fromDebts
      have hd2 : c'.discard = p.1.discard - 1 -
          ((List.range' p.1.handed k).filter fun i => decide (i ∈ p.1.echoes)).length := hd'
      have ha2 : c'.aside = p.1.aside ++
          ((List.range' p.1.handed k).filter fun i => decide (i ∉ p.1.echoes)).map (sampleAt p.1.line) := ha'
      refine ⟨Nat.add_comm 1 k ▸ hw.trans hw2, ?_, ?_⟩
      · rw [List.filter_cons_of_pos (by simpa using hm), hd2, hd, he, hh, List.length_cons]
        omega
      · rw [List.filter_cons_of_neg (by simpa using hm), ha2, hst c' _ hw2, ha, he]
    · rename_i hm
      obtain ⟨hw', hd', ha'⟩ := ih (c := { p.1 with aside := p.1.aside ++ [p.2] }) (hw.core.setDebts _ _ _) (hw.order ho) h
      have hw2 : Worked p.1 c' [] k := hw'.fromDebts
      have hd2 : c'.discard = p.1.discard -
          ((List.range' p.1.handed k).filter fun i => decide (i ∈ p.1.echoes)).length := hd'
      have ha2 : c'.aside = p.1.aside ++ [p.2] ++
          ((List.range' p.1.handed k).filter fun i => decide (i ∉ p.1.echoes)).map (sampleAt p.1.line) := ha'
      refine ⟨Nat.add_comm 1 k ▸ hw.trans hw2, ?_, ?_⟩
      · rw [List.filter_cons_of_neg (by simpa using hm), hd2, hd, he, hh]
      · rw [List.filter_cons_of_pos (by simpa using hm), ha2, hst c' _ hw2, ha, he, hv, List.append_assoc]
        rfl

/-- The bytes that discards stand for are all among those up to the last. -/
theorem echoes_in_span {c : Channel} (hp : c.echoes.Pairwise fun a b => b < a) (hb : ∀ e ∈ c.echoes, c.handed ≤ e) {e : Nat}
    (he : e ∈ c.echoes) : c.handed ≤ e ∧ e < c.handed + echoSpan c := by
  have hle := hb e he
  refine ⟨hle, ?_⟩
  unfold echoSpan
  split
  · rename_i h
    rw [h] at he
    cases he
  · rename_i x xs h
    rw [h] at hp he
    rcases List.mem_cons.mp he with rfl | he
    · omega
    · have := (List.pairwise_cons.mp hp).1 e he
      omega

theorem echoSpan_le {c : Channel} (hw : c.debtsWf) : echoSpan c ≤ c.owed := by
  unfold echoSpan
  split
  · exact Nat.zero_le _
  · rename_i x xs h
    have := hw.2.2.2 x (by rw [h]; exact List.mem_cons_self)
    omega

/-- All that consuming the owed discards can do, once all that is staged was written: none is left, and what can be taken is
what was set aside and what is asked for. -/
theorem consumeDiscards_next {c c' : Channel} (hc : c.core) (ho : c.inOrder) (hw : c.debtsWf) (ht : c.tx.len = 0)
    (h : consumeDiscards c = .next c') :
    Worked c c' [] (echoSpan c) ∧ c.aside.length + echoSpan c = c.discard + c'.aside.length ∧ c'.discard = 0 ∧
    c'.echoes = [] ∧ c'.avail = c.aside ++ c.asked.map (sampleAt c.line) := by
  obtain ⟨c1, h1, h⟩ := andThen_eq_next h
  cases h
  obtain ⟨w, hd, ha⟩ := dropDiscards_next hc ho h1
  have howed : c.owed = c.ring.len + c.pending := by rw [Channel.owed, ht, Nat.add_zero]
  have hle := echoSpan_le hw
  have hin : ∀ e ∈ c.echoes, c.handed ≤ e ∧ e < c.handed + echoSpan c := fun e he =>
    echoes_in_span hw.2.2.1 (fun x hx => (hw.2.2.2 x hx).1) he
  have hcount := filter_mem_length hw.2.2.1 hin
  have hadd := filter_mem_add c.echoes (List.range' c.handed (echoSpan c))
  rw [hcount, hw.2.1, List.length_range'] at hadd
  refine ⟨w.setDebts c1.discard [] c1.aside, ?_, ?_, rfl, ?_⟩
  · show c.aside.length + echoSpan c = c.discard + c1.aside.length
    rw [ha, List.length_append, List.length_map]
    omega
  · show c1.discard = 0
    rw [hd, hcount, hw.2.1, Nat.sub_self]
  · show c1.avail = _
    rw [Channel.avail, ha, w.coming hc, Channel.coming, ← List.map_drop, List.drop_range', Nat.mul_one,
      List.append_assoc, ← List.map_append, ← howed, Channel.asked]
    congr 2
    rw [show c.owed = echoSpan c + (c.owed - echoSpan c) by omega, ← List.range'_append_1, List.filter_append,
      Nat.add_sub_cancel_left]
    refine congrArg _ (Eq.symm (List.filter_eq_self.mpr fun k hk => ?_))
    have := List.mem_range'_1.mp hk
    rw [decide_eq_true_eq]
    intro he
    have := hin k he
    omega

theorem dropDiscards_completes {k : Nat} {c : Channel} (hc : c.core) (ho : c.inOrder) (hl : c.line.flows)
    (hr : c.ring.len + c.pending ≤ Config.rxCapacity) (hk : k ≤ c.ring.len + c.pending) :
    ∃ c', dropDiscards k c = .next c' := by
  induction k generalizing c with
  | zero => exact ⟨c, rfl⟩
  | succ k ih =>
    obtain ⟨p, hp⟩ := takeByte_completes hc hl hr (by omega)
    have hw := (takeByte_next hc ho hp).1
    have hf := hw.inFlight hc
    rw [List.length_nil] at hf
    have hnext : ∀ (d : Nat) (a : List Byte), ∃ c', dropDiscards k { p.1 with discard := d, aside := a } = .next c' := fun d a =>
      ih (c := { p.1 with discard := d, aside := a }) (hw.core.setDebts _ _ _) (hw.order ho)
        (hw.flows hl) (by show p.1.ring.len + p.1.pending ≤ _; omega) (by show k ≤ p.1.ring.len + p.1.pending; omega)
    simp only [dropDiscards, hp, andThen_next]
    split
    · exact hnext _ _
    · exact hnext _ _

theorem consumeDiscards_completes {c : Channel} (hc : c.core) (ho : c.inOrder) (hw : c.debtsWf) (ht : c.tx.len = 0)
    (hl : c.line.flows) (hr : c.ring.len + c.pending ≤ Config.rxCapacity) : ∃ c', consumeDiscards c = .next c' := by
  have howed : c.owed = c.ring.len + c.pending := by rw [Channel.owed, ht, Nat.add_zero]
  obtain ⟨c1, h1⟩ := dropDiscards_completes (k := echoSpan c) hc ho hl hr (howed ▸ echoSpan_le hw)
  exact ⟨_, by rw [consumeDiscards, h1]; rfl⟩

/-! ### recv as a whole -/

/-- With no discard owed the debts are in order. -/
theorem debtsWf_none {c : Channel} {a : List Byte} (h : c.debts = (0, [], a)) : c.debtsWf := by
  obtain ⟨hd, he⟩ := Prod.mk.inj h
  unfold Channel.debtsWf
  rw [hd, (Prod.mk.inj he).1]
  exact ⟨Nat.zero_le _, rfl, .nil, nofun⟩

/-- What receiving `n` physical bytes of the queue does. -/
structure Received (c c' : Channel) (n : Nat) : Prop where
  passed  : Passed c c'
  wf      : c'.wf
  stream  : c'.stream = c.stream
  handed  : c'.handed + c.aside.length = c.handed + c.discard + n + c'.aside.length
  reached : c.handed + echoSpan c ≤ c'.handed
  discard : c'.discard = 0
  echoes  : c'.echoes = []
  queue   : c'.queue = c.queue.drop n
  enough  : n ≤ c.queue.length
  tx      : c'.tx = { c.tx with len := 0 }

theorem Received.debts {c c' : Channel} {n : Nat} (h : Received c c' n) : c'.debts = (0, [], c'.aside) := by
  unfold Channel.debts
  rw [h.discard, h.echoes]

/-- The flush and the batch with which a receive begins. -/
theorem recv_begin {c c1 : Channel} {p : Channel × Nat} (hc : c.wf) (h1 : flushAndClear c = .next c1)
    (h2 : fill c1 = .next p) : Flushed c p.1 := by
  have hf := flushAndClear_flushed hc.core h1
  obtain ⟨hw, hd, -⟩ := fill_next hf.core h2
  have hdr : p.1.line.drive = c1.line.drive := by rw [hw.drive, List.append_nil]
  exact
    { passed := hf.passed.trans hw.passed
      core := hw.core
      tx := hw.tx.trans hf.tx
      drive := hdr.trans hf.drive
      stream := by
        rw [Channel.stream, hdr, hw.tx, ← Channel.stream, hf.stream]
      handed := hw.handed.trans hf.handed
      debts := hd.trans hf.debts
      rd := by rw [hw.rd, Nat.add_zero, hf.rd, Nat.mod_eq_of_lt hc.core.ring.2.2.1] }

/-- After a flush all that is owed is in the ring or outstanding. -/
theorem Flushed.inRing {c c' : Channel} (h : Flushed c c') (hc : c.core) : c'.ring.len + c'.pending = c.owed := by
  have := h.owed hc
  rw [Channel.owed, h.tx, Nat.add_zero] at this
  exact this

/-- What can be taken once the discards are consumed is the queue. -/
theorem Flushed.asked_samples {c c' : Channel} (h : Flushed c c') (hc : c.wf) :
    c'.aside ++ c'.asked.map (sampleAt c'.line) = c.queue := by
  rw [← h.queue hc, Channel.queue]
  refine congrArg _ (List.map_congr_left fun k hk => (sample_eq_sampleAt ?_).symm)
  have := asked_lt (h.wf hc) hk
  rwa [h.stream, ← h.drive] at this

/-- All that `Recv` can do: the next samples of the queue come out, of each logical byte the first copy. -/
theorem recvBytes_received {m n : Nat} (hm : 1 ≤ m) {c : Channel} {q : Channel × List Byte} (hc : c.wf) (ho : c.inOrder)
    (h : recvBytes m n c = .next q) :
    Received c q.1 (m * n) ∧ q.2 = (List.range n).map fun i => c.queue.getD (m * i) 0 := by
  obtain ⟨c1, h1, h⟩ := andThen_eq_next h
  obtain ⟨p, h2, h⟩ := andThen_eq_next h
  obtain ⟨c2, h3, h⟩ := andThen_eq_next h
  have hb := recv_begin hc h1 h2
  have hbw := hb.wf hc
  have hbo := hb.passed.order ho
  have hbt : p.1.tx.len = 0 := by rw [hb.tx]
  obtain ⟨hw3, hj, hd3, he3, hq3⟩ := consumeDiscards_next hb.core hbo hbw.debts hbt h3
  rw [hb.asked_samples hc] at hq3
  obtain ⟨ht, hv⟩ := takeLogical_next hm hw3.core (hw3.order hbo) h
  obtain ⟨i, hw4, hi⟩ := ht.worked
  have hw := hw3.trans hw4
  rw [List.append_nil] at hw
  obtain ⟨hbd, hbe⟩ := Prod.mk.inj hb.debts
  have hba : p.1.aside = c.aside := (Prod.mk.inj hbe).2
  have hbs : echoSpan p.1 = echoSpan c := by rw [echoSpan, echoSpan, (Prod.mk.inj hbe).1, hb.handed]
  rw [hba, hbd] at hj
  have htx : q.1.tx = { c.tx with len := 0 } := hw.tx.trans hb.tx
  have hstream : q.1.stream = c.stream := by
    rw [Channel.stream, hw.drive, List.append_nil, hb.drive, htx, staged_clear, List.append_nil]
  have hdebts : q.1.debtsWf := debtsWf_none (a := q.1.aside) (by rw [Channel.debts, ht.discard, hd3, ht.echoes, he3])
  have hwf : q.1.wf := hw.core.wf (by rw [htx]; exact (by decide : 0 < Config.fifoChunk)) hdebts
  refine ⟨?_, by rw [hv, hq3]⟩
  exact
    { passed := hb.passed.trans hw.passed
      wf := hwf
      stream := hstream
      handed := by
        rw [hw.handed, hb.handed]
        omega
      reached := by
        rw [hw.handed, hb.handed, hbs]
        omega
      discard := ht.discard.trans hd3
      echoes := ht.echoes.trans he3
      queue := by
        rw [← avail_eq_queue hw.core hdebts (by rw [htx]) (ht.discard.trans hd3), ht.avail, hq3]
      enough := hq3 ▸ ht.enough
      tx := htx }

/-- The steps of a receive up to the samples it hands back: they complete, and the queue is what can be taken. -/
theorem recv_ready {c : Channel} (hc : c.wf) (ho : c.inOrder) (hl : c.line.healthy) (hr : c.room 0) :
    ∃ c', (∀ m n, recvBytes m n c = takeLogical m n c') ∧ c'.core ∧ c'.inOrder ∧ c'.line.flows ∧
      c'.ring.len + c'.pending ≤ Config.rxCapacity ∧ c'.avail = c.queue := by
  obtain ⟨c1, h1⟩ := flushAndClear_completes hc.core hl hr
  have hf := flushAndClear_flushed hc.core h1
  simp only [Channel.room, Nat.add_zero] at hr
  obtain ⟨p, h2⟩ := fill_completes hf.core (hf.passed.healthy hl).flows (by rw [hf.inRing hc.core]; omega)
  have hb := recv_begin hc h1 h2
  have hbo := hb.passed.order ho
  have hbl := (hb.passed.healthy hl).flows
  have hbt : p.1.tx.len = 0 := by rw [hb.tx]
  have hbr : p.1.ring.len + p.1.pending ≤ Config.rxCapacity := by rw [hb.inRing hc.core]; omega
  obtain ⟨c2, h3⟩ := consumeDiscards_completes hb.core hbo (hb.wf hc).debts hbt hbl hbr
  obtain ⟨hw3, -, -, -, hq3⟩ := consumeDiscards_next hb.core hbo (hb.wf hc).debts hbt h3
  have hin := hw3.inFlight hb.core
  rw [List.length_nil] at hin
  refine ⟨c2, fun m n => ?_, hw3.core, hw3.order hbo, hw3.flows hbl, by omega, by rw [hq3, hb.asked_samples hc]⟩
  rw [recvBytes, h1, andThen_next, h2, andThen_next, h3, andThen_next]

/-- A receive of no more than the queue holds completes. -/
theorem recvBytes_completes {m n : Nat} (hm : 1 ≤ m) {c : Channel} (hc : c.wf) (ho : c.inOrder) (hl : c.line.healthy)
    (hr : c.room 0) (hk : m * n ≤ c.queue.length) : ∃ q, recvBytes m n c = .next q := by
  obtain ⟨c', h, hc', ho', hl', hr', hq⟩ := recv_ready hc ho hl hr
  rw [h]
  exact takeLogical_completes hm hc' ho' hl' hr' (hq ▸ hk)

/-- A receive of more than the queue holds is stuck (R138). -/
theorem recvBytes_stuck {m n : Nat} (hm : 1 ≤ m) {c : Channel} (hc : c.wf) (ho : c.inOrder) (hl : c.line.healthy)
    (hr : c.room 0) (hk : c.queue.length < m * n) : recvBytes m n c = .fault .stuck := by
  obtain ⟨c', h, hc', ho', hl', hr', hq⟩ := recv_ready hc ho hl hr
  rw [h]
  exact takeLogical_stuck hm hc' ho' hl' hr' (hq ▸ hk)

theorem Received.owed {c c' : Channel} {n : Nat} (h : Received c c' n) (hc : c.wf) :
    c'.owed + c'.aside.length + c.discard + n = c.owed + c.aside.length := by
  have h1 := h.wf.core.owed_eq
  have h2 := hc.core.owed_eq
  have h3 := h.handed
  rw [h.stream] at h1
  omega

/-! ### drain (R44) -/

theorem emptied_wf {c : Channel} (hc : c.core) (l : Line) : (emptied { c with line := l }).wf := by
  have hlt : Config.freeRingIndex l.drains % Config.rxCapacity < Config.rxCapacity := Nat.mod_lt _ (by decide)
  refine ⟨hc.tx, hc.ring.1, by show 0 < _; decide, Nat.zero_le _, hlt, ?_, Nat.zero_le _, Nat.zero_add _, Nat.zero_le _,
    debtsWf_none rfl⟩
  exact (Nat.mod_eq_of_lt hlt).symm

theorem emptied_inOrder (c : Channel) : (emptied c).inOrder := fun j hj => absurd hj (Nat.not_lt_zero j)

/-- All that `Drain()` can do: a flush, two changes of the bit mode, and everything is purged. -/
theorem drainChannel_next {c c' : Channel} (hc : c.core) (h : drainChannel c = .next c') :
    ∃ c1, Flushed c c1 ∧ c' = emptied { c1 with line := { c1.line with modes := c1.line.modes.tail.tail } } ∧
      c'.wf ∧ c'.inOrder := by
  obtain ⟨c1, h0, h⟩ := andThen_eq_next h
  obtain ⟨l, h1, h⟩ := andThen_eq_next h
  obtain ⟨l2, h2, h⟩ := andThen_eq_next h
  cases h
  have hf := flushAndClear_flushed hc h0
  obtain rfl := changeMode_next h1
  obtain rfl := changeMode_next h2
  exact ⟨c1, hf, rfl, emptied_wf hf.core _, emptied_inOrder _⟩

theorem drainChannel_completes {c : Channel} (hc : c.core) (hl : c.line.healthy) (hr : c.room 0) :
    ∃ c', drainChannel c = .next c' := by
  obtain ⟨c1, h0⟩ := flushAndClear_completes hc hl hr
  have hl1 := (flushAndClear_flushed hc h0).passed.healthy hl
  have h1 := changeMode_completes hl1
  have h2 := changeMode_completes (l := { c1.line with modes := c1.line.modes.tail })
    (healthy_of_suffix hl1 (List.suffix_refl _) (List.suffix_refl _) (List.suffix_refl _) (List.tail_suffix _))
  exact ⟨_, by rw [drainChannel, h0, andThen_next, h1, andThen_next, h2, andThen_next]⟩

end Sys2Proof.Machine
end

