-- ==== Sys2Proof/Laws/Drive.lean ====
section
/-! SUPPORT. The serializers in closed form (R80): what each puts in the drive buffer and in the shadow register. -/

namespace Sys2Proof.Machine

section

variable {pm : PinMap}

theorem emitCell_eq (x : Bool) (d : Drive) :
    emitCell pm x d = ⟨base pm d.out x true, d.buf ++ cellBytes pm d.out x⟩ := by
  unfold emitCell emitWith cellBytes base
  simp only [setBits_setBits, List.append_assoc, List.cons_append, List.nil_append]

/-- The level SDO is left at by cells `xs` after a byte with SDO at `x`. -/
def lastLevel (x : Bool) (xs : List Bool) : Bool := (xs.getLast?).getD x

theorem emitCells_append (xs ys : List Bool) (d : Drive) :
    emitCells pm (xs ++ ys) d = emitCells pm ys (emitCells pm xs d) :=
  List.foldl_append

/-- Cells after a byte that is a `Base` of `o`. -/
theorem emitCells_base (h : Legal pm) (o : Byte) (x c : Bool) (buf : List Byte) (y : Bool) (ys : List Bool) :
    emitCells pm (y :: ys) ⟨base pm o x c, buf⟩ =
      ⟨base pm o (lastLevel y ys) true, buf ++ cellsBytes pm o (y :: ys)⟩ := by
  induction ys generalizing x c y buf with
  | nil =>
    show emitCell pm y _ = _
    rw [emitCell_eq]
    simp [cellsBytes, cellBytes, lastLevel, base_base h]
  | cons z zs ih =>
    show emitCells pm (z :: zs) (emitCell pm y ⟨base pm o x c, buf⟩) = _
    rw [emitCell_eq, base_base h, ih]
    congr 1
    · simp [lastLevel, List.getLast?_cons]
    · simp [cellsBytes, cellBytes, base_base h]

/-- A serializer of at least one cell, in closed form (R80). -/
theorem emitCells_start (h : Legal pm) (o : Byte) (y : Bool) (ys : List Bool) :
    emitCells pm (y :: ys) (startDrive o) = ⟨base pm o (lastLevel y ys) true, cellsBytes pm o (y :: ys)⟩ := by
  cases ys with
  | nil =>
    show emitCell pm y _ = _
    rw [emitCell_eq]
    simp [cellsBytes, startDrive, lastLevel]
  | cons z zs =>
    show emitCells pm (z :: zs) (emitCell pm y (startDrive o)) = _
    rw [emitCell_eq, show (startDrive o).out = o from rfl, emitCells_base h]
    congr 1
    simp [lastLevel, List.getLast?_cons]

theorem emitBytes_eq (bs : List Byte) (d : Drive) :
    emitBytes pm bs d = emitCells pm (bs.flatMap bitsMsb) d := by
  unfold emitBytes
  induction bs generalizing d with
  | nil => rfl
  | cons b bs ih =>
    rw [List.foldl_cons, ih, List.flatMap_cons, emitCells_append]
    rfl

theorem bitsMsb_eq (b : Byte) :
    bitsMsb b = [b.getLsbD 7, b.getLsbD 6, b.getLsbD 5, b.getLsbD 4, b.getLsbD 3, b.getLsbD 2, b.getLsbD 1, b.getLsbD 0] :=
  rfl

theorem bitsLsb_eq (b : Byte) :
    bitsLsb b = [b.getLsbD 0, b.getLsbD 1, b.getLsbD 2, b.getLsbD 3, b.getLsbD 4, b.getLsbD 5, b.getLsbD 6, b.getLsbD 7] :=
  rfl

/-- `set_data(B)` in closed form (R80). -/
theorem emitData_start (h : Legal pm) (o b : Byte) :
    emitData pm b (startDrive o) = ⟨base pm o (b.getLsbD 0) true, cellsBytes pm o (bitsMsb b)⟩ := by
  unfold emitData
  rw [bitsMsb_eq, emitCells_start h]
  rfl

@[simp] theorem cellsBytes_length (o : Byte) (xs : List Bool) : (cellsBytes pm o xs).length = 2 * xs.length := by
  unfold cellsBytes cellBytes
  rw [List.length_flatMap]
  simp [Nat.mul_comm]

/-- The drive byte of slot `s` of cell `j` (R69, R80). -/
theorem cellsBytes_getElem? (o : Byte) (xs : List Bool) (j : Nat) (hj : j < xs.length) :
    (cellsBytes pm o xs)[2 * j]? = some (base pm o xs[j] false) ∧
    (cellsBytes pm o xs)[2 * j + 1]? = some (base pm o xs[j] true) := by
  induction xs generalizing j with
  | nil => simp at hj
  | cons x xs ih =>
    show (base pm o x false :: base pm o x true :: cellsBytes pm o xs)[2 * j]? = _ ∧
      (base pm o x false :: base pm o x true :: cellsBytes pm o xs)[2 * j + 1]? = _
    cases j with
    | zero => exact ⟨rfl, rfl⟩
    | succ j => exact ih j (by simpa using hj)

/-- `cmd`'s drive buffer in closed form (R71, R80). -/
theorem cmdDrive_eq (h : Legal pm) (c : Cmd) (o : Byte) :
    cmdDrive pm c o = ⟨base pm o (c.c3.getLsbD 0) false, cmdStream pm o c⟩ := by
  unfold cmdDrive emitIdle emitWith cmdStream
  rw [emitBytes_eq]
  have hb : (cmdBytes c).flatMap bitsMsb = c.c0.getLsbD 7 :: ((cmdBytes c).flatMap bitsMsb).tail := rfl
  rw [hb, emitCells_start h, ← hb]
  have hl : lastLevel (c.c0.getLsbD 7) ((cmdBytes c).flatMap bitsMsb).tail = c.c3.getLsbD 0 := rfl
  simp only [hl, base_same]

@[simp] theorem cmdStream_length (o : Byte) (c : Cmd) : (cmdStream pm o c).length = 65 := by
  simp [cmdStream, cmdBytes, bitsMsb]

theorem flatMap_bitsMsb_length (bs : List Byte) : (bs.flatMap bitsMsb).length = 8 * bs.length := by
  rw [List.length_flatMap]
  simp [bitsMsb, Nat.mul_comm]

theorem flatMap_cmdBytes_length (cmds : List Cmd) : (cmds.flatMap cmdBytes).length = 4 * cmds.length := by
  rw [List.length_flatMap]
  simp [cmdBytes, Nat.mul_comm]

@[simp] theorem fragStream_length (o : Byte) (cmds : List Cmd) (last : Bool) :
    (fragStream pm o cmds last).length = 64 * cmds.length + 1 := by
  simp only [fragStream, List.length_append, cellsBytes_length, flatMap_bitsMsb_length, flatMap_cmdBytes_length,
    List.length_cons, List.length_nil]
  omega

/-- A fragment's drive buffer in closed form (R73, R109). -/
theorem fragDrive_eq (h : Legal pm) (cmds : List Cmd) (hc : cmds ≠ []) (last : Bool) (o : Byte) :
    fragDrive pm cmds last o = ⟨base pm o (lastBit cmds) (!last), fragStream pm o cmds last⟩ := by
  obtain ⟨c, cs, rfl⟩ := List.exists_cons_of_ne_nil hc
  have hb : ((c :: cs).flatMap cmdBytes).flatMap bitsMsb =
      c.c0.getLsbD 7 :: (((c :: cs).flatMap cmdBytes).flatMap bitsMsb).tail := rfl
  have hl : lastLevel (c.c0.getLsbD 7) (((c :: cs).flatMap cmdBytes).flatMap bitsMsb).tail = lastBit (c :: cs) := by
    have hne : (((c :: cs).flatMap cmdBytes).flatMap bitsMsb) ≠ [] := by rw [hb]; exact List.cons_ne_nil _ _
    have h1 : ∀ (y : Bool) (ys : List Bool), lastLevel y ys = ((y :: ys).getLast?).getD false := fun y ys => by
      simp [lastLevel, List.getLast?_cons]
    rw [h1, ← hb, lastBit]
    congr 1
    clear hb hne h1 hc
    induction cs using List.reverseRecOn with
    | nil => rfl
    | append_singleton cs d _ =>
      rw [← List.cons_append, List.flatMap_append, List.flatMap_append, List.map_append]
      rw [List.getLast?_append, List.getLast?_append]
      rfl
  unfold fragDrive
  simp only [emitBytes_eq]
  rw [hb, emitCells_start h, hl, ← hb]
  cases last
  · simp [emitStretch, fragStream]
  · simp [emitIdle, emitWith, fragStream, base_same]

/-- `tpi_tx`'s drive buffer in closed form (R76, R80). -/
theorem tpiTxDrive_eq (h : Legal pm) (b o : Byte) :
    emitCells pm (tpiFrame b) (startDrive o) = ⟨base pm o true true, cellsBytes pm o (tpiFrame b)⟩ := by
  unfold tpiFrame
  rw [emitCells_start h]
  rfl

@[simp] theorem tpiFrame_length (b : Byte) : (tpiFrame b).length = 12 := rfl

/-- `tpi_rx`'s drive buffer in closed form (R77, R80). -/
theorem tpiRxDrive_eq (h : Legal pm) (o : Byte) :
    emitCells pm (List.replicate Config.tpiRxCells true) (startDrive o) =
      ⟨base pm o true true, cellsBytes pm o (List.replicate Config.tpiRxCells true)⟩ := by
  show emitCells pm (true :: List.replicate 15 true) (startDrive o) = _
  rw [emitCells_start h]
  rfl

end

/-! ### Handing a drive buffer to the channel -/

/-- All that sending a drive buffer can do. -/
theorem sendDrive_next {d : Drive} {disc : Bool} {s t : State} (hc : s.chan.wf) (h : sendDrive d disc s = .next t) :
    ∃ c, t = (s.setOut d.out).setChan c ∧ Sent disc s.chan c (repeated s.baudMultiplier d.buf) := by
  obtain ⟨c, h1, h⟩ := andThen_eq_next h
  cases h
  exact ⟨c, rfl, sendBytes_sent hc h1⟩

theorem sendDrive_completes {d : Drive} {disc : Bool} {s : State} (hc : s.chan.wf) (hl : s.chan.line.healthy)
    (hr : s.chan.room (s.baudMultiplier * d.buf.length)) : ∃ t, sendDrive d disc s = .next t := by
  obtain ⟨c, h1⟩ := sendBytes_completes (disc := disc) hc hl hr
  exact ⟨_, by rw [sendDrive, h1, andThen_next]⟩

/-- What an exchange does to the channel: the bytes are sent, then as many samples of the queue come back. -/
structure Exchanged (c c' : Channel) (bs : List Byte) (n : Nat) : Prop where
  passed  : Passed c c'
  wf      : c'.wf
  stream  : c'.stream = c.stream ++ bs
  handed  : c'.handed + c.aside.length = c.handed + c.discard + n + c'.aside.length
  debts   : c'.debts = (0, [], c'.aside)
  queue   : c'.queue = (c.queue ++ c'.samplesFrom c.stream.length bs.length).drop n
  enough  : n ≤ c.queue.length + bs.length
  txLen   : c'.tx.len = 0
  txKept  : ∀ a, (∀ j, j < bs.length → a ≠ (c.tx.len + j) % Config.fifoChunk) →
              memRead c'.tx.buf a = memRead c.tx.buf a

@[simp] theorem samplesFrom_length (c : Channel) (k n : Nat) : (c.samplesFrom k n).length = n := by simp [Channel.samplesFrom]

/-- The samples of what was sent stay what they are. -/
theorem samplesFrom_stable {c c' : Channel} {k n : Nat} (hs : c'.line.samples = c.line.samples) (hp : c.stream <+: c'.stream)
    (hn : k + n ≤ c.stream.length) : c'.samplesFrom k n = c.samplesFrom k n :=
  map_sample_stable hs hp fun i hi => by
    have := List.mem_range'_1.mp hi
    omega

theorem samplesFrom_add (c : Channel) (k n m : Nat) :
    c.samplesFrom k (n + m) = c.samplesFrom k n ++ c.samplesFrom (k + n) m := by
  rw [Channel.samplesFrom, ← List.range'_append_1, List.map_append]
  rfl

theorem samplesFrom_getD (c : Channel) {k n i : Nat} (hi : i < n) : (c.samplesFrom k n).getD i 0 = c.sample (k + i) := by
  rw [Channel.samplesFrom, List.getD_eq_getElem?_getD, List.getElem?_map, List.getElem?_range' hi, Nat.one_mul]
  rfl

/-- The queue after a send and a receive. -/
theorem sent_received {a b c : Channel} {bs : List Byte} {n : Nat} (h1 : Sent false a b bs) (h2 : Received b c n)
    (hc : a.wf) : b.queue = a.queue ++ c.samplesFrom a.stream.length bs.length := by
  rw [h1.queue hc, samplesFrom_stable h2.passed.samples (h2.stream ▸ List.prefix_refl _)
    (by rw [h1.stream, List.length_append])]

theorem Sent.exchanged {a b c : Channel} {bs : List Byte} {n : Nat} (h1 : Sent false a b bs) (h2 : Received b c n)
    (hc : a.wf) : Exchanged a c bs n where
  passed := h1.passed.trans h2.passed
  wf := h2.wf
  stream := by rw [h2.stream, h1.stream]
  handed := by
    have hd : b.discard = a.discard := (Prod.mk.inj h1.debts).1
    have := h2.handed
    rwa [h1.aside, h1.handed, hd] at this
  debts := h2.debts
  queue := by rw [h2.queue, sent_received h1 h2 hc]
  enough := by
    have := h2.enough
    rwa [sent_received h1 h2 hc, List.length_append, samplesFrom_length] at this
  txLen := by rw [h2.tx]
  txKept := fun x hx => by rw [h2.tx]; exact h1.txKept x hx

/-- The first copies of the `n` logical bytes at the head of a queue. -/
def firstCopies (m : Nat) (q : List Byte) (n : Nat) : List Byte := (List.range n).map fun i => q.getD (m * i) 0

theorem firstCopies_getD (m : Nat) (q : List Byte) {n i : Nat} (hi : i < n) :
    (firstCopies m q n).getD i 0 = q.getD (m * i) 0 := by
  rw [firstCopies, List.getD_eq_getElem?_getD, List.getElem?_map, List.getElem?_range hi]
  rfl

/-- All that an exchange can do. -/
theorem exchange_next {d : Drive} {s : State} {p : State × List Byte} (hm : 1 ≤ s.baudMultiplier) (hc : s.chan.wf)
    (ho : s.chan.inOrder) (h : exchange d s = .next p) :
    ∃ c, p.1 = (s.setOut d.out).setChan c ∧
      Exchanged s.chan c (repeated s.baudMultiplier d.buf) (s.baudMultiplier * d.buf.length) ∧
      p.2 = firstCopies s.baudMultiplier
        (s.chan.queue ++ c.samplesFrom s.chan.stream.length (s.baudMultiplier * d.buf.length)) d.buf.length := by
  obtain ⟨t, h1, h⟩ := andThen_eq_next h
  obtain ⟨q, h2, h⟩ := andThen_eq_next h
  cases h
  obtain ⟨c1, rfl, hs⟩ := sendDrive_next hc h1
  obtain ⟨hr, hv⟩ := recvBytes_received (c := c1) hm hs.wf (hs.passed.order ho) h2
  refine ⟨q.1, rfl, hs.exchanged hr hc, ?_⟩
  rw [hv, sent_received hs hr hc, repeated_length]
  rfl

theorem exchange_completes {d : Drive} {s : State} (hm : 1 ≤ s.baudMultiplier) (hc : s.chan.wf)
    (ho : s.chan.inOrder) (hl : s.chan.line.healthy) (hr : s.chan.room (s.baudMultiplier * d.buf.length)) :
    ∃ p, exchange d s = .next p := by
  obtain ⟨t, h1⟩ := sendDrive_completes (disc := false) hc hl hr
  obtain ⟨c1, rfl, hs⟩ := sendDrive_next hc h1
  have howed := hs.owed hc
  rw [repeated_length] at howed
  simp only [Channel.room] at hr
  obtain ⟨q, h2⟩ := recvBytes_completes (c := c1) (n := d.buf.length) hm hs.wf (hs.passed.order ho)
    (hs.passed.healthy hl) (by simp only [Channel.room, hs.aside]; omega)
    (by rw [hs.queue hc, List.length_append, samplesFrom_length, repeated_length]; omega)
  exact ⟨_, by rw [exchange, h1, andThen_next]; show andThen (recvBytes s.baudMultiplier _ c1) _ = _; rw [h2, andThen_next]⟩

/-- What is owed after an exchange that keeps as many samples as it sent bytes: what was, without the discards. -/
theorem Exchanged.owed {c c' : Channel} {bs : List Byte} {n : Nat} (h : Exchanged c c' bs n) (hn : bs.length = n)
    (hc : c.wf) : c'.owed + c'.aside.length + c.discard = c.owed + c.aside.length := by
  have h1 := h.wf.core.owed_eq
  have h2 := hc.core.owed_eq
  have h3 := h.handed
  rw [h.stream, List.length_append] at h1
  omega

/-- With nothing staged, the stream is what was written. -/
theorem stream_of_empty {c : Channel} (h : c.tx.len = 0) : c.line.drive = c.stream := by
  simp [Channel.stream, staged, h]

/-- The shadow register and the channel are all that sending a drive buffer changes. -/
theorem sendDrive_registers {d : Drive} {disc : Bool} {s t : State} (h : sendDrive d disc s = .next t) :
    ∃ c, t = (s.setOut d.out).setChan c := by
  obtain ⟨c, -, h⟩ := andThen_eq_next h
  cases h
  exact ⟨c, rfl⟩

/-- The shadow register and the channel are all that an exchange changes. -/
theorem exchange_registers {d : Drive} {s : State} {p : State × List Byte} (h : exchange d s = .next p) :
    ∃ c, p.1 = (s.setOut d.out).setChan c := by
  obtain ⟨t, h1, h⟩ := andThen_eq_next h
  obtain ⟨q, -, h⟩ := andThen_eq_next h
  cases h
  obtain ⟨c, rfl⟩ := sendDrive_registers h1
  exact ⟨q.1, rfl⟩

/-! ### Bytes that hold the other pins (R31) -/

/-- A drive buffer whose bytes, and whose shadow register, have the bits of `o` outside the two codec fields. -/
structure Holds (pm : PinMap) (o : Byte) (d : Drive) : Prop where
  out : d.out &&& ~~~codecMask pm = o &&& ~~~codecMask pm
  buf : ∀ b ∈ d.buf, b &&& ~~~codecMask pm = o &&& ~~~codecMask pm

theorem holds_start (pm : PinMap) (o : Byte) : Holds pm o (startDrive o) := ⟨rfl, fun _ h => nomatch h⟩

theorem setBits_codec {pm : PinMap} {p : PinCfg} (hp : p = pm.sck ∨ p = pm.sdo) (v : Byte) (x : Bool) :
    setBits v p x &&& ~~~codecMask pm = v &&& ~~~codecMask pm := by
  refine setBits_outside (byte_ext fun i => ?_) v x
  simp only [codecMask, BitVec.getLsbD_and, BitVec.getLsbD_not, BitVec.getLsbD_or]
  rcases hp with rfl | rfl
  · cases pm.sck.mask.getLsbD i <;> simp
  · cases pm.sdo.mask.getLsbD i <;> simp

theorem Holds.emitWith {pm : PinMap} {o : Byte} {d : Drive} {p : PinCfg} (h : Holds pm o d)
    (hp : p = pm.sck ∨ p = pm.sdo) (x : Bool) : Holds pm o (emitWith p x d) := by
  have he : setBits d.out p x &&& ~~~codecMask pm = o &&& ~~~codecMask pm := (setBits_codec hp _ _).trans h.out
  refine ⟨he, fun b hb => ?_⟩
  rcases List.mem_append.mp hb with hb | hb
  · exact h.buf b hb
  · exact List.mem_singleton.mp hb ▸ he

theorem Holds.emitStretch {pm : PinMap} {o : Byte} {d : Drive} (h : Holds pm o d) : Holds pm o (emitStretch d) := by
  refine ⟨h.out, fun b hb => ?_⟩
  rcases List.mem_append.mp hb with hb | hb
  · exact h.buf b hb
  · exact List.mem_singleton.mp hb ▸ h.out

theorem Holds.emitCells {pm : PinMap} {o : Byte} {d : Drive} (h : Holds pm o d) (xs : List Bool) :
    Holds pm o (emitCells pm xs d) := by
  induction xs generalizing d with
  | nil => exact h
  | cons x xs ih =>
    refine ih (show Holds pm o (emitCell pm x d) from ?_)
    rw [emitCell_eq]
    refine ⟨(base_outside _ _ _).trans h.out, fun b hb => ?_⟩
    rcases List.mem_append.mp hb with hb | hb
    · exact h.buf b hb
    · rcases List.mem_pair.mp hb with rfl | rfl <;> exact (base_outside _ _ _).trans h.out

theorem Holds.emitBytes {pm : PinMap} {o : Byte} {d : Drive} (h : Holds pm o d) (bs : List Byte) :
    Holds pm o (emitBytes pm bs d) :=
  emitBytes_eq bs d ▸ h.emitCells _

theorem holds_cmdDrive (pm : PinMap) (c : Cmd) (o : Byte) : Holds pm o (cmdDrive pm c o) :=
  ((holds_start pm o).emitBytes _).emitWith (.inl rfl) false

theorem holds_fragDrive (pm : PinMap) (cmds : List Cmd) (last : Bool) (o : Byte) : Holds pm o (fragDrive pm cmds last o) := by
  unfold fragDrive
  cases last
  · exact ((holds_start pm o).emitBytes _).emitStretch
  · exact ((holds_start pm o).emitBytes _).emitWith (.inl rfl) false

/-- How many bytes a serializer of cells emits, whatever the PinMap. -/
theorem emitCells_length (pm : PinMap) (xs : List Bool) (d : Drive) :
    (emitCells pm xs d).buf.length = d.buf.length + 2 * xs.length := by
  induction xs generalizing d with
  | nil => rfl
  | cons x xs ih =>
    show (emitCells pm xs (emitCell pm x d)).buf.length = _
    rw [ih, emitCell_eq]
    simp only [cellBytes, List.length_append, List.length_cons, List.length_nil]
    omega

theorem cmdDrive_length (pm : PinMap) (c : Cmd) (o : Byte) : (cmdDrive pm c o).buf.length = 65 := by
  unfold cmdDrive emitIdle Machine.emitWith
  rw [emitBytes_eq]
  simp [emitCells_length, startDrive, cmdBytes, bitsMsb]

theorem fragDrive_length (pm : PinMap) (cmds : List Cmd) (last : Bool) (o : Byte) :
    (fragDrive pm cmds last o).buf.length = 64 * cmds.length + 1 := by
  unfold fragDrive
  simp only [emitBytes_eq]
  cases last <;>
  · simp only [emitIdle, Machine.emitWith, Machine.emitStretch, emitCells_length, startDrive, flatMap_bitsMsb_length,
      flatMap_cmdBytes_length, List.length_append, List.length_cons, List.length_nil, Bool.false_eq_true, if_false, if_true]
    omega

end Sys2Proof.Machine
end

