-- ==== Sys2Proof/Laws/Growth.lean ====
section
/-! SUPPORT. The drive stream only grows (R35, R37), also where an operation ends in a `Fault`: said of every operation under
the 23, link by link. -/

namespace Sys2Proof.Machine

/-- Whatever `x` ends in, the drive stream of the line `l` is the beginning of the one it leaves. -/
structure Grows {α : Type} (lineOf : α → Line) (l : Line) (x : Out α) : Prop where
  next  : ∀ a, x = .next a → l.drive <+: (lineOf a).drive
  fault : ∀ r l', x = .fault (.channel r l') → l.drive <+: l'.drive

theorem grows_next {α : Type} {lineOf : α → Line} {l : Line} {a : α} (h : l.drive <+: (lineOf a).drive) :
    Grows lineOf l (.next a) :=
  ⟨fun _ e => by cases e; exact h, nofun⟩

theorem grows_channel {α : Type} {lineOf : α → Line} {l l' : Line} {r : FaultReason} (h : l.drive <+: l'.drive) :
    Grows lineOf l (.fault (.channel r l') : Out α) :=
  ⟨nofun, fun _ _ e => by cases e; exact h⟩

theorem grows_refused {α : Type} {lineOf : α → Line} {l : Line} {r : Refusal} : Grows lineOf l (.refused r : Out α) :=
  ⟨nofun, nofun⟩

theorem grows_andThen {α β : Type} {f : α → Line} {g : β → Line} {l : Line} {x : Out α} {k : α → Out β}
    (hx : Grows f l x) (hk : ∀ a, x = .next a → Grows g (f a) (k a)) : Grows g l (andThen x k) := by
  cases x with
  | next a =>
    have h := hx.next a rfl
    exact ⟨fun b e => h.trans ((hk a rfl).next b e), fun r l' e => h.trans ((hk a rfl).fault r l' e)⟩
  | fault r => exact ⟨nofun, fun r' l' e => hx.fault r' l' (by cases e; rfl)⟩
  | refused r => exact grows_refused

/-- A link that does not move the line. -/
theorem grows_pure {α β : Type} {g : β → Line} {l : Line} {x : Out α} {k : α → Out β}
    (hx : ∀ r l', x ≠ .fault (.channel r l')) (hk : ∀ a, Grows g l (k a)) : Grows g l (andThen x k) := by
  cases x with
  | next a => exact hk a
  | fault r => exact ⟨nofun, fun r' l' e => absurd (by cases e; rfl) (hx r' l')⟩
  | refused r => exact grows_refused

/-! ### The line -/

theorem transportRead_grows (l : Line) (m : Nat) : Grows Prod.fst l (transportRead l m) := by
  unfold transportRead
  split
  · exact grows_next (List.prefix_refl _)
  · exact grows_next (List.prefix_refl _)
  · exact grows_channel (List.prefix_refl _)
  · exact grows_next (List.prefix_refl _)

theorem transportWrite_grows (l : Line) (bs : List Byte) : Grows id l (transportWrite l bs) := by
  unfold transportWrite
  split
  · exact grows_next (List.prefix_append _ _)
  · split
    · exact grows_channel (List.prefix_append _ _)
    · exact grows_next (List.prefix_append _ _)
  · exact grows_channel (List.prefix_append _ _)

theorem readPins_grows (l : Line) : Grows Prod.fst l (readPins l) := by
  unfold readPins
  split
  · exact grows_next (List.prefix_refl _)
  · exact grows_next (List.prefix_refl _)
  · exact grows_channel (List.prefix_refl _)

theorem changeMode_grows (l : Line) : Grows id l (changeMode l) := by
  unfold changeMode
  split
  · exact grows_next (List.prefix_refl _)
  · exact grows_next (List.prefix_refl _)
  · exact grows_channel (List.prefix_refl _)

theorem bringUp_grows (l : Line) : Grows id l (bringUp l) :=
  grows_andThen (changeMode_grows l) fun l _ => grows_andThen (changeMode_grows l) fun l _ =>
  grows_andThen (changeMode_grows l) fun l _ => changeMode_grows l

/-! ### The channel -/

theorem ringPushAll_no_channel (r : RxRing) (bs : List Byte) (x : FaultReason) (l : Line) :
    ringPushAll r bs ≠ .fault (.channel x l) := by
  induction bs generalizing r with
  | nil => nofun
  | cons b bs ih =>
    rw [ringPushAll]
    unfold ringPush
    split
    · nofun
    · split
      · nofun
      · exact ih _

theorem fill_grows (c : Channel) : Grows (fun p => p.1.line) c.line (fill c) :=
  grows_andThen (transportRead_grows c.line c.pending) fun p _ =>
    grows_pure (ringPushAll_no_channel c.ring p.2) fun _ => grows_next (List.prefix_refl _)

theorem fillUntil_grows (done : Channel → Bool) (k : Nat) (c : Channel) :
    Grows Channel.line c.line (fillUntil done k c) := by
  induction k generalizing c with
  | zero =>
    rw [fillUntil]
    split
    · exact grows_next (List.prefix_refl _)
    · refine grows_andThen (fill_grows c) fun p _ => ?_
      split
      · exact grows_next (List.prefix_refl _)
      · exact ⟨nofun, nofun⟩
  | succ k ih =>
    rw [fillUntil]
    split
    · exact grows_next (List.prefix_refl _)
    · exact grows_andThen (fill_grows c) fun p _ => ih p.1

theorem flushLoop_grows (k : Nat) (c : Channel) (bs : List Byte) : Grows Channel.line c.line (flushLoop k c bs) := by
  induction k generalizing c bs with
  | zero => exact grows_next (List.prefix_refl _)
  | succ k ih =>
    cases bs with
    | nil => exact grows_next (List.prefix_refl _)
    | cons b bs =>
      exact grows_andThen (fillUntil_grows hasRoom _ c) fun c1 _ =>
        grows_andThen (transportWrite_grows c1.line _) fun l _ =>
          ih { c1 with line := l, pending := c1.pending + min (Config.fifoChunk - c1.pending) (b :: bs).length } _

theorem flush_grows (c : Channel) : Grows Channel.line c.line (flush c) := flushLoop_grows _ _ _

theorem flushAndClear_grows (c : Channel) : Grows Channel.line c.line (flushAndClear c) :=
  grows_andThen (flush_grows c) fun _ _ => grows_next (List.prefix_refl _)

theorem stageByte_grows (disc : Bool) (c : Channel) (b : Byte) : Grows Channel.line c.line (stageByte disc c b) := by
  unfold stageByte
  split
  · exact ⟨nofun, nofun⟩
  · dsimp only
    split
    · exact flushAndClear_grows { c with
        tx := { buf := memWrite c.tx.buf c.tx.len b, len := c.tx.len + 1 }
        discard := if disc then c.discard + 1 else c.discard
        echoes := if disc then (c.line.taken + c.pending + c.tx.len) :: c.echoes else c.echoes }
    · exact grows_next (List.prefix_refl _)

theorem stageAll_grows (disc : Bool) (c : Channel) (bs : List Byte) : Grows Channel.line c.line (stageAll disc c bs) := by
  induction bs generalizing c with
  | nil => exact grows_next (List.prefix_refl _)
  | cons b bs ih => exact grows_andThen (stageByte_grows disc c b) fun c1 _ => ih c1

theorem takeByte_grows (c : Channel) : Grows (fun p => p.1.line) c.line (takeByte c) :=
  grows_andThen (fillUntil_grows hasByte _ c) fun c1 _ => by
    split
    · exact ⟨nofun, nofun⟩
    · exact grows_next (List.prefix_refl _)

theorem dropDiscards_grows (k : Nat) (c : Channel) : Grows Channel.line c.line (dropDiscards k c) := by
  induction k generalizing c with
  | zero => exact grows_next (List.prefix_refl _)
  | succ k ih =>
    exact grows_andThen (takeByte_grows c) fun p _ => by
      split
      · exact ih { p.1 with discard := p.1.discard - 1 }
      · exact ih { p.1 with aside := p.1.aside ++ [p.2] }

theorem consumeDiscards_grows (c : Channel) : Grows Channel.line c.line (consumeDiscards c) :=
  grows_andThen (dropDiscards_grows _ c) fun _ _ => grows_next (List.prefix_refl _)

theorem takeAsked_grows (c : Channel) : Grows (fun p => p.1.line) c.line (takeAsked c) := by
  unfold takeAsked
  split
  · exact grows_next (List.prefix_refl _)
  · exact takeByte_grows c

theorem dropCopies_grows (k : Nat) (c : Channel) : Grows Channel.line c.line (dropCopies k c) := by
  induction k generalizing c with
  | zero => exact grows_next (List.prefix_refl _)
  | succ k ih => exact grows_andThen (takeAsked_grows c) fun p _ => ih p.1

theorem takeLogical_grows (m n : Nat) (c : Channel) : Grows (fun p => p.1.line) c.line (takeLogical m n c) := by
  induction n generalizing c with
  | zero => exact grows_next (List.prefix_refl _)
  | succ n ih =>
    exact grows_andThen (takeAsked_grows c) fun p _ =>
      grows_andThen (dropCopies_grows (m - 1) p.1) fun c1 _ =>
      grows_andThen (ih c1) fun q _ => grows_next (List.prefix_refl _)

theorem recvBytes_grows (m n : Nat) (c : Channel) : Grows (fun p => p.1.line) c.line (recvBytes m n c) :=
  grows_andThen (flushAndClear_grows c) fun c1 _ =>
    grows_andThen (fill_grows c1) fun p _ =>
    grows_andThen (consumeDiscards_grows p.1) fun c2 _ => takeLogical_grows m n c2

theorem drainChannel_grows (c : Channel) : Grows Channel.line c.line (drainChannel c) :=
  grows_andThen (flushAndClear_grows c) fun c1 _ =>
    grows_andThen (changeMode_grows c1.line) fun l _ =>
    grows_andThen (changeMode_grows l) fun _ _ => grows_next (List.prefix_refl _)

/-! ### Drive buffers -/

/-- The line of a state. -/
abbrev lineOf (s : State) : Line := s.chan.line

theorem sendDrive_grows (d : Drive) (disc : Bool) (s : State) : Grows lineOf s.chan.line (sendDrive d disc s) :=
  grows_andThen (stageAll_grows disc s.chan _) fun _ _ => grows_next (List.prefix_refl _)

theorem exchange_grows (d : Drive) (s : State) : Grows (fun p => lineOf p.1) s.chan.line (exchange d s) :=
  grows_andThen (sendDrive_grows d false s) fun t _ =>
    grows_andThen (recvBytes_grows _ _ t.chan) fun _ _ => grows_next (List.prefix_refl _)

theorem transmitAll_grows (bs : List Byte) (s : State) : Grows lineOf s.chan.line (transmitAll bs s) := by
  induction bs generalizing s with
  | nil => exact grows_next (List.prefix_refl _)
  | cons b bs ih => exact grows_andThen (sendDrive_grows _ _ s) fun t _ => ih t

theorem receive_grows (s : State) : Grows (fun p => lineOf p.1) s.chan.line (receive s) :=
  by
  rw [receive]
  exact grows_andThen (exchange_grows _ s) fun _ _ => grows_next (List.prefix_refl _)

theorem receiveAll_grows (n : Nat) (res : List Byte) (s : State) : Grows lineOf s.chan.line (receiveAll n res s) := by
  induction n generalizing s res with
  | zero => exact grows_next (List.prefix_refl _)
  | succ n ih =>
    rw [receiveAll]
    refine grows_andThen (receive_grows s) fun p _ => ?_
    split
    · exact ih _ _
    · exact grows_next (List.prefix_refl _)

end Sys2Proof.Machine
end

