-- ==== Sys2Proof/Laws/PerInstr.lean ====
section
/-! SUPPORT. What holds of every operation as syntax: family `SelectorByte`. -/

/-- The packet of an operation begins with its selector, which is one the opcode table assigns and which the decoder looks for
in bits 4 to 0 (R84). -/
def Sys2Proof.Laws.SelectorByte.Statement (i : Sys2Proof.Instr) : Prop :=
  Sys2Proof.selector i < 0x17 ∧
  ∃ bs, Sys2Proof.encode i = BitVec.ofNat 8 (Sys2Proof.selector i) :: bs ∧
    ∀ rest, Sys2Proof.decode (Sys2Proof.encode i ++ rest) = Sys2Proof.decodeOperands (Sys2Proof.selector i) (bs ++ rest)

namespace Sys2Proof.Laws.SelectorByte

theorem setBits (v : Byte) (pin : Pin) (x : Nat) : Statement (.setBits v pin x) := ⟨of_decide_eq_true rfl, _, rfl, fun _ => rfl⟩
theorem getBits (v : Byte) (pin : Pin) : Statement (.getBits v pin) := ⟨of_decide_eq_true rfl, _, rfl, fun _ => rfl⟩
theorem setPin (pin : Pin) (x : Nat) : Statement (.setPin pin x) := ⟨of_decide_eq_true rfl, _, rfl, fun _ => rfl⟩
theorem getPin (pin : Pin) : Statement (.getPin pin) := ⟨of_decide_eq_true rfl, _, rfl, fun _ => rfl⟩
theorem cell (x : Bool) : Statement (.cell x) := ⟨of_decide_eq_true rfl, _, rfl, fun _ => rfl⟩
theorem setData (b : Byte) : Statement (.setData b) := ⟨of_decide_eq_true rfl, _, rfl, fun _ => rfl⟩
theorem closeStretch : Statement (.closeStretch) := ⟨of_decide_eq_true rfl, _, rfl, fun _ => rfl⟩
theorem closeIdle : Statement (.closeIdle) := ⟨of_decide_eq_true rfl, _, rfl, fun _ => rfl⟩
theorem extractData (rx : List Byte) (w : Nat) : Statement (.extractData rx w) := ⟨of_decide_eq_true rfl, _, rfl, fun _ => rfl⟩
theorem cmd (c : Cmd) : Statement (.cmd c) := ⟨of_decide_eq_true rfl, _, rfl, fun _ => rfl⟩
theorem fragEncode (cmds : List Cmd) (last : Bool) : Statement (.fragEncode cmds last) := ⟨of_decide_eq_true rfl, _, rfl, fun _ => rfl⟩
theorem fragExtract (rx : List Byte) (ws : List Nat) : Statement (.fragExtract rx ws) := ⟨of_decide_eq_true rfl, _, rfl, fun _ => rfl⟩
theorem tpiFrame (b : Byte) : Statement (.tpiFrame b) := ⟨of_decide_eq_true rfl, _, rfl, fun _ => rfl⟩
theorem tpiTx (b : Byte) : Statement (.tpiTx b) := ⟨of_decide_eq_true rfl, _, rfl, fun _ => rfl⟩
theorem tpiRx : Statement (.tpiRx) := ⟨of_decide_eq_true rfl, _, rfl, fun _ => rfl⟩
theorem tpiDecode (res : Word16) : Statement (.tpiDecode res) := ⟨of_decide_eq_true rfl, _, rfl, fun _ => rfl⟩
theorem cmdTpi (cmd : List Byte) (resLen : Nat) : Statement (.cmdTpi cmd resLen) := ⟨of_decide_eq_true rfl, _, rfl, fun _ => rfl⟩
theorem send (bytes : List Byte) (discard : Bool) : Statement (.send bytes discard) := ⟨of_decide_eq_true rfl, _, rfl, fun _ => rfl⟩
theorem flush : Statement (.flush) := ⟨of_decide_eq_true rfl, _, rfl, fun _ => rfl⟩
theorem fill : Statement (.fill) := ⟨of_decide_eq_true rfl, _, rfl, fun _ => rfl⟩
theorem recv (n : Nat) : Statement (.recv n) := ⟨of_decide_eq_true rfl, _, rfl, fun _ => rfl⟩
theorem drain : Statement (.drain) := ⟨of_decide_eq_true rfl, _, rfl, fun _ => rfl⟩
theorem usleep (us : Nat) : Statement (.usleep us) := ⟨of_decide_eq_true rfl, _, rfl, fun _ => rfl⟩

end Sys2Proof.Laws.SelectorByte
end

