-- ==== Sys2Proof/Laws/Starved.lean ====
section
/-! SUPPORT. The transport that never delivers a sample again (R138, U8): reads give nothing, what the ring holds can still be
taken, and a receive of more than that is stuck. -/

namespace Sys2Proof.Machine

/-- No sample ever comes again. -/
def Line.starved (l : Line) : Prop := ∃ rest, l.reads = .starved :: rest

theorem fill_starved {c : Channel} (h : c.line.starved) : fill c = .next (c, 0) := by
  obtain ⟨rest, h⟩ := h
  rw [fill, transportRead_starved h]
  rfl

/-- A blocking fill that needs a sample is stuck. -/
theorem fillUntil_starved {done : Channel → Bool} {k : Nat} {c : Channel} (h : c.line.starved) (hd : done c = false) :
    fillUntil done k c = .fault .stuck := by
  induction k with
  | zero => simp [fillUntil, hd, fill_starved h]
  | succ k ih => simp [fillUntil, hd, fill_starved h, ih]

theorem fillUntil_done {done : Channel → Bool} {k : Nat} {c : Channel} (hd : done c = true) :
    fillUntil done k c = .next c := by
  cases k <;> simp [fillUntil, hd]

/-- The flush loop writes what the chip has room for; it ends, or is stuck for want of room. -/
theorem flushLoop_starved {k : Nat} {c : Channel} {bs : List Byte} (h : c.line.starved)
    (hw : ∀ w ∈ c.line.writes, w.whole = true) :
    flushLoop k c bs = .fault .stuck ∨
      ∃ c', flushLoop k c bs = .next c' ∧ c'.ring = c.ring ∧ c'.debts = c.debts ∧ c'.line.starved ∧
        c'.line.taken = c.line.taken := by
  induction k generalizing c bs with
  | zero => exact .inr ⟨c, rfl, rfl, rfl, h, rfl⟩
  | succ k ih =>
    cases bs with
    | nil => exact .inr ⟨c, rfl, rfl, rfl, h, rfl⟩
    | cons b bs =>
      cases hr : hasRoom c with
      | false => exact .inl (by simp [flushLoop, fillUntil_starved h hr])
      | true =>
        obtain ⟨l, hl⟩ := transportWrite_whole hw
          (bs := (b :: bs).take (min (Config.fifoChunk - c.pending) (b :: bs).length)) (by
            rw [List.length_take]
            omega)
        simp only [flushLoop, fillUntil_done hr, andThen_next, hl]
        obtain rfl := transportWrite_next hl
        exact ih h fun w hm => hw w (List.mem_of_mem_tail hm)

/-- The take of a byte the ring holds. -/
theorem takeByte_held {c : Channel} (hl : 0 < c.ring.len) (hr : c.ring.rd < Config.rxCapacity) :
    takeByte c = .next ({ c with ring := { c.ring with rd := (c.ring.rd + 1) % Config.rxCapacity, len := c.ring.len - 1 } },
      memRead c.ring.buf c.ring.rd) := by
  rw [takeByte, fillUntil_done (by simp only [hasByte, decide_eq_true_eq]; omega), andThen_next, if_neg (by omega)]

theorem takeByte_starved {c : Channel} (h : c.line.starved) (hl : c.ring.len = 0) : takeByte c = .fault .stuck := by
  simp [takeByte, fillUntil_starved h (show hasByte c = false by simp [hasByte, hl])]

/-- The ring's read index after a take is in range. -/
theorem rd_lt (n : Nat) : n % Config.rxCapacity < Config.rxCapacity := Nat.mod_lt _ (by decide)

/-- What can still be taken: what was set aside and what the ring holds. -/
def Channel.inHand (c : Channel) : Nat := c.aside.length + c.ring.len

/-- The channel after the take of a byte its ring holds. -/
def popped (c : Channel) : Channel :=
  { c with ring := { c.ring with rd := (c.ring.rd + 1) % Config.rxCapacity, len := c.ring.len - 1 } }

/-- The take of a sample asked for, from what is in hand; with nothing in hand it is stuck. -/
theorem takeAsked_starved {c : Channel} (h : c.line.starved) (hr : c.ring.rd < Config.rxCapacity) :
    (c.inHand = 0 ∧ takeAsked c = .fault .stuck) ∨
      ∃ p, takeAsked c = .next p ∧ p.1.line = c.line ∧ p.1.inHand + 1 = c.inHand ∧ p.1.ring.rd < Config.rxCapacity := by
  unfold takeAsked
  split
  · rename_i b rest ha
    refine .inr ⟨_, rfl, rfl, ?_, hr⟩
    show rest.length + c.ring.len + 1 = _
    rw [Channel.inHand, ha, List.length_cons]
    omega
  · rename_i ha
    rcases Nat.eq_zero_or_pos c.ring.len with hl | hl
    · exact .inl ⟨by rw [Channel.inHand, ha, hl]; rfl, takeByte_starved h hl⟩
    · refine .inr ⟨_, takeByte_held hl hr, rfl, ?_, rd_lt _⟩
      show c.aside.length + (c.ring.len - 1) + 1 = c.aside.length + c.ring.len
      omega

theorem dropCopies_starved {k : Nat} {c : Channel} (h : c.line.starved) (hr : c.ring.rd < Config.rxCapacity) :
    dropCopies k c = .fault .stuck ∨
      ∃ c', dropCopies k c = .next c' ∧ c'.line = c.line ∧ c'.inHand + k = c.inHand ∧ c'.ring.rd < Config.rxCapacity := by
  induction k generalizing c with
  | zero => exact .inr ⟨c, rfl, rfl, rfl, hr⟩
  | succ k ih =>
    rcases takeAsked_starved h hr with ⟨-, h1⟩ | ⟨p, h1, h2, h3, h4⟩
    · exact .inl (by simp [dropCopies, h1])
    · simp only [dropCopies, h1, andThen_next]
      rcases ih (c := p.1) (h2 ▸ h) h4 with h5 | ⟨c', h5, h6, h7, h8⟩
      · exact .inl h5
      · exact .inr ⟨c', h5, h6.trans h2, by omega, h8⟩

theorem takeLogical_starved {m n : Nat} (hm : 1 ≤ m) {c : Channel} (h : c.line.starved)
    (hr : c.ring.rd < Config.rxCapacity) (hn : c.inHand < m * n) : takeLogical m n c = .fault .stuck := by
  induction n generalizing c with
  | zero => omega
  | succ n ih =>
    rw [Nat.mul_succ] at hn
    rcases takeAsked_starved h hr with ⟨-, h1⟩ | ⟨p, h1, h2, h3, h4⟩
    · simp [takeLogical, h1]
    · rcases dropCopies_starved (k := m - 1) (c := p.1) (h2 ▸ h) h4 with h5 | ⟨c', h5, h6, h7, h8⟩
      · simp [takeLogical, h1, h5]
      · simp [takeLogical, h1, h5, ih (c := c') (h6 ▸ h2 ▸ h) h8 (by omega)]

theorem dropDiscards_starved {k : Nat} {c : Channel} (h : c.line.starved) (hr : c.ring.rd < Config.rxCapacity)
    (ht : c.ring.len ≤ c.line.taken) :
    dropDiscards k c = .fault .stuck ∨
      ∃ c', dropDiscards k c = .next c' ∧ c'.line = c.line ∧ c'.ring.rd < Config.rxCapacity ∧
        c'.inHand + ((List.range' c.handed k).filter fun i => decide (i ∈ c.echoes)).length = c.inHand := by
  induction k generalizing c with
  | zero => exact .inr ⟨c, rfl, rfl, hr, rfl⟩
  | succ k ih =>
    rcases Nat.eq_zero_or_pos c.ring.len with hl | hl
    · exact .inl (by simp [dropDiscards, takeByte_starved h hl])
    · have hh : (popped c).handed = c.handed + 1 := by
        show c.line.taken - (c.ring.len - 1) = c.line.taken - c.ring.len + 1
        omega
      simp only [dropDiscards, takeByte_held hl hr, andThen_next]
      rw [List.range'_succ]
      split
      · rename_i hm
        rcases ih (c := { popped c with discard := c.discard - 1 }) h (rd_lt _)
          (show c.ring.len - 1 ≤ c.line.taken by omega) with h1 | ⟨c', h1, h2, h3, h4⟩
        · exact .inl h1
        · have h5 : c'.inHand + ((List.range' (popped c).handed k).filter fun i => decide (i ∈ c.echoes)).length =
              c.aside.length + (c.ring.len - 1) := h4
          rw [hh] at h5
          refine .inr ⟨c', h1, h2, h3, ?_⟩
          rw [List.filter_cons_of_pos (by simpa using hm), List.length_cons]
          unfold Channel.inHand at *
          omega
      · rename_i hm
        rcases ih (c := { popped c with aside := c.aside ++ [memRead c.ring.buf c.ring.rd] }) h (rd_lt _)
          (show c.ring.len - 1 ≤ c.line.taken by omega) with h1 | ⟨c', h1, h2, h3, h4⟩
        · exact .inl h1
        · have h5 : c'.inHand + ((List.range' (popped c).handed k).filter fun i => decide (i ∈ c.echoes)).length =
              (c.aside ++ [memRead c.ring.buf c.ring.rd]).length + (c.ring.len - 1) := h4
          rw [hh, List.length_append, List.length_singleton] at h5
          refine .inr ⟨c', h1, h2, h3, ?_⟩
          rw [List.filter_cons_of_neg (by simpa using hm)]
          unfold Channel.inHand at *
          omega

theorem consumeDiscards_starved {c : Channel} (h : c.line.starved) (hr : c.ring.rd < Config.rxCapacity)
    (ht : c.ring.len ≤ c.line.taken) (he : c.echoes.length = c.discard) (hp : c.echoes.Pairwise fun a b => b < a)
    (hb : ∀ e ∈ c.echoes, c.handed ≤ e) :
    consumeDiscards c = .fault .stuck ∨
      ∃ c', consumeDiscards c = .next c' ∧ c'.line = c.line ∧ c'.ring.rd < Config.rxCapacity ∧
        c'.inHand + c.discard = c.inHand := by
  unfold consumeDiscards
  rcases dropDiscards_starved (k := echoSpan c) h hr ht with h1 | ⟨c', h1, h2, h3, h4⟩
  · exact .inl (by simp [h1])
  · refine .inr ⟨{ c' with echoes := [] }, by rw [h1]; rfl, h2, h3, ?_⟩
    rw [filter_mem_length hp fun x hx => echoes_in_span hp hb hx, he] at h4
    exact h4

/-- A receive of more than is in hand is stuck, whatever is staged. -/
theorem recvBytes_starved {m n : Nat} (hm : 1 ≤ m) {c : Channel} (h : c.line.starved) (hc : c.wf)
    (hw : ∀ w ∈ c.line.writes, w.whole = true)
    (hn : c.inHand < c.discard + m * n) : recvBytes m n c = .fault .stuck := by
  rw [recvBytes, flushAndClear, flush]
  rcases flushLoop_starved (k := c.tx.len) (bs := staged c.tx) h hw with h1 | ⟨c1, h1, h2, h3, h4, h5⟩
  · simp [h1]
  · simp only [h1, andThen_next]
    have hs : (clearTx c1).line.starved := h4
    simp only [fill_starved hs, andThen_next]
    have hring : (clearTx c1).ring = c.ring := h2
    obtain ⟨hd, he⟩ := Prod.mk.inj (show (clearTx c1).debts = c.debts from h3)
    obtain ⟨he, ha⟩ := Prod.mk.inj he
    have hh : (clearTx c1).handed = c.handed := by
      show c1.line.taken - c1.ring.len = _
      rw [h2, h5]
      rfl
    obtain ⟨-, hlen, hp, hb⟩ := hc.debts
    rcases consumeDiscards_starved hs (by rw [hring]; exact hc.core.ring.2.2.1)
      (by rw [hring]; exact Nat.le_trans hc.core.held (Nat.le_of_eq h5.symm)) (by rw [he, hd, hlen]) (by rw [he]; exact hp)
      (by rw [he, hh]; exact fun e hm => (hb e hm).1) with h6 | ⟨c2, h6, h7, h8, h9⟩
    · simp [h6]
    · have hin : (clearTx c1).inHand = c.inHand := by rw [Channel.inHand, ha, hring]; rfl
      simp [h6, takeLogical_starved (n := n) hm (c := c2) (h7 ▸ hs) h8 (by omega)]

end Sys2Proof.Machine
end

