-- ==== Sys2Proof/Laws/Tpi.lean ====
section
/-! SUPPORT. The frames and windows of TPI (R116, R117, R119): what sending frames and receiving windows can do, said once
each, and when they complete. -/

namespace Sys2Proof.Machine

/-! ### Words -/

/-- Every bit of the word of given cells: the cell, or 1 after the last (R121). -/
theorem wordOfCells_getLsbD (cells : List Bool) (k : Nat) (hk : k < 16) :
    (wordOfCells cells).getLsbD k = cells.getD k true := assembleWord_getLsbD _ k hk

/-! ### Sending frames -/

/-- The drive bytes of frames, one after the other. -/
def framesBytes (pm : PinMap) (o : Byte) (bs : List Byte) : List Byte := bs.flatMap fun b => cellsBytes pm o (tpiFrame b)

theorem cellsBytes_base {pm : PinMap} (h : Legal pm) (o : Byte) (x c : Bool) (xs : List Bool) :
    cellsBytes pm (base pm o x c) xs = cellsBytes pm o xs := by
  unfold cellsBytes
  congr 1
  funext y
  simp [cellBytes, base_base h]

theorem framesBytes_base {pm : PinMap} (h : Legal pm) (o : Byte) (x c : Bool) (bs : List Byte) :
    framesBytes pm (base pm o x c) bs = framesBytes pm o bs := by
  unfold framesBytes
  congr 1
  funext b
  exact cellsBytes_base h o x c _

/-- All that the transmits of `cmd_tpi` can do. -/
theorem transmitAll_next {bs : List Byte} {s t : State} (hc : s.chan.wf) (h : transmitAll bs s = .next t) :
    ∃ (c : Channel) (o : Byte) (ds : List Byte), t = (s.setOut o).setChan c ∧
      Sent true s.chan c (repeated s.baudMultiplier ds) ∧ ds.length = 24 * bs.length ∧ Holds s.pinMap s.out ⟨o, ds⟩ ∧
      (Legal s.pinMap → o = (if bs = [] then s.out else base s.pinMap s.out true true) ∧
        ds = framesBytes s.pinMap s.out bs) := by
  induction bs generalizing s with
  | nil =>
    obtain rfl : s = t := by cases h; rfl
    exact ⟨s.chan, s.out, [], rfl, .refl hc, rfl, holds_start _ _, fun _ => ⟨rfl, rfl⟩⟩
  | cons b bs ih =>
    obtain ⟨s1, h1, h⟩ := andThen_eq_next h
    obtain ⟨c1, rfl, hs⟩ := sendDrive_next hc h1
    obtain ⟨c, o, ds, rfl, hs2, hlen, hh, hleg⟩ := ih hs.wf h
    have hh1 := (holds_start s.pinMap s.out).emitCells (tpiFrame b)
    refine ⟨c, o, (emitCells s.pinMap (tpiFrame b) (startDrive s.out)).buf ++ ds, rfl, ?_, ?_, ?_, fun hl => ?_⟩
    · rw [show repeated s.baudMultiplier _ = _ from List.flatMap_append]
      exact hs.trans hs2
    · rw [List.length_append, hlen, emitCells_length]
      simp only [startDrive, tpiFrame_length, List.length_cons, List.length_nil]
      omega
    · refine ⟨hh.out.trans hh1.out, fun x hx => ?_⟩
      rcases List.mem_append.mp hx with hx | hx
      · exact hh1.buf x hx
      · exact (hh.buf x hx).trans hh1.out
    · obtain ⟨ho, hd⟩ := hleg hl
      rw [ho, hd]
      simp only [setChan_out, setOut_out, setChan_pinMap, setOut_pinMap, tpiTxDrive_eq hl, base_base hl, framesBytes_base hl]
      exact ⟨by split <;> rfl, rfl⟩

theorem transmitAll_completes {bs : List Byte} {s : State} (hc : s.chan.wf) (hl : s.chan.line.healthy)
    (hr : s.chan.room (s.baudMultiplier * (24 * bs.length))) : ∃ t, transmitAll bs s = .next t := by
  induction bs generalizing s with
  | nil => exact ⟨s, rfl⟩
  | cons b bs ih =>
    have hlen : (emitCells s.pinMap (tpiFrame b) (startDrive s.out)).buf.length = 24 := by
      rw [emitCells_length]; rfl
    simp only [List.length_cons, Nat.mul_add, Nat.mul_one, Channel.room] at hr
    obtain ⟨t, h1⟩ := sendDrive_completes (d := emitCells s.pinMap (tpiFrame b) (startDrive s.out)) (disc := true) hc hl
      (by rw [hlen]; unfold Channel.room; omega)
    obtain ⟨c1, rfl, hs⟩ := sendDrive_next hc h1
    have ho := hs.owed hc
    rw [repeated_length, hlen] at ho
    obtain ⟨u, h2⟩ := ih (s := (s.setOut (emitCells s.pinMap (tpiFrame b) (startDrive s.out)).out).setChan c1) hs.wf (hs.passed.healthy hl) (by
      show c1.owed + c1.aside.length + s.baudMultiplier * (24 * bs.length) ≤ _
      rw [hs.aside]
      omega)
    exact ⟨u, by rw [transmitAll, transmit, h1, andThen_next, h2]⟩

/-! ### Receiving windows -/

/-- What receiving `n` windows does to the channel, the `i`-th giving the word `word i`: their samples are behind the queue. -/
structure Windows (pm : PinMap) (m : Nat) (c c' : Channel) (n : Nat) (word : Nat → Word16) : Prop where
  passed  : Passed c c'
  wf      : c'.wf
  handed  : c'.handed + c.aside.length = c.handed + c.discard + m * (32 * n) + c'.aside.length
  debts   : c'.debts = (0, [], c'.aside)
  txLen   : c'.tx.len = 0
  words   : ∀ i j, i < n → j < 16 → (word i).getLsbD j = getBits
              ((c.queue ++ c'.samplesFrom c.stream.length (m * (32 * n))).getD (m * (32 * i + 2 * j + 1)) 0) pm.sdi
  queue   : c'.queue = (c.queue ++ c'.samplesFrom c.stream.length (m * (32 * n))).drop (m * (32 * n))
  txKept  : ∀ a, (∀ j, j < m * 32 → a ≠ (c.tx.len + j) % Config.fifoChunk) →
              (2 ≤ n → ∀ j, j < m * 32 → a ≠ j % Config.fifoChunk) → memRead c'.tx.buf a = memRead c.tx.buf a

/-- All that a receive can do. -/
theorem receive_next {s : State} {p : State × Except TpiCause Byte} (hm : 1 ≤ s.baudMultiplier) (hc : s.chan.wf)
    (ho : s.chan.inOrder) (h : receive s = .next p) :
    ∃ (c : Channel) (o : Byte) (ds : List Byte) (word : Word16), p.1 = (s.setOut o).setChan c ∧ p.2 = tpiDecode word ∧
      Windows s.pinMap s.baudMultiplier s.chan c 1 (fun _ => word) ∧
      c.stream = s.chan.stream ++ repeated s.baudMultiplier ds ∧ ds.length = 32 ∧ Holds s.pinMap s.out ⟨o, ds⟩ ∧
      (Legal s.pinMap → o = base s.pinMap s.out true true ∧
        ds = cellsBytes s.pinMap s.out (List.replicate 16 true)) := by
  rw [receive] at h
  obtain ⟨q, h1, h⟩ := andThen_eq_next h
  obtain rfl : (q.1, tpiDecode (tpiWord q.1.pinMap q.2)) = p := Host.Outcome.next.inj h
  obtain ⟨c, hq, hx, hv⟩ := exchange_next hm hc ho h1
  have hlen : (emitCells s.pinMap (List.replicate Config.tpiRxCells true) (startDrive s.out)).buf.length = 32 := by
    rw [emitCells_length]
    rfl
  rw [hlen] at hx hv
  have hl32 : (repeated s.baudMultiplier
      (emitCells s.pinMap (List.replicate Config.tpiRxCells true) (startDrive s.out)).buf).length = s.baudMultiplier * 32 := by
    rw [repeated_length, hlen]
  have hpm : q.1.pinMap = s.pinMap := by rw [hq]; rfl
  refine ⟨c, _, _, tpiWord s.pinMap q.2, hq, by rw [hpm], ?_, hx.stream, hlen,
    (holds_start s.pinMap s.out).emitCells _, fun hl => ?_⟩
  · exact
      { passed := hx.passed
        wf := hx.wf
        handed := by rw [Nat.mul_one]; exact hx.handed
        debts := hx.debts
        queue := by
          have := hx.queue
          rwa [hl32] at this
        txLen := hx.txLen
        words := fun i j hi hj => by
          obtain rfl : i = 0 := by omega
          rw [tpiWord_getLsbD _ _ _ hj, hv, firstCopies_getD _ _ (by omega), Nat.mul_zero, Nat.zero_add]
        txKept := fun a ha _ => hx.txKept a (by rwa [repeated_length, hlen]) }
  · rw [tpiRxDrive_eq hl]
    exact ⟨rfl, rfl⟩

theorem receive_completes {s : State} (hm : 1 ≤ s.baudMultiplier) (hc : s.chan.wf) (ho : s.chan.inOrder)
    (hl : s.chan.line.healthy) (hr : s.chan.room (s.baudMultiplier * 32)) : ∃ p, receive s = .next p := by
  have hlen : (emitCells s.pinMap (List.replicate Config.tpiRxCells true) (startDrive s.out)).buf.length = 32 := by
    rw [emitCells_length]
    rfl
  obtain ⟨p, h⟩ := exchange_completes (d := emitCells s.pinMap (List.replicate Config.tpiRxCells true) (startDrive s.out))
    hm hc ho hl (by rwa [hlen])
  exact ⟨(p.1, tpiDecode (tpiWord p.1.pinMap p.2)), by rw [receive]; simp only [h, andThen_next]⟩

/-- One window, then `n` more: the queue, with the samples of all of them behind, less those of the first. -/
theorem windows_queue {m n : Nat} {a b c : Channel} {x y : List Byte}
    (h1 : b.queue = (a.queue ++ b.samplesFrom a.stream.length (m * 32)).drop (m * 32))
    (hs1 : b.stream = a.stream ++ x) (hx : x.length = m * 32) (hs2 : c.stream = b.stream ++ y)
    (hsm : c.line.samples = b.line.samples) :
    b.queue ++ c.samplesFrom b.stream.length (m * (32 * n)) =
      (a.queue ++ c.samplesFrom a.stream.length (m * (32 * (n + 1)))).drop (m * 32) := by
  have hlen : b.stream.length = a.stream.length + m * 32 := by rw [hs1, List.length_append, hx]
  rw [show m * (32 * (n + 1)) = m * 32 + m * (32 * n) by rw [Nat.mul_add, Nat.mul_one, Nat.mul_add, Nat.add_comm],
    samplesFrom_add, ← hlen, ← List.append_assoc, List.drop_append_of_le_length, h1,
    samplesFrom_stable (c := b) (c' := c) (k := a.stream.length) (n := m * 32) hsm (hs2 ▸ List.prefix_append _ _) (by omega)]
  rw [List.length_append, samplesFrom_length]
  omega

/-- One window, then `n` more. -/
theorem Windows.cons {pm : PinMap} {m n : Nat} {a b c : Channel} {w : Word16} {word : Nat → Word16} {x y : List Byte}
    (hm : 1 ≤ m) (hn : 1 ≤ n) (h1 : Windows pm m a b 1 (fun _ => w)) (h2 : Windows pm m b c n word)
    (hs1 : b.stream = a.stream ++ x) (hx : x.length = m * 32) (hs2 : c.stream = b.stream ++ y) :
    Windows pm m a c (n + 1) (fun i => if i = 0 then w else word (i - 1)) where
  passed := h1.passed.trans h2.passed
  wf := h2.wf
  handed := by
    have h := h2.handed
    have h' := h1.handed
    have hd : b.discard = 0 := (Prod.mk.inj h1.debts).1
    rw [hd] at h
    rw [Nat.mul_add 32, Nat.mul_add m]
    omega
  debts := h2.debts
  txLen := h2.txLen
  words := fun i j hi hj => by
    have hq := windows_queue (n := n) (by simpa using h1.queue) hs1 hx hs2 h2.passed.samples
    have hlt : ∀ k, k < m * 32 → (a.queue ++ b.samplesFrom a.stream.length (m * (32 * 1))).getD k 0 =
        (a.queue ++ c.samplesFrom a.stream.length (m * (32 * (n + 1)))).getD k 0 := fun k hk => by
      rw [show m * (32 * (n + 1)) = m * (32 * 1) + m * (32 * n) by rw [Nat.mul_add, Nat.mul_add, Nat.add_comm],
        samplesFrom_add, ← List.append_assoc, samplesFrom_stable (c := b) (c' := c) h2.passed.samples
          (hs2 ▸ List.prefix_append _ _) (by rw [hs1, List.length_append, hx]),
        List.getD_append (a.queue ++ b.samplesFrom a.stream.length (m * (32 * 1)))]
      rw [List.length_append, samplesFrom_length]
      omega
    by_cases hz : i = 0
    · subst hz
      rw [if_pos rfl, h1.words 0 j (by omega) hj, hlt]
      exact Nat.mul_lt_mul_of_pos_left (by omega) hm
    · rw [if_neg hz, h2.words _ j (by omega) hj, hq, List.getD_eq_getElem?_getD, List.getElem?_drop,
        ← List.getD_eq_getElem?_getD, ← Nat.mul_add]
      congr 3
      omega
  queue := by
    have hq := windows_queue (n := n) (by simpa using h1.queue) hs1 hx hs2 h2.passed.samples
    rw [h2.queue, hq, List.drop_drop, ← Nat.mul_add]
    congr 2
    omega
  txKept := fun x h3 h4 => by
    rw [h2.txKept x (fun j hj => ?_) (fun _ => h4 (by omega)), h1.txKept x h3 (fun h => absurd h (by decide))]
    rw [h1.txLen, Nat.zero_add]
    exact h4 (by omega) j hj

/-- All that the receives of `cmd_tpi` can do once there is one to do: `w` windows, `k` of them good. -/
theorem receiveAll_next {n : Nat} {res : List Byte} {s t : State} (hm : 1 ≤ s.baudMultiplier) (hc : s.chan.wf)
    (ho : s.chan.inOrder) (h : receiveAll (n + 1) res s = .next t) :
    ∃ (c : Channel) (o : Byte) (ds : List Byte) (r : Ret) (k w : Nat) (got : List Byte) (word : Nat → Word16),
      t = ((s.setOut o).setChan c).setRet r ∧ 1 ≤ w ∧ Windows s.pinMap s.baudMultiplier s.chan c w word ∧
      got.length = k ∧ (∀ i, i < k → tpiDecode (word i) = .ok (got.getD i 0)) ∧
      ((k = n + 1 ∧ w = n + 1 ∧ r = .bytes (res ++ got)) ∨
        (k < n + 1 ∧ w = k + 1 ∧ ∃ cause, tpiDecode (word k) = .error cause ∧ r = .tpiError cause (res ++ got))) ∧
      c.stream = s.chan.stream ++ repeated s.baudMultiplier ds ∧ ds.length = 32 * w ∧ Holds s.pinMap s.out ⟨o, ds⟩ ∧
      (Legal s.pinMap → o = base s.pinMap s.out true true ∧
        ds = cellsBytes s.pinMap s.out (List.replicate (16 * w) true)) := by
  induction n generalizing res s with
  | zero =>
    obtain ⟨p, h1, h⟩ := andThen_eq_next h
    obtain ⟨c, o, ds, word, hp, hd, hw, hs, hlen, hh, hleg⟩ := receive_next hm hc ho h1
    rw [hp, hd] at h
    cases hdec : tpiDecode word with
    | ok b =>
      rw [hdec] at h
      exact ⟨c, o, ds, .bytes (res ++ [b]), 1, 1, [b], fun _ => word, by cases h; rfl, Nat.le_refl _, hw, rfl,
        fun i hi => by obtain rfl : i = 0 := by omega
                       exact hdec, .inl ⟨rfl, rfl, rfl⟩, hs, hlen, hh, hleg⟩
    | error e =>
      rw [hdec] at h
      exact ⟨c, o, ds, .tpiError e (res ++ []), 0, 1, [], fun _ => word, by cases h; simp, Nat.le_refl _, hw, rfl,
        fun i hi => absurd hi (Nat.not_lt_zero i), .inr ⟨by omega, rfl, e, hdec, rfl⟩, hs, hlen, hh, hleg⟩
  | succ n ih =>
    obtain ⟨p, h1, h⟩ := andThen_eq_next h
    obtain ⟨c, o, ds, word, hp, hd, hw, hs, hlen, hh, hleg⟩ := receive_next hm hc ho h1
    rw [hp, hd] at h
    cases hdec : tpiDecode word with
    | error e =>
      rw [hdec] at h
      exact ⟨c, o, ds, .tpiError e (res ++ []), 0, 1, [], fun _ => word, by cases h; simp, Nat.le_refl _, hw, rfl,
        fun i hi => absurd hi (Nat.not_lt_zero i), .inr ⟨by omega, rfl, e, hdec, rfl⟩, hs, hlen, hh, hleg⟩
    | ok b =>
      rw [hdec] at h
      obtain ⟨c2, o2, ds2, r, k, w, got, word2, rfl, hw1, hw2, hg, hgot, hcase, hs2, hlen2, hh2, hleg2⟩ :=
        ih (s := (s.setOut o).setChan c) hm hw.wf (hw.passed.order ho) h
      refine ⟨c2, o2, ds ++ ds2, r, k + 1, w + 1, b :: got, fun i => if i = 0 then word else word2 (i - 1), rfl, by omega,
        hw.cons hm hw1 hw2 hs (by rw [repeated_length, hlen]) hs2, by rw [List.length_cons, hg], fun i hi => ?_, ?_, ?_, ?_, ?_,
        fun hl => ?_⟩
      · cases i with
        | zero => exact hdec
        | succ i => exact hgot i (by omega)
      · rcases hcase with ⟨rfl, rfl, rfl⟩ | ⟨h1, rfl, e, h2, rfl⟩
        · exact .inl ⟨rfl, rfl, by simp⟩
        · exact .inr ⟨by omega, rfl, e, h2, by simp⟩
      · rw [hs2, show (repeated s.baudMultiplier (ds ++ ds2)) = _ from List.flatMap_append, ← List.append_assoc]
        show c.stream ++ _ = _
        rw [hs]
        rfl
      · rw [List.length_append, hlen, hlen2]
        omega
      · refine ⟨hh2.out.trans hh.out, fun x hx => ?_⟩
        rcases List.mem_append.mp hx with hx | hx
        · exact hh.buf x hx
        · exact (hh2.buf x hx).trans hh.out
      · obtain ⟨ho1, hd1⟩ := hleg hl
        obtain ⟨ho2, hd2⟩ := hleg2 hl
        subst ho1
        simp only [setChan_out, setOut_out, setChan_pinMap, setOut_pinMap, base_base hl, cellsBytes_base hl] at ho2 hd2
        refine ⟨ho2, ?_⟩
        rw [hd1, hd2, Nat.mul_add 16, Nat.mul_one, Nat.add_comm, List.replicate_add]
        simp [cellsBytes]

theorem receiveAll_completes {n : Nat} {res : List Byte} {s : State} (hm : 1 ≤ s.baudMultiplier) (hc : s.chan.wf)
    (ho : s.chan.inOrder) (hl : s.chan.line.healthy) (hr : s.chan.room (s.baudMultiplier * (32 * n))) :
    ∃ t, receiveAll n res s = .next t := by
  induction n generalizing res s with
  | zero => exact ⟨_, rfl⟩
  | succ n ih =>
    simp only [Nat.mul_add, Nat.mul_one, Channel.room] at hr
    obtain ⟨p, h1⟩ := receive_completes hm hc ho hl (by unfold Channel.room; omega)
    obtain ⟨c, o, ds, word, hp, hd, hw, hs, hlen, hh, -⟩ := receive_next hm hc ho h1
    have h2 := hw.wf.core.owed_eq
    have h3 := hc.core.owed_eq
    have h4 := hw.handed
    rw [hs, List.length_append, repeated_length, hlen] at h2
    rw [receiveAll, h1, andThen_next, hp, hd]
    cases tpiDecode word with
    | error e => exact ⟨_, rfl⟩
    | ok b =>
      exact ih (s := (s.setOut o).setChan c) hm hw.wf (hw.passed.order ho) (hw.passed.healthy hl) (by
        show c.owed + c.aside.length + s.baudMultiplier * (32 * n) ≤ _
        omega)

end Sys2Proof.Machine
end

