-- ==== Sys2Proof/Tests/Slice0.lean ====
section
/-! SUPPORT. Tests of the model on single steps, expected results from 95_test_vectors.md (cited by id) or by hand from the rules,
then a witness for the hypotheses of every statement. -/

namespace Sys2Proof.Tests

open Sys2Proof Sys2Proof.Machine

/-! ### Helpers: small states -/

/-- Mapping E2 of 95_test_vectors.md: inverted pins. -/
def e2 : PinMap :=
  { sck := ⟨0x20, false⟩, sdi := ⟨0x40, true⟩, sdo := ⟨0x80, true⟩, reset := ⟨0x08, true⟩, buff := noPin, vcc := noPin,
    led0 := noPin, led1 := noPin, led2 := noPin, led3 := noPin }

/-- An open session with a fresh channel: mapping, multiplier, shadow register, the samples to come. -/
def open1 (pm : PinMap) (m : Nat) (o : Byte) (samples : List Byte) : State :=
  (((State.reset.configure pm (ddrOf pm) m).setSession .opened).setOut o).setChan
    { Channel.reset with line := { Line.reset with samples := samples } }

/-- An open session under E1, fresh. -/
def fresh : State := open1 mappingE1 1 0x10 []

/-- A channel in the middle of things: three bytes written, two samples in the ring, one outstanding, one byte staged, one
discard owed, for the oldest. -/
def busyChan : Channel :=
  { tx := ⟨[(0, 0x15)], 1⟩, ring := ⟨[(0, 0x12), (1, 0x16)], 2, 0, 2⟩, pending := 1, discard := 1,
    echoes := [0], aside := [],
    line := { Line.reset with drive := [0x10, 0x14, 0x15], taken := 2, samples := [0x12, 0x16, 0x17, 0x15] } }

/-- An open session under E1 in the middle of things. -/
def busy : State := fresh.setChan busyChan

/-- What `f` sees of the state an operation ends in. -/
def after {α : Type} (x : Out State) (f : State → α) : Option α :=
  match x with
  | .next t => some (f t)
  | .fault _ => none
  | .refused _ => none

/-- The state with these answers to writes to come. -/
def withWrites (s : State) (ws : List WriteReply) : State := s.setChan { s.chan with line := { s.chan.line with writes := ws } }

/-- The state with these answers to reads to come. -/
def withReads (s : State) (rs : List ReadReply) : State := s.setChan { s.chan with line := { s.chan.line with reads := rs } }

/-! ### Well-formed operands -/

/-- R93: SDI is not for `set_pin`; an output pin is. -/
theorem test_wellFormed_setPin :
    (Instr.setPin .sdi 1).wellFormed = false ∧ (Instr.setPin .reset 1).wellFormed = true := by decide

/-- V10: with 65 received bytes word 3 is legal and word 4 is not; with 64 bytes word 3 is not. -/
theorem test_wellFormed_extractData :
    (Instr.extractData (List.replicate 65 0) 3).wellFormed = true ∧
    (Instr.extractData (List.replicate 65 0) 4).wellFormed = false ∧
    (Instr.extractData (List.replicate 64 0) 3).wellFormed = false := by decide

/-- V10: with 129 received bytes words 0 to 7 are legal, word 8 is not. -/
theorem test_wellFormed_fragExtract :
    (Instr.fragExtract (List.replicate 129 0) [0, 7]).wellFormed = true ∧
    (Instr.fragExtract (List.replicate 129 0) [0, 8]).wellFormed = false := by decide +kernel

/-- R85 (b): 1 to 8 commands. -/
theorem test_wellFormed_fragEncode :
    (Instr.fragEncode [] true).wellFormed = false ∧
    (Instr.fragEncode (List.replicate 9 ⟨0, 0, 0, 0⟩) true).wellFormed = false ∧
    (Instr.fragEncode (List.replicate 8 ⟨0, 0, 0, 0⟩) true).wellFormed = true := by decide

/-! ### Decoding, from packets written out by hand -/

theorem test_decode_pins :
    decode [0x00, 0x15, 0x00, 0x07] = .ok (.setBits 0x15 .sck 7, []) ∧
    decode [0x01, 0x12, 0x02] = .ok (.getBits 0x12 .sdi, []) ∧
    decode [0x02, 0x03, 0x01, 0xAA] = .ok (.setPin .reset 1, [0xAA]) ∧
    decode [0x03, 0x09] = .ok (.getPin .led3, []) := ⟨rfl, rfl, rfl, rfl⟩

theorem test_decode_isp :
    decode [0x04, 0x01] = .ok (.cell true, []) ∧
    decode [0x05, 0xAC] = .ok (.setData 0xAC, []) ∧
    decode [0x06] = .ok (.closeStretch, []) ∧
    decode [0x07] = .ok (.closeIdle, []) ∧
    decode ([0x08, 0x00] ++ List.replicate 17 0x11 ++ [0x03]) = .ok (.extractData (List.replicate 17 0x11) 3, []) ∧
    decode [0x09, 0xAC, 0x53, 0x00, 0x01] = .ok (.cmd ⟨0xAC, 0x53, 0x00, 0x01⟩, []) ∧
    decode [0x0A, 0x01, 0x20, 0x00, 0x00, 0x01, 0x28, 0x00, 0x00, 0x02, 0x01] =
      .ok (.fragEncode [⟨0x20, 0, 0, 1⟩, ⟨0x28, 0, 0, 2⟩] true, []) ∧
    decode [0x0B, 0x02, 0x12, 0x16, 0x01, 0x82, 0x01] = .ok (.fragExtract [0x12, 0x16] [130], []) :=
  ⟨rfl, rfl, rfl, rfl, rfl, rfl, rfl, rfl⟩

theorem test_decode_tpi :
    decode [0x0C, 0x8F] = .ok (.tpiFrame 0x8F, []) ∧
    decode [0x0D, 0x07] = .ok (.tpiTx 0x07, []) ∧
    decode [0x0E] = .ok (.tpiRx, []) ∧
    decode [0x0F, 0x03, 0xFC] = .ok (.tpiDecode 0xFC03, []) ∧
    decode [0x10, 0x02, 0x8F, 0x24, 0x03] = .ok (.cmdTpi [0x8F, 0x24] 3, []) := ⟨rfl, rfl, rfl, rfl, rfl⟩

theorem test_decode_channel :
    decode [0x11, 0x02, 0xA1, 0xB2, 0x00] = .ok (.send [0xA1, 0xB2] false, []) ∧
    decode [0x12] = .ok (.flush, []) ∧
    decode [0x13] = .ok (.fill, []) ∧
    decode [0x14, 0x81, 0x01] = .ok (.recv 129, []) ∧
    decode [0x15] = .ok (.drain, []) ∧
    decode [0x16, 0x14] = .ok (.usleep 20, []) := ⟨rfl, rfl, rfl, rfl, rfl, rfl⟩

/-- R85 (d) and packets that end too soon. -/
theorem test_decode_refuses :
    decode [] = .error .empty ∧ decode [0x17] = .error (.selector 0x17) ∧ decode [0x1F] = .error (.selector 0x1F) ∧
    decode [0x05] = .error .short ∧ decode [0x03, 0x0A] = .error (.pin 10) ∧
    decode [0x0A, 0x08] = .error (.fragmentCount 9) := ⟨rfl, rfl, rfl, rfl, rfl, rfl⟩

/-- The opcode table's words: selector in bits 4 to 0, operands of zeros (R84). -/
theorem test_decodeTableWord :
    decodeTableWord 8 0x00 = some (.setBits 0 .sck 0) ∧ decodeTableWord 5 0x0A = some (.fragEncode [⟨0, 0, 0, 0⟩] false) ∧
    decodeTableWord 8 0x16 = some (.usleep 0) ∧ decodeTableWord 8 0x17 = none := ⟨rfl, rfl, rfl, rfl⟩

/-- Every selector of the table runs as the first operation of a session (R67). -/
theorem test_every_selector_runs : ∀ k, k < 23 → (after (step (State.reset.withFetchWord 8 k)) fun _ => ()).isSome = true := by
  decide +kernel

/-! ### Pin operations -/

/-- V1. -/
theorem test_setBits :
    after (exec (.setBits 0x10 .sdo 7) fresh) State.ret = some (.byte 0x14) ∧
    after (exec (.setBits 0xFF .sdo 0) fresh) State.ret = some (.byte 0xFB) ∧
    after (exec (.setBits 0x00 .sdo 0) (open1 e2 1 0 [])) State.ret = some (.byte 0x80) ∧
    after (exec (.setBits 0x88 .sck 1) (open1 e2 1 0 [])) State.ret = some (.byte 0xA8) := by decide

/-- V2. -/
theorem test_getBits :
    after (exec (.getBits 0x12 .sdi) fresh) State.ret = some (.level true) ∧
    after (exec (.getBits 0xFD .sdi) fresh) State.ret = some (.level false) ∧
    after (exec (.getBits 0x40 .sdi) (open1 e2 1 0 [])) State.ret = some (.level false) ∧
    after (exec (.getBits 0xBF .sdi) (open1 e2 1 0 [])) State.ret = some (.level true) := by decide

/-- V3: the byte is staged with its discard. -/
theorem test_setPin :
    after (exec (.setPin .sck 0) (fresh.setOut 0x11)) (fun t => (t.out, staged t.chan.tx, t.chan.discard, t.chan.line.drive)) =
      some (0x10, [0x10], 1, []) := by decide

/-- V3: it is sent again although `out` did not change. -/
theorem test_setPin_again :
    after (exec (.setPin .sck 0) (fresh.setChan { fresh.chan with tx := ⟨[(0, 0x10)], 1⟩, discard := 1 }))
      (fun t => (t.out, staged t.chan.tx, t.chan.discard)) = some (0x10, [0x10, 0x10], 2) := by decide

/-- V4: two bytes are written, the discards stay, the level is that of the pin register. -/
theorem test_getPin :
    after (exec (.getPin .sdi) (fresh.setChan { fresh.chan with
        tx := ⟨[(0, 0x10), (1, 0x10)], 2⟩, discard := 2, line := { fresh.chan.line with pins := [.lines 0x10] } }))
      (fun t => (t.ret, t.chan.line.drive, t.chan.pending, t.chan.tx.len, t.chan.discard)) =
      some (.level false, [0x10, 0x10], 2, 0, 2) := by decide

/-! ### ISP -/

/-- V11: from SCK high, slot 0 lowers SCK and changes SDO in one byte. -/
theorem test_cell :
    after (exec (.cell false) (fresh.setOut 0x15)) (fun t => (t.ret, t.out)) = some (.drive [0x10, 0x11], 0x11) ∧
    after (exec (.cell false) (fresh.setOut 0x14)) (fun t => (t.ret, t.out)) = some (.drive [0x10, 0x11], 0x11) := by decide

/-- V5, E1. -/
theorem test_setData :
    after (exec (.setData 0xAC) fresh) (fun t => (t.ret, t.out)) =
      some (.drive [0x14, 0x15, 0x10, 0x11, 0x14, 0x15, 0x10, 0x11, 0x14, 0x15, 0x14, 0x15, 0x10, 0x11, 0x10, 0x11],
        0x11) := by decide

/-- V5, E2. -/
theorem test_setData_inverted :
    after (exec (.setData 0xA5) (open1 e2 1 0 [])) (fun t => (t.ret, t.out)) =
      some (.drive [0x00, 0x20, 0x80, 0xA0, 0x00, 0x20, 0x80, 0xA0, 0x80, 0xA0, 0x00, 0x20, 0x80, 0xA0, 0x00, 0x20],
        0x20) := by decide

/-- V5, closing bytes. -/
theorem test_closeStretch :
    after (exec .closeStretch (fresh.setOut 0x15)) (fun t => (t.ret, t.out)) = some (.drive [0x15], 0x15) := by decide

/-- V5, closing bytes. -/
theorem test_closeIdle :
    after (exec .closeIdle (fresh.setOut 0x15)) (fun t => (t.ret, t.out)) = some (.drive [0x14], 0x14) := by decide

/-- V8: the latched loopback of `A5`. -/
theorem test_extractData :
    after (exec (.extractData [0x10, 0x16, 0x17, 0x10, 0x11, 0x16, 0x17, 0x10, 0x11, 0x10, 0x11, 0x16, 0x17, 0x10, 0x11,
      0x16, 0x17] 0) fresh) State.ret = some (.byte 0xA5) := by decide

/-- P3, `rx2`: words 0 to 3 are `00 20 00 EE`. -/
def p3Second : List Byte :=
  [0x11, 0x10, 0x11, 0x10, 0x11, 0x14, 0x15, 0x10, 0x11, 0x10, 0x11, 0x10, 0x11, 0x10, 0x11, 0x10,
   0x11, 0x10, 0x11, 0x10, 0x11, 0x10, 0x13, 0x12, 0x11, 0x10, 0x11, 0x10, 0x11, 0x10, 0x11, 0x10,
   0x11, 0x10, 0x11, 0x10, 0x11, 0x10, 0x11, 0x10, 0x11, 0x10, 0x11, 0x10, 0x11, 0x10, 0x11, 0x14,
   0x15, 0x10, 0x13, 0x12, 0x13, 0x12, 0x13, 0x12, 0x11, 0x10, 0x13, 0x12, 0x13, 0x12, 0x13, 0x12,
   0x11]

/-- P3. -/
theorem test_fragExtract :
    after (exec (.fragExtract p3Second [3, 0, 1]) fresh) State.ret = some (.bytes [0xEE, 0x00, 0x20]) := by decide +kernel

/-- V6: the samples of `cmd(AC 53 00 00)` under TGT_ISP(FF AC 53 00). -/
def v6Samples : List Byte :=
  [0x12, 0x16, 0x17, 0x12, 0x13, 0x16, 0x17, 0x12, 0x13, 0x16, 0x17, 0x16, 0x17, 0x12, 0x13, 0x12,
   0x13, 0x12, 0x13, 0x16, 0x15, 0x10, 0x13, 0x16, 0x15, 0x10, 0x13, 0x12, 0x13, 0x16, 0x15, 0x14,
   0x15, 0x10, 0x11, 0x10, 0x13, 0x12, 0x11, 0x10, 0x13, 0x12, 0x11, 0x10, 0x11, 0x10, 0x13, 0x12,
   0x13, 0x12, 0x11, 0x10, 0x11, 0x10, 0x11, 0x10, 0x11, 0x10, 0x11, 0x10, 0x11, 0x10, 0x11, 0x10,
   0x11]

/-- V6: the drive bytes of the command. -/
def v6Drive : List Byte :=
  [0x14, 0x15, 0x10, 0x11, 0x14, 0x15, 0x10, 0x11, 0x14, 0x15, 0x14, 0x15, 0x10, 0x11, 0x10, 0x11,
   0x10, 0x11, 0x14, 0x15, 0x10, 0x11, 0x14, 0x15, 0x10, 0x11, 0x10, 0x11, 0x14, 0x15, 0x14, 0x15] ++
  (List.replicate 16 [0x10, 0x11]).flatten ++ [0x10]

/-- V6. -/
theorem test_cmd :
    after (exec (.cmd ⟨0xAC, 0x53, 0x00, 0x00⟩) (open1 mappingE1 1 0x10 v6Samples))
      (fun t => (t.ret, t.out, t.chan.line.drive)) = some (.bytes [0xFF, 0xAC, 0x53, 0x00], 0x10, v6Drive) := by
  decide +kernel

/-- P1, step 2: after a pin write, whose echo is dropped. -/
theorem test_cmd_after_setPin :
    after (exec (.cmd ⟨0xAC, 0x53, 0x00, 0x00⟩) ((open1 mappingE1 1 0x10 []).setChan
        { Channel.reset with tx := ⟨[(0, 0x10)], 1⟩, discard := 1, echoes := [0], line := { Line.reset with samples := 0x13 :: v6Samples } }))
      (fun t => (t.ret, t.chan.ring.rd, t.chan.ring.wr, t.chan.ring.len, t.chan.discard, t.chan.pending)) =
      some (.bytes [0xFF, 0xAC, 0x53, 0x00], 66, 66, 0, 0, 0) := by decide +kernel

/-- V9: the 128 bytes of the two commands `20 00 00 00`, `28 00 00 00`. -/
def v9Drive : List Byte :=
  [0x10, 0x11, 0x10, 0x11, 0x14, 0x15, 0x10, 0x11, 0x10, 0x11, 0x10, 0x11, 0x10, 0x11, 0x10, 0x11] ++
  (List.replicate 24 [0x10, 0x11]).flatten ++
  [0x10, 0x11, 0x10, 0x11, 0x14, 0x15, 0x10, 0x11, 0x14, 0x15, 0x10, 0x11, 0x10, 0x11, 0x10, 0x11] ++
  (List.replicate 24 [0x10, 0x11]).flatten

/-- V9 (a) and P3: the 128th byte is the one write, the stretch byte stays staged. -/
theorem test_fragEncode_stretch :
    after (exec (.fragEncode [⟨0x20, 0, 0, 0⟩, ⟨0x28, 0, 0, 0⟩] false) fresh)
      (fun t => (t.out, t.chan.line.drive, staged t.chan.tx, t.chan.pending, t.chan.discard)) =
      some (0x11, v9Drive, [0x11], 128, 0) := by decide +kernel

/-- V9 (b). -/
theorem test_fragEncode_idle :
    after (exec (.fragEncode [⟨0x20, 0, 0, 0⟩, ⟨0x28, 0, 0, 0⟩] true) fresh)
      (fun t => (t.out, t.chan.line.drive, staged t.chan.tx)) = some (0x10, v9Drive, [0x10]) := by decide +kernel

/-! ### TPI -/

/-- V12. -/
theorem test_tpiFrame :
    after (exec (.tpiFrame 0x8F) fresh) State.ret =
      some (.cells [false, true, true, true, true, false, false, false, true, true, true, true]) ∧
    after (exec (.tpiFrame 0xA5) fresh) State.ret =
      some (.cells [false, true, false, true, false, false, true, false, true, false, true, true]) := by decide

/-- V12: the words of `8F` and `72`. -/
theorem test_frameWord :
    frameWord 0x8F 0 = 0xFF1E ∧ frameWord 0x8F 4 = 0xF1EF ∧ frameWord 0x72 3 = 0xE727 := by decide +kernel

/-- V16: flipped words of `8F`. -/
theorem test_flippedWord :
    flippedWord 0x8F 0 0 = 0xFF1F ∧ flippedWord 0x8F 2 5 = 0xFCFB ∧ flippedWord 0x8F 2 11 = 0xDC7B := by decide +kernel

/-- V17, row `8F`. -/
theorem test_tpiTx :
    after (exec (.tpiTx 0x8F) (fresh.setOut 0x15)) (fun t => (t.ret, t.out, staged t.chan.tx, t.chan.discard)) =
      some (.done, 0x15, [0x10, 0x11, 0x14, 0x15, 0x14, 0x15, 0x14, 0x15, 0x14, 0x15, 0x10, 0x11, 0x10, 0x11, 0x10, 0x11,
        0x14, 0x15, 0x14, 0x15, 0x14, 0x15, 0x14, 0x15], 24) := by decide +kernel

/-- V13, `p = 2`: the samples. -/
def v13Samples : List Byte :=
  [0x17, 0x16, 0x17, 0x16, 0x17, 0x14, 0x15, 0x14, 0x15, 0x14, 0x15, 0x14, 0x15, 0x14, 0x15, 0x14,
   0x15, 0x14, 0x15, 0x14, 0x15, 0x16, 0x17, 0x16, 0x17, 0x16, 0x17, 0x16, 0x17, 0x16, 0x17, 0x16]

/-- V13, `p = 2`. -/
theorem test_tpiRx :
    after (exec .tpiRx (open1 mappingE1 1 0x15 v13Samples)) (fun t => (t.ret, t.out, t.chan.line.drive)) =
      some (.byte 0x80, 0x15, (List.replicate 16 [0x14, 0x15]).flatten) := by decide +kernel

/-- V13: with nothing answering. -/
theorem test_tpiRx_missing :
    after (exec .tpiRx (open1 mappingE1 1 0x15 (List.replicate 16 [0x17, 0x16]).flatten)) State.ret =
      some (.tpiError .startMissing []) := by decide +kernel

/-- V14, V18: bytes and causes. -/
theorem test_tpiDecode :
    after (exec (.tpiDecode 0x7F00) fresh) State.ret = some (.byte 0x80) ∧
    after (exec (.tpiDecode 0x0001) fresh) State.ret = some (.tpiError .stop []) ∧
    after (exec (.tpiDecode 0xFFF7) fresh) State.ret = some (.tpiError .parity []) ∧
    after (exec (.tpiDecode 0xFFEF) fresh) State.ret = some (.tpiError .startMissing []) := by decide

/-- V18: parity is checked before the stop cells. -/
theorem test_tpiDecode_order :
    after (exec (.tpiDecode 0xF900) fresh) State.ret = some (.tpiError .parity []) ∧
    after (exec (.tpiDecode 0x000F) fresh) State.ret = some (.tpiError .startMissing []) := by decide

/-- P2. -/
theorem test_cmdTpi :
    after (exec (.cmdTpi [0x8F] 1) (open1 mappingE1 1 0x15 (List.replicate 24 0x17 ++ v13Samples)))
      (fun t => (t.ret, t.out, t.chan.line.drive.length, t.chan.ring.rd, t.chan.discard)) =
      some (.bytes [0x80], 0x15, 56, 56, 0) := by decide +kernel

/-- P4: the samples of the two windows. -/
def p4Samples : List Byte :=
  [0x17, 0x16, 0x17, 0x14, 0x15, 0x14, 0x15, 0x16, 0x17, 0x16, 0x17, 0x16, 0x17, 0x16, 0x17, 0x14,
   0x15, 0x14, 0x15, 0x14, 0x15, 0x14, 0x15, 0x16, 0x17, 0x16, 0x17, 0x16, 0x17, 0x16, 0x17, 0x16,
   0x17, 0x14, 0x15, 0x16, 0x17, 0x14, 0x15, 0x16, 0x17, 0x14, 0x15, 0x14, 0x15, 0x16, 0x17, 0x14,
   0x15, 0x16, 0x17, 0x16, 0x17, 0x16, 0x17, 0x16, 0x17, 0x16, 0x17, 0x16, 0x17, 0x16, 0x17, 0x16]

/-- P4: the second receive fails, the third is not clocked. -/
theorem test_cmdTpi_error :
    after (exec (.cmdTpi [0x24] 3) (open1 mappingE1 1 0x15 (List.replicate 24 0x17 ++ p4Samples)))
      (fun t => (t.ret, t.chan.line.drive.length, t.chan.ring.rd)) = some (.tpiError .parity [0x1E], 88, 88) := by
  decide +kernel

/-! ### The channel -/

/-- V21: the physical bytes of a send with multiplier 2. -/
theorem test_send_copies :
    after (exec (.send [0xC3, 0xA1] true) (open1 mappingE1 2 0x10 [])) (fun t => (staged t.chan.tx, t.chan.discard)) =
      some ([0xC3, 0xC3, 0xA1, 0xA1], 4) := by decide

/-- V20 in small: the 128th byte flushes the buffer. -/
theorem test_send_fills_buffer :
    after (exec (.send (List.replicate 130 0x11) true) fresh)
      (fun t => (t.chan.tx.len, t.chan.pending, t.chan.discard, t.chan.line.drive.length)) = some (2, 128, 130, 128) := by
  decide +kernel

/-- R40: with 127 outstanding one byte is written, then a fill makes room; nothing stays staged (R37). -/
theorem test_flush :
    after (exec .flush (fresh.setChan { fresh.chan with
        tx := ⟨[(0, 0x11), (1, 0x12)], 2⟩, pending := 127,
        line := { fresh.chan.line with drive := List.replicate 127 0x10, samples := List.replicate 128 0x10 } }))
      (fun t => (t.chan.line.drive.length, t.chan.pending, t.chan.ring.len, t.chan.tx.len)) = some (129, 1, 128, 0) := by
  decide +kernel

/-- R37: of a byte flushed twice the chip gets one. -/
theorem test_flush_twice :
    after (step ((busy.setCalls [.op [0x12], .op [0x12]]))) (fun t => after (step t) fun u => u.chan.line.drive) =
      some (some [0x10, 0x14, 0x15, 0x15]) := by decide +kernel

/-- R41: as many as the transport gives. -/
theorem test_fill :
    after (exec .fill (withReads (fresh.setChan { fresh.chan with
        pending := 3,
        line := { fresh.chan.line with drive := [0x10, 0x11, 0x14], samples := [0x12, 0x00, 0x17] } }) [.got 2]))
      (fun t => (t.ret, t.chan.ring, t.chan.pending)) = some (.count 2, ⟨[(0, 0x12)], 2, 0, 2⟩, 1) := by decide

/-- V21: the owed copies are dropped, then the first copy of each byte is kept. -/
theorem test_recv_copies :
    after (exec (.recv 2) ((open1 mappingE1 2 0x10 []).setChan { Channel.reset with
        tx := ⟨[(0, 0xC3), (1, 0xC3), (2, 0xA1), (3, 0xA1), (4, 0xB2), (5, 0xB2)], 6⟩, discard := 2, echoes := [1, 0],
        line := { Line.reset with samples := [0xC0, 0xC1, 0xA0, 0xA2, 0xB0, 0xB1] } }))
      (fun t => (t.ret, t.chan.discard, t.chan.ring.len)) = some (.bytes [0xA0, 0xB0], 0, 0) := by decide +kernel

/-- R37 (a), R43, R58: A, B, C were sent, B with discard. `recv(0)` drops the sample of B, sets that of A aside and leaves that
of C in the ring; `recv(2)` gives A's and C's. -/
theorem test_recv_others :
    (let s := fresh.setChan { Channel.reset with
        ring := ⟨[(0, 0xA1), (1, 0xB2), (2, 0xC3)], 3, 0, 3⟩, discard := 1, echoes := [1],
        line := { Line.reset with drive := [0xA1, 0xB2, 0xC3], taken := 3 } }
     after (exec (.recv 0) s) (fun t => (t.chan.aside, t.chan.discard, t.chan.ring.rd, t.chan.ring.len)) =
        some ([0xA1], 0, 2, 1) ∧
     after (exec (.recv 2) s) State.ret = some (.bytes [0xA1, 0xC3])) := by decide

/-- R37 (a): the sample set aside is received before that in the ring. -/
theorem test_recv_aside :
    after (exec (.recv 2) (fresh.setChan { Channel.reset with
        ring := ⟨[(2, 0xC3)], 1, 2, 3⟩, aside := [0xA1], line := { Line.reset with drive := [0xA1, 0xB2, 0xC3], taken := 3 } }))
      (fun t => (t.ret, t.chan.aside, t.chan.ring.len)) = some (.bytes [0xA1, 0xC3], [], 0) := by decide

/-- R138: from a transport that never delivers, what the ring holds is received and no more. -/
theorem test_recv_starved :
    after (exec (.recv 1) (withReads busy [.starved])) State.ret = some (.bytes [0x16]) ∧
    exec (.recv 2) (withReads busy [.starved]) = .fault .stuck := ⟨by decide +kernel, rfl⟩

/-- X2. -/
theorem test_recv_zero :
    after (exec (.recv 0) ((open1 mappingE1 1 0x10 []).setChan { Channel.reset with
        tx := ⟨[(0, 0xAA), (1, 0xBB)], 2⟩, discard := 2, echoes := [1, 0], line := { Line.reset with samples := [0xAA, 0xBB] } }))
      (fun t => (t.ret, t.chan.discard, t.chan.ring.len, t.chan.ring.rd, t.chan.ring.wr, t.chan.tx.len)) =
      some (.bytes [], 0, 0, 2, 2, 0) := by decide +kernel

/-- V23, R48: what was staged is written, then nothing is owed. -/
theorem test_drain :
    after (exec .drain busy) (fun t => (t.chan.tx.len, t.chan.pending, t.chan.discard, t.chan.ring.len, t.chan.line.drive)) =
      some (0, 0, 0, 0, [0x10, 0x14, 0x15, 0x15]) := by decide

/-- R46. -/
theorem test_usleep :
    after (exec (.usleep 20) busy) (fun t => (t.chan.tx.len, t.chan.pending, t.chan.discard, t.chan.line.drive)) =
      some (0, 2, 1, [0x10, 0x14, 0x15, 0x15]) := by decide

/-- V24: the multiplier's formula, and 1 on this hardware. -/
theorem test_baudMultiplier :
    Config.baudMultiplierFor 1 150000 = 5 ∧ Config.baudMultiplierFor 1 100000 = 8 ∧ Config.baudMultiplierFor 1 1000000 = 1 ∧
    Config.baudMultiplierFor 1 1 = 750000 ∧ Config.sessionBaudMultiplier = 1 := by decide

/-- R15: the direction registers of E1 and E2, which are legal. -/
theorem test_mappings :
    ddrOf mappingE1 = 0x3D ∧ ddrOf e2 = 0xA8 ∧ pinMapLegal mappingE1 = true ∧ pinMapLegal e2 = true := by decide

/-- R20: no pin, two bits, shared bits, SDI driven. -/
theorem test_illegal_mappings :
    pinMapLegal emptyPinMap = false ∧ pinMapLegal { e2 with sck := ⟨0x30, false⟩ } = false ∧
    pinMapLegal { e2 with sdo := ⟨0x20, true⟩ } = false ∧ pinMapLegal { e2 with led0 := ⟨0x40, false⟩ } = false := by decide

/-! ### Witnesses: the hypotheses of each statement can be met -/

/-- An operation that does not stop answers some next state. -/
theorem next_of_after {x : Out State} (h : (after x fun _ => ()).isSome = true) : ∃ t, x = .next t := by
  cases x with
  | next t => exact ⟨t, rfl⟩
  | fault r => cases h
  | refused r => cases h

/-- The state an operation ends in, where it does not stop. -/
def endOf (x : Out State) : State :=
  match x with
  | .next t => t
  | .fault _ => fresh
  | .refused _ => fresh

theorem eq_endOf {x : Out State} (h : (after x fun _ => ()).isSome = true) : x = .next (endOf x) := by
  obtain ⟨t, rfl⟩ := next_of_after h
  rfl

theorem test_fresh_ready {n : Nat} (h : n ≤ 8192) : fresh.chan.ready n :=
  ⟨by decide, fun j hj => absurd hj (Nat.not_lt_zero j), by decide, by
    show fresh.chan.owed + n ≤ 8192
    have : fresh.chan.owed = 0 := rfl
    omega⟩

theorem test_busy_ready {n : Nat} (h : n ≤ 8188) : busy.chan.ready n :=
  ⟨by decide, by unfold Channel.inOrder; decide, by decide, by
    show busy.chan.owed + n ≤ 8192
    have : busy.chan.owed = 4 := rfl
    omega⟩

theorem test_fresh_inv : fresh.inv := ⟨(test_fresh_ready (Nat.zero_le _)).1, (test_fresh_ready (Nat.zero_le _)).2.1, by decide⟩

theorem test_busy_inv : busy.inv := ⟨(test_busy_ready (Nat.zero_le _)).1, (test_busy_ready (Nat.zero_le _)).2.1, by decide⟩

/-- `fresh` and `busy` meet what the statements about operations on the line ask for. -/
theorem test_line_states :
    pinMapLegal fresh.pinMap = true ∧ pinMapLegal busy.pinMap = true ∧ fresh.baudMultiplier = 1 ∧ busy.baudMultiplier = 1 ∧
    fresh.session = .opened ∧ fresh.chan.owed = fresh.chan.discard ∧ busy.chan.owed = 4 ∧ busy.chan.discard = 1 := by decide

/-- The queue of `fresh` is empty: the premises of the last two clauses about `cmd`, `tpi_rx` and `cmd_tpi`. -/
theorem test_fresh_queue : fresh.chan.owed = fresh.chan.discard ∧ fresh.chan.aside = [] ∧ fresh.chan.queue = [] := by
  decide

theorem test_witness_DecodeInvertsEncode :
    (Instr.extractData (List.replicate 17 0x11) 0).wellFormed = true ∧
    (Instr.fragEncode (List.replicate 8 ⟨1, 2, 3, 4⟩) true).wellFormed = true ∧
    (Instr.fragEncode [⟨1, 2, 3, 4⟩] false).wellFormed = true ∧ (Instr.setPin .led3 300).wellFormed = true ∧
    (Instr.fragExtract [] []).wellFormed = true := by decide

theorem test_witness_UnassignedSelectorsRefused :
    0x17 ≤ (0x17 : Byte).toNat % 32 ∧ 0x17 ≤ (0x1F : Byte).toNat % 32 ∧ 0x17 ≤ (0xF7 : Byte).toNat % 32 ∧
    (fresh.setCalls [.op [0x17]]).session = .opened ∧ (fresh.setCalls [.op [0x17]]).calls = [.op [0x17]] := by decide

theorem test_witness_StepRunsDecodedOperation :
    (fresh.setCalls [.op [0x04, 0x01, 0xAA]]).session = .opened ∧
    (fresh.setCalls [.op [0x04, 0x01, 0xAA]]).calls = [.op [0x04, 0x01, 0xAA]] ∧
    decode [0x04, 0x01, 0xAA] = .ok (.cell true, [0xAA]) := ⟨rfl, rfl, rfl⟩

/-- A step that records a fault: a write of one byte that takes none. -/
theorem test_step_records_fault :
    after (step ((withWrites busy [.took 0]).setCalls [.op [0x12]])) State.session = some (.faulted .shortWrite) := by
  decide +kernel

theorem test_witness_FaultIsRecorded : busy.chan.wf ∧ State.reset.chan.wf := by decide

theorem test_witness_MachineWithoutCallWaits : State.reset.finished ∧ busy.finished := by decide

theorem test_witness_OpenPopulatesSession :
    (State.reset.setCalls [.openSession e2]).session = .setup ∧
    (State.reset.setCalls [.openSession e2]).calls = [.openSession e2] ∧
    pinMapLegal e2 = true ∧ pinMapLegal emptyPinMap = false ∧
    (∀ m ∈ ([] : List ModeReply).take 4, m ≠ .failed) ∧
    (∀ m ∈ [ModeReply.accepted, .accepted, .accepted, .accepted, .failed].take 4, m ≠ .failed) ∧
    .failed ∈ [ModeReply.accepted, .accepted, .accepted, .failed].take 4 := by decide

/-- R131: the fourth call of `open` fails; the fault is recorded and the session can still be closed. -/
theorem test_open_fails :
    after (step (State.reset.setChan { Channel.reset with
        line := { Line.reset with modes := [.accepted, .accepted, .accepted, .failed] } } |>.setCalls [.openSession e2]))
      (fun t => (t.session, t.calls)) = some (.faulted .transport, []) := by decide +kernel

theorem test_witness_OperationOutsideSessionRefused :
    State.reset.session ≠ .opened ∧ (fresh.setSession (.faulted .transport)).session ≠ .opened ∧
    (fresh.setSession .closed).session ≠ .opened ∧ (State.reset.setCalls [.op [0x06]]).calls = [.op [0x06]] := by decide

/-- The channel of `busy` with nothing staged and these answers to come. -/
def failing (r : List ReadReply) (m : List ModeReply) (p : List PinReply) : State :=
  busy.setChan { busyChan with
    tx := ⟨[], 0⟩, discard := 0, echoes := [], line := { busyChan.line with reads := r, modes := m, pins := p } }

/-- R131: a close whose second mode change fails; its reason stands over the earlier one, and it can be called again (log 29). -/
theorem test_close_fails :
    after (step (((failing [] [.accepted, .failed] []).setSession (.faulted .shortWrite)).setCalls [.closeSession, .closeSession]))
      (fun t => (t.session, after (step t) State.session)) = some (.faulted .transport, some .closed) := by decide +kernel

/-- A drain that faults on its write, and on each of its two mode changes. -/
theorem test_witness_close_faults :
    (∃ l, exec .drain (withWrites busy [.took 0]) = .fault (.channel .shortWrite l)) ∧
    (∃ l, exec .drain (failing [] [.failed] []) = .fault (.channel .transport l)) ∧
    (failing [] [.failed] []).chan.tx.len = 0 ∧ (failing [] [.failed] []).chan.line.modes = [.failed] ∧
    (failing [] [.accepted, .failed] []).chan.line.modes = [.accepted, .failed] ∧
    (failing [] [.failed] []).session = .opened := ⟨⟨_, rfl⟩, ⟨_, rfl⟩, rfl, rfl, rfl, rfl⟩

theorem test_witness_CloseDrainsAndEndsSession :
    (busy.setCalls [.closeSession]).calls = [.closeSession] ∧ (busy.setCalls [.closeSession]).session = .opened ∧
    (busy.setCalls [.closeSession]).chan.ready 0 ∧
    (∃ reason, (busy.setSession (.faulted .transport)).session = .faulted reason) ∧
    (busy.setSession (.faulted .transport)).chan.ready 0 ∧
    State.reset.session = .setup ∧ (fresh.setSession .closed).session = .closed :=
  ⟨rfl, rfl, test_busy_ready (Nat.zero_le _), ⟨_, rfl⟩, test_busy_ready (Nat.zero_le _), rfl, rfl⟩

/-- A step of `set_pin(SCK, 1)` from the middle of things; the invariant holds before it. -/
theorem test_witness_StepKeepsInvariant :
    (busy.setCalls [.op [0x02, 0x00, 0x01]]).inv ∧ ∃ t, step (busy.setCalls [.op [0x02, 0x00, 0x01]]) = .next t :=
  ⟨test_busy_inv, next_of_after (by decide +kernel)⟩

theorem test_witness_OnlyOpenWritesConfiguration :
    (∀ pm, HostCall.closeSession ≠ .openSession pm) ∧ (∀ pm, HostCall.op [0x06] ≠ .openSession pm) ∧
    (∃ t, step (busy.setCalls [.closeSession]) = .next t) ∧ (∃ t, step (busy.setCalls [.op [0x06]]) = .next t) ∧
    HostCall.op [0x06] ≠ .closeSession :=
  ⟨(fun _ h => nomatch h), (fun _ h => nomatch h), next_of_after (by decide +kernel), next_of_after (by decide +kernel), by decide⟩

theorem test_witness_DriveStreamOnlyGrows :
    (busy.setCalls [.op [0x12]]).inv ∧ ∃ t, step (busy.setCalls [.op [0x12]]) = .next t :=
  ⟨test_busy_inv, next_of_after (by decide +kernel)⟩

theorem test_witness_NeighbourPinsHeld :
    (∃ t, exec (.tpiTx 0x8F) busy = .next t) ∧ (∀ p x, Instr.tpiTx 0x8F ≠ .setPin p x) ∧
    drivesLine (.tpiTx 0x8F) = true ∧ busy.chan.wf ∧ busy.chan.inOrder ∧ 1 ≤ busy.baudMultiplier :=
  ⟨next_of_after (by decide +kernel), (fun _ _ h => nomatch h), rfl, test_busy_inv.1, test_busy_inv.2.1, by decide⟩

theorem test_witness_RegistersFrame :
    (∃ t, exec (.getBits 0x12 .sdi) busy = .next t) ∧ writesOut (.getBits 0x12 .sdi) = false ∧
    usesChannel (.getBits 0x12 .sdi) = false := ⟨⟨_, rfl⟩, rfl, rfl⟩

theorem test_witness_LineFrame :
    busy.chan.wf ∧ busy.chan.inOrder ∧ 1 ≤ busy.baudMultiplier ∧ (∃ t, exec .fill busy = .next t) ∧
    (∀ p, Instr.fill ≠ .getPin p) ∧ Instr.fill ≠ .drain :=
  ⟨test_busy_inv.1, test_busy_inv.2.1, by decide, next_of_after (by decide +kernel), (fun _ h => nomatch h), by decide⟩

/-- One sample goes to slot 2: slots 1 and 3 are those next to it. -/
theorem test_witness_RingBytesFrame :
    busy.chan.wf ∧ busy.chan.inOrder ∧ 1 ≤ busy.baudMultiplier ∧ exec .fill busy = .next (endOf (exec .fill busy)) ∧
    (∀ j, j < (endOf (exec .fill busy)).chan.line.taken - busy.chan.line.taken →
      1 ≠ (busy.chan.ring.wr + j) % Config.rxCapacity ∧ 3 ≠ (busy.chan.ring.wr + j) % Config.rxCapacity) :=
  ⟨test_busy_inv.1, test_busy_inv.2.1, by decide, eq_endOf (by decide +kernel), by decide⟩

/-- 24 bytes go to slots 1 to 24: slots 0 and 25 are those next to them. -/
theorem test_witness_StagingBytesFrame :
    busy.chan.wf ∧ busy.chan.inOrder ∧ 1 ≤ busy.baudMultiplier ∧ (∃ t, exec (.tpiTx 0x8F) busy = .next t) ∧
    (∀ j, j < busy.baudMultiplier * stagedBytes (.tpiTx 0x8F) →
      0 ≠ (busy.chan.tx.len + j) % Config.fifoChunk ∧ 25 ≠ (busy.chan.tx.len + j) % Config.fifoChunk) ∧
    (∀ a j, j < busy.baudMultiplier * restagedBytes (.tpiTx 0x8F) → a ≠ j % Config.fifoChunk) :=
  ⟨test_busy_inv.1, test_busy_inv.2.1, by decide, next_of_after (by decide +kernel), by decide,
    fun _ j hj => absurd hj (Nat.not_lt_zero j)⟩

theorem test_witness_SetBitsWritesField :
    (pinCfg fresh.pinMap .sdo).mask ≠ 0 ∧ (pinCfg fresh.pinMap .led0).mask = 0 := by decide

theorem test_witness_DisjointPinWritesCommute :
    (pinCfg fresh.pinMap .sck).mask &&& (pinCfg fresh.pinMap .sdo).mask = 0 ∧
    (pinCfg fresh.pinMap .led0).mask &&& (pinCfg fresh.pinMap .led0).mask = 0 := by decide

theorem test_witness_GetBitsReadsField :
    (0x12 : Byte) &&& (pinCfg fresh.pinMap .sdi).mask = 0xFF &&& (pinCfg fresh.pinMap .sdi).mask ∧
    (pinCfg fresh.pinMap .sdo).mask ≠ 0 ∧ exec (.setBits 0x10 .sdo 1) fresh = .next (fresh.setRet (.byte 0x14)) :=
  ⟨by decide, by decide, rfl⟩

theorem test_witness_SetPinSendsNewByte :
    Pin.led0 ≠ .sdi ∧ busy.chan.ready busy.baudMultiplier ∧ Pin.sck ≠ .sdi :=
  ⟨by decide, test_busy_ready (by decide), by decide⟩

theorem test_witness_GetPinFlushesThenReads :
    busy.chan.ready 0 ∧ busy.chan.line.pins = [] ∧
    (busy.setChan { busyChan with line := { busyChan.line with pins := [.lines 0x12] } }).chan.ready 0 :=
  ⟨test_busy_ready (Nat.zero_le _), rfl, test_busy_inv.1, test_busy_inv.2.1, by decide, by decide⟩

theorem test_witness_CellEmitsTwoSlots : pinMapLegal busy.pinMap = true ∧ pinMapLegal (open1 e2 1 0 []).pinMap = true := by
  decide

theorem test_witness_SetDataEmitsMsbFirst : pinMapLegal fresh.pinMap = true ∧ pinMapLegal (open1 e2 1 0 []).pinMap = true := by
  decide

theorem test_witness_ClosingBytes : pinMapLegal fresh.pinMap = true := by decide

/-- The shortest received bytes of words 0 and 3. -/
theorem test_witness_ExtractReadsSdiSamples :
    16 * 0 + 16 < (List.replicate 17 (0 : Byte)).length ∧ 16 * 3 + 16 < v6Samples.length := by decide

theorem test_witness_ExtractPastEndRefused :
    (List.replicate 16 (0 : Byte)).length ≤ 16 * 0 + 16 ∧ (∃ w ∈ [0, 4], v6Samples.length ≤ 16 * w + 16) := by decide

theorem test_witness_FragExtractReadsEachWord : ∀ w ∈ [3, 0, 3], 16 * w + 16 < v6Samples.length := by decide

theorem test_witness_IspCommandLayout : pinMapLegal e2 = true := by decide

theorem test_witness_CmdExchangesCommand :
    pinMapLegal busy.pinMap = true ∧ 1 ≤ busy.baudMultiplier ∧ busy.chan.ready (busy.baudMultiplier * 65) ∧
    fresh.chan.ready (fresh.baudMultiplier * 65) ∧ fresh.chan.owed = fresh.chan.discard :=
  ⟨by decide, by decide, test_busy_ready (by decide), test_fresh_ready (by decide), by decide⟩

theorem test_witness_FragmentLayout : pinMapLegal e2 = true ∧ ([⟨0x20, 0, 0, 0⟩] : List Cmd) ≠ [] := by decide

theorem test_witness_FragmentClosingByte : pinMapLegal e2 = true := by decide

theorem test_witness_FragEncodeSendsFragment :
    (1 ≤ 1 ∧ 1 ≤ 8) ∧ pinMapLegal busy.pinMap = true ∧
    (List.replicate 8 (⟨1, 2, 3, 4⟩ : Cmd)).length ≤ 8 ∧ busy.chan.ready (busy.baudMultiplier * (64 * 8 + 1)) :=
  ⟨by decide, by decide, by decide, test_busy_ready (by decide)⟩

theorem test_witness_FragmentCountRefused :
    ([] : List Cmd).length = 0 ∧ 8 < (List.replicate 9 (⟨1, 2, 3, 4⟩ : Cmd)).length := by decide

theorem test_witness_RisingEdgesCountBits : pinMapLegal e2 = true ∧ ([⟨0x20, 0, 0, 0⟩] : List Cmd) ≠ [] := by decide

/-- The states of the expansion of `cmd(AC 53 00 00)` up to the closing byte. -/
def expansion : State × State × State × State × State :=
  let s0 := endOf (exec (.setData 0xAC) (open1 mappingE1 1 0x10 v6Samples))
  let s1 := endOf (exec (.setData 0x53) s0)
  let s2 := endOf (exec (.setData 0x00) s1)
  let s3 := endOf (exec (.setData 0x00) s2)
  (s0, s1, s2, s3, endOf (exec .closeIdle s3))

/-- The `i`-th 16 of the drive bytes of V6. -/
def v6Part (i : Nat) : List Byte := (v6Drive.drop (16 * i)).take 16

/-- The state after the send of the expansion. -/
def expansionSent : State :=
  endOf (exec (.send (v6Part 0 ++ v6Part 1 ++ v6Part 2 ++ v6Part 3 ++ v6Part 4) false) expansion.2.2.2.2)

theorem test_witness_CmdIsItsExpansion :
    (pinMapLegal (open1 mappingE1 1 0x10 v6Samples).pinMap = true ∧ 1 ≤ (open1 mappingE1 1 0x10 v6Samples).baudMultiplier ∧
      (open1 mappingE1 1 0x10 v6Samples).chan.wf ∧ (open1 mappingE1 1 0x10 v6Samples).chan.inOrder) ∧
    (exec (.setData 0xAC) (open1 mappingE1 1 0x10 v6Samples) = .next expansion.1 ∧ expansion.1.ret = .drive (v6Part 0)) ∧
    (exec (.setData 0x53) expansion.1 = .next expansion.2.1 ∧ expansion.2.1.ret = .drive (v6Part 1)) ∧
    (exec (.setData 0x00) expansion.2.1 = .next expansion.2.2.1 ∧ expansion.2.2.1.ret = .drive (v6Part 2)) ∧
    (exec (.setData 0x00) expansion.2.2.1 = .next expansion.2.2.2.1 ∧ expansion.2.2.2.1.ret = .drive (v6Part 3)) ∧
    (exec .closeIdle expansion.2.2.2.1 = .next expansion.2.2.2.2 ∧ expansion.2.2.2.2.ret = .drive (v6Part 4)) ∧
    exec (.send (v6Part 0 ++ v6Part 1 ++ v6Part 2 ++ v6Part 3 ++ v6Part 4) false) expansion.2.2.2.2 = .next expansionSent ∧
    (exec (.recv 65) expansionSent = .next (endOf (exec (.recv 65) expansionSent)) ∧
      (endOf (exec (.recv 65) expansionSent)).ret = .bytes v6Samples) :=
  ⟨⟨by decide, by decide, by decide, fun j hj => absurd hj (Nat.not_lt_zero j)⟩,
    ⟨eq_endOf (by decide +kernel), by decide +kernel⟩, ⟨eq_endOf (by decide +kernel), by decide +kernel⟩,
    ⟨eq_endOf (by decide +kernel), by decide +kernel⟩, ⟨eq_endOf (by decide +kernel), by decide +kernel⟩,
    ⟨eq_endOf (by decide +kernel), by decide +kernel⟩, eq_endOf (by decide +kernel),
    eq_endOf (by decide +kernel), by decide +kernel⟩

theorem test_witness_IspLoopbackReturnsByte :
    pinMapLegal fresh.pinMap = true ∧ fresh.pinMap.sdi.inv = fresh.pinMap.sdo.inv ∧
    pinMapLegal { e2 with sdi := ⟨0x40, false⟩ } = true := by decide

theorem test_witness_TpiTxSendsFrame :
    pinMapLegal busy.pinMap = true ∧ busy.chan.ready (busy.baudMultiplier * 24) := ⟨by decide, test_busy_ready (by decide)⟩

/-- Start cells 0 and 3, and no start cell. -/
theorem test_witness_TpiDecodeChecksInOrder :
    (∀ k, k < 4 → (0xFFEF : Word16).getLsbD k = true) ∧
    ((0xFF00 : Word16).getLsbD 0 = false ∧ ∀ k, k < 0 → (0xFF00 : Word16).getLsbD k = true) ∧
    ((0xF807 : Word16).getLsbD 3 = false ∧ ∀ k, k < 3 → (0xF807 : Word16).getLsbD k = true) := by decide

theorem test_witness_TpiFrameRoundTrip : 3 < 4 ∧ 4 ≤ 4 := by decide

/-- The first and the last cell, after no and after three idle cells. -/
theorem test_witness_TpiSingleFlipDetected : (0 < 4 ∧ 0 < 12) ∧ (3 < 4 ∧ 11 < 12) := by decide

theorem test_witness_TpiRxReceivesFrame :
    pinMapLegal busy.pinMap = true ∧ 1 ≤ busy.baudMultiplier ∧ busy.chan.ready (busy.baudMultiplier * 32) ∧
    fresh.chan.ready (fresh.baudMultiplier * 32) ∧ fresh.chan.owed = fresh.chan.discard :=
  ⟨by decide, by decide, test_busy_ready (by decide), test_fresh_ready (by decide), by decide⟩

/-- No frame and no window, and three frames and three windows. -/
theorem test_witness_CmdTpiSendsThenReceives :
    pinMapLegal busy.pinMap = true ∧ 1 ≤ busy.baudMultiplier ∧ busy.chan.ready (busy.baudMultiplier * (24 * 0 + 32 * 0)) ∧
    busy.chan.ready (busy.baudMultiplier * (24 * 3 + 32 * 3)) ∧
    fresh.chan.ready (fresh.baudMultiplier * (24 * 3 + 32 * 3)) ∧ fresh.chan.owed = fresh.chan.discard :=
  ⟨by decide, by decide, test_busy_ready (by decide), test_busy_ready (by decide), test_fresh_ready (by decide), by decide⟩

theorem test_witness_TpiErrorsShareNonZeroCode :
    Ret.done ≠ .unset ∧ ∀ cause res, Ret.done ≠ .tpiError cause res := ⟨by decide, fun _ _ h => nomatch h⟩

theorem test_witness_UnwrittenResultFaults :
    0 < ([0x1E] : List Byte).length ∧ ([0x1E] : List Byte).length ≤ 1 := by decide

/-- A send to the very end of the ring's room. -/
theorem test_witness_SendAppendsToStream :
    fresh.chan.ready (fresh.baudMultiplier * (List.replicate 8192 (0x11 : Byte)).length) ∧
    busy.chan.ready (busy.baudMultiplier * ([0x11] : List Byte).length) :=
  ⟨test_fresh_ready (by rw [List.length_replicate]; decide), test_busy_ready (by decide)⟩

/-- The chip holds `p` bytes not read back, 127 are staged, and these answers are to come. -/
def chipHolding (p : Nat) (reads : List ReadReply) (writes : List WriteReply) : State :=
  fresh.setChan { fresh.chan with
    tx := ⟨[], 127⟩, pending := p
    line := { Line.reset with drive := List.replicate p 0x00, reads := reads, writes := writes } }

/-- Room for all, for one byte, and for the three a fill has just read: a write answered with just so many is not short. -/
theorem test_witness_FlushWritesStagedBytes :
    busy.chan.ready 0 ∧
    ((chipHolding 0 [] [.took 127]).chan.wf ∧ (chipHolding 0 [] [.took 127]).chan.room 0 ∧
      (chipHolding 0 [] [.took 127]).chan.pending < Config.fifoChunk ∧
      min (Config.fifoChunk - (chipHolding 0 [] [.took 127]).chan.pending) 127 ≤ 127) ∧
    ((chipHolding 127 [] [.took 1]).chan.wf ∧ (chipHolding 127 [] [.took 1]).chan.room 0 ∧
      (chipHolding 127 [] [.took 1]).chan.pending < Config.fifoChunk ∧
      min (Config.fifoChunk - (chipHolding 127 [] [.took 1]).chan.pending) 127 ≤ 1) ∧
    ((chipHolding 128 [.got 3] [.took 3]).chan.wf ∧ (chipHolding 128 [.got 3] [.took 3]).chan.room 0 ∧
      (chipHolding 128 [.got 3] [.took 3]).chan.pending = Config.fifoChunk ∧ min 3 127 ≤ 3 ∧
      ∀ r ∈ (chipHolding 128 [.got 3] [.took 3]).chan.line.reads, r.delivers = true) :=
  ⟨test_busy_ready (Nat.zero_le _), by decide +kernel, by decide +kernel, by decide +kernel⟩

theorem test_witness_FillMovesOutstandingSamples :
    busy.chan.ready 0 ∧ busy.chan.line.reads = [] ∧ (withReads busy [.got 0]).chan.ready 0 ∧
    (withReads busy [.got 0]).chan.line.reads = [.got 0] ∧ (withReads busy [.starved]).chan.line.reads = [.starved] :=
  ⟨test_busy_ready (Nat.zero_le _), rfl, ⟨test_busy_inv.1, test_busy_inv.2.1, by decide, by decide⟩, rfl, rfl⟩

/-- Of the four owed, one is a discard: three can be received. -/
theorem test_witness_RecvReturnsNextSamples :
    1 ≤ busy.baudMultiplier ∧ busy.chan.ready 0 ∧ busy.chan.discard + busy.baudMultiplier * 3 ≤ busy.chan.owed + busy.chan.aside.length ∧
    busy.chan.echoes.reverse = List.range' busy.chan.handed busy.chan.discard :=
  ⟨by decide, test_busy_ready (Nat.zero_le _), by decide, by decide⟩

/-- The fourth cannot; and of a transport that never delivers, the second cannot: the ring holds two, one a discard. -/
theorem test_witness_RecvBeyondOwedIsStuck :
    1 ≤ busy.baudMultiplier ∧ busy.chan.ready 0 ∧ busy.chan.owed + busy.chan.aside.length < busy.chan.discard + busy.baudMultiplier * 4 ∧
    (withReads busy [.starved]).chan.wf ∧ (∀ w ∈ (withReads busy [.starved]).chan.line.writes, w.whole = true) ∧
    (withReads busy [.starved]).chan.line.reads = [.starved] ∧
    (withReads busy [.starved]).chan.ring.len + (withReads busy [.starved]).chan.aside.length + 1 = (withReads busy [.starved]).chan.discard + busy.baudMultiplier * 2 :=
  ⟨by decide, test_busy_ready (Nat.zero_le _), by decide, by decide, by decide, rfl, by decide⟩

theorem test_witness_DrainEmptiesChannel : busy.chan.ready 0 := test_busy_ready (Nat.zero_le _)

theorem test_witness_UsleepFlushes : busy.chan.ready 0 := test_busy_ready (Nat.zero_le _)

theorem test_witness_TransportErrorsAreFatal :
    (withWrites busy [.took 0]).chan.wf ∧ (withWrites busy [.took 0]).chan.pending < Config.fifoChunk ∧
    (withWrites busy [.took 0]).chan.line.writes = [.took 0] ∧
    0 < min (Config.fifoChunk - busy.chan.pending) busy.chan.tx.len ∧ 0 < busy.chan.tx.len ∧
    (withWrites busy [.failed]).chan.wf ∧ (withWrites busy [.failed]).chan.line.writes = [.failed] ∧
    (failing [.failed] [.failed] [.failed]).chan.wf ∧ (failing [.failed] [.failed] [.failed]).chan.tx.len = 0 ∧
    (failing [.failed] [.failed] [.failed]).chan.line.reads = [.failed] ∧
    (failing [.failed] [.failed] [.failed]).chan.line.modes = [.failed] ∧
    (failing [.failed] [.failed] [.failed]).chan.line.pins = [.failed] :=
  ⟨by decide, by decide, rfl, by decide, by decide, by decide, rfl, by decide, rfl, rfl, rfl, rfl⟩

/-- A ring that holds `k` zeros, the other samples of 8193 outstanding, and these answers to reads to come. -/
def ringHolding (k : Nat) (reads : List ReadReply) : State :=
  fresh.setChan { fresh.chan with
    ring := ⟨[], k, 0, k % 8192⟩, pending := 8193 - k,
    line := { Line.reset with drive := List.replicate 8193 0x00, taken := k, reads := reads } }

theorem test_ringHolding_wf {k : Nat} {reads : List ReadReply} (h : 8065 ≤ k) (h' : k ≤ 8192) : (ringHolding k reads).chan.wf := by
  refine ⟨(by decide : bufferWf Config.fifoChunk []), (by decide : bufferWf Config.rxCapacity []),
    (by decide : 0 < Config.fifoChunk), h', (by decide : 0 < 8192), ?_, ?_, ?_, Nat.le_refl _, Nat.zero_le _, rfl, .nil, nofun⟩
  · show k % 8192 = (0 + k) % 8192
    rw [Nat.zero_add]
  · show 8193 - k ≤ 128
    omega
  · show 8193 - k + k = (List.replicate 8193 (0x00 : Byte)).length
    rw [List.length_replicate]
    omega

/-- A ring that is full, with no answer and with one, and one that the second byte of a batch finds full. -/
theorem test_witness_FullRingRefusesRun :
    ((ringHolding 8192 []).chan.wf ∧ (ringHolding 8192 []).chan.line.reads = [] ∧
      Config.rxCapacity < (ringHolding 8192 []).chan.ring.len + (ringHolding 8192 []).chan.pending) ∧
    ((ringHolding 8192 [.got 1]).chan.wf ∧ (ringHolding 8192 [.got 1]).chan.line.reads = [.got 1] ∧
      Config.rxCapacity < (ringHolding 8192 [.got 1]).chan.ring.len + min 1 (ringHolding 8192 [.got 1]).chan.pending) ∧
    ((ringHolding 8191 [.got 2]).chan.wf ∧ (ringHolding 8191 [.got 2]).chan.line.reads = [.got 2] ∧
      Config.rxCapacity < (ringHolding 8191 [.got 2]).chan.ring.len + min 2 (ringHolding 8191 [.got 2]).chan.pending) :=
  ⟨⟨test_ringHolding_wf (by decide) (by decide), rfl, by decide⟩, ⟨test_ringHolding_wf (by decide) (by decide), rfl, by decide⟩,
    test_ringHolding_wf (by decide) (by decide), rfl, by decide⟩

/-- With nothing owed, and two bytes sent with discard behind; then, every sample the byte driven. -/
theorem test_witness_EchoReturnsBytesSent :
    1 ≤ fresh.baudMultiplier ∧
    fresh.chan.ready (fresh.baudMultiplier * (([0x01, 0x02, 0x03] : List Byte).length + ([0x04, 0x05] : List Byte).length)) ∧
    fresh.chan.owed = fresh.chan.discard ∧ fresh.chan.aside = [] ∧
    (let s := open1 mappingE1 1 0x10 [0x01, 0x02, 0x03, 0x04, 0x05]
     let t := endOf (exec (.send [0x01, 0x02, 0x03] false) s)
     let u := endOf (exec (.send [0x04, 0x05] true) t)
     exec (.send [0x01, 0x02, 0x03] false) s = .next t ∧ exec (.send [0x04, 0x05] true) t = .next u ∧
     ∀ k, k < u.chan.stream.length → u.chan.sample k = u.chan.stream.getD k 0) :=
  ⟨by decide, test_fresh_ready (by decide), by decide, rfl, eq_endOf (by decide +kernel), eq_endOf (by decide +kernel),
    by decide +kernel⟩

/-- With nothing owed and with samples asked for. -/
theorem test_witness_RecvZeroConsumesEchoes :
    ([0xAA, 0xBB] : List Byte) ≠ [] ∧ 1 ≤ fresh.baudMultiplier ∧
    fresh.chan.ready (fresh.baudMultiplier * ([0xAA, 0xBB] : List Byte).length) ∧ 1 ≤ busy.baudMultiplier ∧
    busy.chan.ready (busy.baudMultiplier * ([0xAA, 0xBB] : List Byte).length) ∧ busy.chan.ready 0 :=
  ⟨by decide, by decide, test_fresh_ready (by decide), by decide, test_busy_ready (by decide), test_busy_ready (Nat.zero_le _)⟩

end Sys2Proof.Tests
end

section
/-! What a step of an open session does with an operation's packet (R11, R37), and what a call's outcome leaves (U7, log 18). -/

namespace Sys2Proof.Machine

/-! ### The end of a call -/

@[simp] theorem settle_next (s t : State) : settle s (.next t) = .next t := rfl

@[simp] theorem settle_refused (s : State) (r : Refusal) : settle s (.refused r) = .refused r := rfl

@[simp] theorem settle_channelFault (s : State) (reason : FaultReason) (line : Line) :
    settle s (.fault (.channel reason line)) = .next (recordFault reason line s) := rfl

/-- Only a fault of the channel is caught at the end of a call. -/
theorem settle_of_ne_channelFault {x : Out State} (s : State) (h : ∀ reason line, x ≠ .fault (.channel reason line)) :
    settle s x = x := by
  cases x with
  | next t => exact settle_next s t
  | refused r => exact settle_refused s r
  | fault f =>
    cases f with
    | channel reason line => exact absurd rfl (h reason line)
    | stuck | bufferIndex | unwrittenResult => rfl

/-! ### Fetching an operation -/

theorem fetchOp_of_decode_ok {s : State} {packet left : List Byte} {i : Instr} (ho : s.session = .opened)
    (hd : decode packet = .ok (i, left)) : fetchOp packet s = .next i := by
  rw [fetchOp, if_neg (not_not_intro ho), hd]

/-! ### A step, by the call at the head of the queue -/

theorem step_of_calls_op {s : State} {packet : List Byte} {rest : List HostCall} (hc : s.calls = .op packet :: rest) :
    step s = andThen (fetchOp packet s) fun i => settle (s.setCalls rest) (exec i (s.setCalls rest)) := by
  rw [step, hc]

/-- The form in which statements about whole steps use a decoded packet. -/
theorem step_eq_settle_exec {s : State} {packet left : List Byte} {rest : List HostCall} {i : Instr}
    (ho : s.session = .opened) (hc : s.calls = .op packet :: rest) (hd : decode packet = .ok (i, left)) :
    step s = settle (s.setCalls rest) (exec i (s.setCalls rest)) := by
  rw [step_of_calls_op hc, fetchOp_of_decode_ok ho hd, andThen_next]

/-- Settles O4: the step is the settled outcome of `exec`, and settling alters a fault of the channel only. -/
theorem stepRunsDecodedOperation : Obligations.StepRunsDecodedOperation := by
  intro s packet left rest i hopen hcalls hdecode
  rw [step_eq_settle_exec hopen hcalls hdecode]
  split
  next reason line hfault => rw [hfault, settle_channelFault]
  next hother => exact settle_of_ne_channelFault _ hother

end Sys2Proof.Machine
end

section
/-! The frame of every operation, said once for all 23: what it may change of the registers (R14, R31, R55, R67) and of the
channel (R23, R24, R37, R39), and the statements that read it off. -/

namespace Sys2Proof.Machine

/-! ### The shadow register -/

/-- SCK and SDO are output pins, so what is outside `ddr` is outside the codec's two fields (R15, R31). -/
theorem not_codecMask_and_not_ddr (pm : PinMap) : ~~~codecMask pm &&& ~~~ddrOf pm = ~~~ddrOf pm := by
  refine byte_ext fun i => ?_
  have hsck := disjoint_bit (mask_in_ddr pm (p := .sck) rfl) i
  have hsdo := disjoint_bit (mask_in_ddr pm (p := .sdo) rfl) i
  simp only [pinCfg, codecMask, BitVec.getLsbD_and, BitVec.getLsbD_not, BitVec.getLsbD_or] at hsck hsdo ⊢
  grind

/-- What an operation may do to the shadow register: only those of R14 write it, only `set_pin` writes outside the codec's two
fields, and none writes outside `ddr`. -/
structure OutHeld (i : Instr) (s : State) (o : Byte) : Prop where
  same  : writesOut i = false → o = s.out
  codec : (∀ p x, i ≠ .setPin p x) → o &&& ~~~codecMask s.pinMap = s.out &&& ~~~codecMask s.pinMap
  ddr   : o &&& ~~~ddrOf s.pinMap = s.out &&& ~~~ddrOf s.pinMap

theorem OutHeld.refl (i : Instr) (s : State) : OutHeld i s s.out := ⟨fun _ => rfl, fun _ => rfl, rfl⟩

theorem OutHeld.of_codec {i : Instr} {s : State} {o : Byte} (hw : writesOut i = true)
    (h : o &&& ~~~codecMask s.pinMap = s.out &&& ~~~codecMask s.pinMap) : OutHeld i s o where
  same := fun hf => absurd (hw.symm.trans hf) (by decide)
  codec := fun _ => h
  ddr := by rw [← not_codecMask_and_not_ddr, ← BitVec.and_assoc, h, BitVec.and_assoc]

theorem OutHeld.of_setPin {s : State} {p : Pin} (hp : isOutputPin p = true) (x : Nat) (y : Bool) :
    OutHeld (.setPin p x) s (setBits s.out (pinCfg s.pinMap p) y) where
  same := nofun
  codec := fun h => absurd rfl (h p x)
  ddr := setBits_outside (mask_in_ddr s.pinMap hp) _ _

/-! ### Operations that drive the line -/

/-- `t` is `s` with another channel and a shadow register changed in the codec's two fields only. -/
def CodecFramed (s t : State) : Prop :=
  ∃ o c, t = (s.setOut o).setChan c ∧ o &&& ~~~codecMask s.pinMap = s.out &&& ~~~codecMask s.pinMap

theorem CodecFramed.refl (s : State) : CodecFramed s s := ⟨s.out, s.chan, rfl, rfl⟩

theorem CodecFramed.trans {s t u : State} (h1 : CodecFramed s t) (h2 : CodecFramed t u) : CodecFramed s u := by
  obtain ⟨o1, c1, rfl, ho1⟩ := h1
  obtain ⟨o2, c2, rfl, ho2⟩ := h2
  exact ⟨o2, c2, rfl, ho2.trans ho1⟩

theorem sendDrive_codecFramed {d : Drive} {disc : Bool} {s t : State} (hd : Holds s.pinMap s.out d)
    (h : sendDrive d disc s = .next t) : CodecFramed s t := by
  obtain ⟨c, rfl⟩ := sendDrive_registers h
  exact ⟨d.out, c, rfl, hd.out⟩

theorem exchange_codecFramed {d : Drive} {s : State} {p : State × List Byte} (hd : Holds s.pinMap s.out d)
    (h : exchange d s = .next p) : CodecFramed s p.1 := by
  obtain ⟨c, hp⟩ := exchange_registers h
  exact ⟨d.out, c, hp, hd.out⟩

theorem transmit_codecFramed {b : Byte} {s t : State} (h : transmit b s = .next t) : CodecFramed s t :=
  sendDrive_codecFramed ((holds_start s.pinMap s.out).emitCells _) h

theorem transmitAll_codecFramed {bs : List Byte} {s t : State} (h : transmitAll bs s = .next t) : CodecFramed s t := by
  induction bs generalizing s with
  | nil => cases h; exact .refl _
  | cons b bs ih =>
    obtain ⟨s1, h1, h⟩ := andThen_eq_next h
    exact (transmit_codecFramed h1).trans (ih h)

theorem receive_codecFramed {s : State} {p : State × Except TpiCause Byte} (h : receive s = .next p) : CodecFramed s p.1 := by
  rw [receive] at h
  obtain ⟨q, h1, h⟩ := andThen_eq_next h
  cases h
  exact exchange_codecFramed ((holds_start s.pinMap s.out).emitCells _) h1

theorem receiveAll_codecFramed {n : Nat} {res : List Byte} {s t : State} (h : receiveAll n res s = .next t) :
    ∃ u r, CodecFramed s u ∧ t = u.setRet r := by
  induction n generalizing s res with
  | zero => cases h; exact ⟨s, _, .refl s, rfl⟩
  | succ n ih =>
    obtain ⟨p, h1, h⟩ := andThen_eq_next h
    have hd := receive_codecFramed h1
    split at h
    · obtain ⟨u, r, hu, rfl⟩ := ih h
      exact ⟨u, r, hd.trans hu, rfl⟩
    · cases h
      exact ⟨p.1, _, hd, rfl⟩

/-! ### The registers under every operation (R14, R55, R67) -/

/-- What an operation that completes may change: the shadow register, the channel if the operation reaches it, and what is
handed back. -/
def Framed (i : Instr) (s t : State) : Prop :=
  ∃ o c r, t = ((s.setOut o).setChan c).setRet r ∧ OutHeld i s o ∧ (usesChannel i = false → c = s.chan)

theorem framed_setRet (i : Instr) (s : State) (r : Ret) : Framed i s (s.setRet r) :=
  ⟨s.out, s.chan, r, rfl, .refl i s, fun _ => rfl⟩

theorem framed_setChan {i : Instr} (hu : usesChannel i = true) (s : State) (c : Channel) (r : Ret) :
    Framed i s ((s.setChan c).setRet r) :=
  ⟨s.out, c, r, rfl, .refl i s, fun hf => absurd (hu.symm.trans hf) (by decide)⟩

theorem framed_setOut {i : Instr} {s : State} {o : Byte} (ho : OutHeld i s o) (r : Ret) : Framed i s ((s.setOut o).setRet r) :=
  ⟨o, s.chan, r, rfl, ho, fun _ => rfl⟩

theorem CodecFramed.framed {i : Instr} {s t : State} (h : CodecFramed s t) (hw : writesOut i = true)
    (hu : usesChannel i = true) (r : Ret) : Framed i s (t.setRet r) := by
  obtain ⟨o, c, rfl, ho⟩ := h
  exact ⟨o, c, r, rfl, .of_codec hw ho, fun hf => absurd (hu.symm.trans hf) (by decide)⟩

theorem deliver_eq_setRet (x : Except TpiCause Byte) (s : State) : ∃ r, deliver x s = s.setRet r := by
  cases x with
  | ok b => exact ⟨_, rfl⟩
  | error cause => exact ⟨_, rfl⟩

theorem execSetPin_framed {p : Pin} {x : Nat} {s t : State} (h : execSetPin p x s = .next t) : Framed (.setPin p x) s t := by
  rw [execSetPin] at h
  split at h
  next hp =>
    obtain ⟨u, h1, h⟩ := andThen_eq_next h
    cases h
    obtain ⟨c, rfl⟩ := sendDrive_registers h1
    exact ⟨_, c, _, rfl, .of_setPin hp x (levelOf x), nofun⟩
  next => cases h

/-- All that any operation that completes can change of the machine. -/
theorem exec_framed {i : Instr} {s t : State} (h : exec i s = .next t) : Framed i s t := by
  have hstart := holds_start s.pinMap s.out
  cases i with
  | setBits | getBits | tpiFrame => cases h; exact framed_setRet _ s _
  | extractData rx w =>
    rw [exec, execExtractData] at h
    split at h <;> cases h
    exact framed_setRet _ s _
  | fragExtract rx ws =>
    rw [exec, execFragExtract] at h
    split at h <;> cases h
    exact framed_setRet _ s _
  | tpiDecode res =>
    obtain ⟨r, hr⟩ := deliver_eq_setRet (Machine.tpiDecode res) s
    cases h
    exact hr ▸ framed_setRet _ s r
  | cell x => cases h; exact framed_setOut (.of_codec rfl (hstart.emitCells [x]).out) _
  | setData b => cases h; exact framed_setOut (.of_codec rfl (hstart.emitCells (bitsMsb b)).out) _
  | closeIdle => cases h; exact framed_setOut (.of_codec rfl (hstart.emitWith (.inl rfl) false).out) _
  | closeStretch => cases h; exact framed_setOut (.refl _ s) _
  | send | flush | recv | drain | usleep | fill =>
    obtain ⟨c, -, h⟩ := andThen_eq_next h
    cases h
    exact framed_setChan rfl s _ _
  | getPin p =>
    obtain ⟨c, -, h⟩ := andThen_eq_next h
    obtain ⟨q, -, h⟩ := andThen_eq_next h
    cases h
    exact framed_setChan rfl s _ _
  | setPin p x => exact execSetPin_framed h
  | cmd c =>
    rw [exec, execCmd] at h
    obtain ⟨q, h1, h⟩ := andThen_eq_next h
    cases h
    exact (exchange_codecFramed (holds_cmdDrive s.pinMap c s.out) h1).framed rfl rfl _
  | fragEncode cmds last =>
    rw [exec, execFragEncode] at h
    split at h
    · obtain ⟨u, h1, h⟩ := andThen_eq_next h
      cases h
      exact (sendDrive_codecFramed (holds_fragDrive s.pinMap cmds last s.out) h1).framed rfl rfl _
    · cases h
  | tpiTx b =>
    rw [exec, execTpiTx] at h
    obtain ⟨u, h1, h⟩ := andThen_eq_next h
    cases h
    exact (transmit_codecFramed h1).framed rfl rfl _
  | tpiRx =>
    rw [exec, execTpiRx] at h
    obtain ⟨q, h1, h⟩ := andThen_eq_next h
    obtain ⟨r, hr⟩ := deliver_eq_setRet q.2 q.1
    cases h
    exact hr ▸ (receive_codecFramed h1).framed rfl rfl r
  | cmdTpi bs n =>
    rw [exec, execCmdTpi] at h
    obtain ⟨u, h1, h⟩ := andThen_eq_next h
    obtain ⟨v, r, h2, rfl⟩ := receiveAll_codecFramed h
    exact ((transmitAll_codecFramed h1).trans h2).framed rfl rfl r

/-- Settles O16, by the frame of all operations. -/
theorem registersFrame : Obligations.RegistersFrame := by
  intro i s t h
  obtain ⟨o, c, r, rfl, ho, hc⟩ := exec_framed h
  exact ⟨rfl, rfl, rfl, rfl, rfl, ho.same, hc⟩

/-! ### The channel under every operation (R23, R24, R37, R39) -/

/-- What an operation that stages `k` bytes from `tx.len` on, and then perhaps `k0` from slot 0 on, keeps of the channel. -/
structure ChannelKept (k k0 : Nat) (c c' : Channel) : Prop where
  wf       : c'.wf
  order    : c'.inOrder
  ringKept : ∀ a, (∀ j, j < c'.line.taken - c.line.taken → a ≠ (c.ring.wr + j) % Config.rxCapacity) →
               memRead c'.ring.buf a = memRead c.ring.buf a
  txKept   : ∀ a, (∀ j, j < k → a ≠ (c.tx.len + j) % Config.fifoChunk) → (∀ j, j < k0 → a ≠ j % Config.fifoChunk) →
               memRead c'.tx.buf a = memRead c.tx.buf a

theorem ChannelKept.of_eq {k k0 : Nat} {c c' : Channel} (hc : c.wf) (ho : c.inOrder) (h : c' = c) : ChannelKept k k0 c c' :=
  ⟨h ▸ hc, h ▸ ho, fun _ _ => by rw [h], fun _ _ _ => by rw [h]⟩

theorem Sent.channelKept {disc : Bool} {c c' : Channel} {bs : List Byte} (h : Sent disc c c' bs) (ho : c.inOrder) (k0 : Nat) :
    ChannelKept bs.length k0 c c' :=
  ⟨h.wf, h.passed.order ho, h.passed.kept, fun a ha _ => h.txKept a ha⟩

theorem Exchanged.channelKept {c c' : Channel} {bs : List Byte} {n : Nat} (h : Exchanged c c' bs n) (ho : c.inOrder)
    (k0 : Nat) : ChannelKept bs.length k0 c c' :=
  ⟨h.wf, h.passed.order ho, h.passed.kept, fun a ha _ => h.txKept a ha⟩

/-- Frames sent, then windows received: the first window is staged behind the frames, the later ones from slot 0 on. -/
theorem Sent.windows_channelKept {disc : Bool} {pm : PinMap} {m n k0 : Nat} {a b c : Channel} {bs : List Byte}
    {word : Nat → Word16} (h1 : Sent disc a b bs) (h2 : Windows pm m b c n word) (hk0 : 2 ≤ n → k0 = m * 32)
    (ho : a.inOrder) : ChannelKept (bs.length + m * 32) k0 a c where
  wf := h2.wf
  order := h2.passed.order (h1.passed.order ho)
  ringKept := (h1.passed.trans h2.passed).kept
  txKept := fun x hx hx0 => by
    rw [h2.txKept x (fun j hj => ?_) fun hn => hk0 hn ▸ hx0, h1.txKept x fun j hj => hx j (by omega)]
    rw [h1.txLen, Nat.mod_add_mod, Nat.add_assoc]
    exact hx _ (by omega)

/-- An operation that writes no slot of the staging buffer. -/
theorem Passed.channelKept {k k0 n : Nat} {c c' : Channel} (h : Passed c c') (hw : c'.wf) (ho : c.inOrder)
    (ht : c'.tx = { c.tx with len := n }) : ChannelKept k k0 c c' :=
  ⟨hw, h.order ho, h.kept, fun _ _ _ => by rw [ht]⟩

theorem Flushed.channelKept {k k0 : Nat} {c c' : Channel} (h : Flushed c c') (hc : c.wf) (ho : c.inOrder) :
    ChannelKept k k0 c c' :=
  h.passed.channelKept (h.wf hc) ho h.tx

theorem fill_channelKept {k k0 : Nat} {c : Channel} {p : Channel × Nat} (hc : c.wf) (ho : c.inOrder)
    (h : fill c = .next p) : ChannelKept k k0 c p.1 := by
  obtain ⟨hw, hd, -⟩ := fill_next hc.core h
  have hs : p.1.stream = c.stream := by rw [Channel.stream, hw.drive, List.append_nil, hw.tx, Channel.stream]
  have htx : p.1.tx.len < Config.fifoChunk := hw.tx ▸ hc.2.2.1
  have hwf : p.1.wf := hw.core.wf htx (hc.debts.congr hd hw.handed (owed_congr hc.core hw.core hs hw.handed))
  exact hw.passed.channelKept hwf ho hw.tx

/-- The invariant looks at neither the answers to reads of the pins nor their counter. -/
theorem ChannelKept.readPins {k k0 : Nat} {c c' : Channel} {p : Line × Byte} (h : ChannelKept k k0 c c')
    (hp : readPins c'.line = .next p) : ChannelKept k k0 c { c' with line := p.1 } := by
  rw [(readPins_next hp).1]
  exact ⟨h.wf, h.order, h.ringKept, h.txKept⟩

theorem drainChannel_channelKept {k k0 : Nat} {c c' : Channel} (hc : c.wf) (h : drainChannel c = .next c') :
    ChannelKept k k0 c c' := by
  obtain ⟨c1, hf, rfl, hw, ho⟩ := drainChannel_next hc.core h
  refine ⟨hw, ho, fun a ha => hf.passed.kept a fun j hj => ha j ?_, fun a _ _ => ?_⟩
  · have hb := hf.core.balance
    show j < c1.line.drive.length - c.line.taken
    omega
  · show memRead c1.tx.buf a = _
    rw [hf.tx]

/-! ### What the driving operations put on the line (R31) -/

/-- The stream grew by bytes that have the bits of `out` outside the codec's two fields. -/
def DrivesHeld (s : State) (c : Channel) : Prop :=
  ∃ bs, c.stream = s.chan.stream ++ bs ∧ ∀ b ∈ bs, b &&& ~~~codecMask s.pinMap = s.out &&& ~~~codecMask s.pinMap

theorem mem_of_mem_repeated {m : Nat} {bs : List Byte} {b : Byte} (h : b ∈ repeated m bs) : b ∈ bs := by
  obtain ⟨a, ha, hb⟩ := List.mem_flatMap.mp h
  exact List.eq_of_mem_replicate hb ▸ ha

theorem Holds.drivesHeld {s : State} {c : Channel} {m : Nat} {d : Drive} (hh : Holds s.pinMap s.out d)
    (hs : c.stream = s.chan.stream ++ repeated m d.buf) : DrivesHeld s c :=
  ⟨_, hs, fun b hb => hh.buf b (mem_of_mem_repeated hb)⟩

theorem DrivesHeld.trans {s t : State} {c : Channel} (h1 : DrivesHeld s t.chan) (hp : t.pinMap = s.pinMap)
    (ho : t.out &&& ~~~codecMask s.pinMap = s.out &&& ~~~codecMask s.pinMap) (h2 : DrivesHeld t c) : DrivesHeld s c := by
  obtain ⟨xs, hx, hxs⟩ := h1
  obtain ⟨ys, hy, hys⟩ := h2
  refine ⟨xs ++ ys, by rw [hy, hx, List.append_assoc], fun b hb => ?_⟩
  rw [hp, ho] at hys
  exact (List.mem_append.mp hb).elim (hxs b) (hys b)

/-- The channel after an operation that drives the line: what it keeps, and what was put on the line. -/
structure LineDriven (i : Instr) (s : State) (c : Channel) : Prop where
  kept : ChannelKept (s.baudMultiplier * stagedBytes i) (s.baudMultiplier * restagedBytes i) s.chan c
  held : DrivesHeld s c

section Driving

variable {s t : State} (hc : s.chan.wf) (ho : s.chan.inOrder) (hm : 1 ≤ s.baudMultiplier)

include hc ho

/-- A drive buffer sent as an operation's own bytes. -/
theorem sendDrive_lineDriven {i : Instr} {d : Drive} {disc : Bool} (hd : Holds s.pinMap s.out d)
    (hl : d.buf.length = stagedBytes i) (h : sendDrive d disc s = .next t) : LineDriven i s t.chan := by
  obtain ⟨c, rfl, hs⟩ := sendDrive_next hc h
  have hk := hs.channelKept ho (s.baudMultiplier * restagedBytes i)
  rw [repeated_length, hl] at hk
  exact ⟨hk, hd.drivesHeld hs.stream⟩

theorem execFragEncode_lineDriven {cmds : List Cmd} {last : Bool} (h : execFragEncode cmds last s = .next t) :
    LineDriven (.fragEncode cmds last) s t.chan := by
  rw [execFragEncode] at h
  split at h
  · obtain ⟨u, h1, h⟩ := andThen_eq_next h
    cases h
    exact sendDrive_lineDriven (t := u) hc ho (holds_fragDrive s.pinMap cmds last s.out) (fragDrive_length ..) h1
  · cases h

theorem execTpiTx_lineDriven {b : Byte} (h : execTpiTx b s = .next t) : LineDriven (.tpiTx b) s t.chan := by
  obtain ⟨u, h1, h⟩ := andThen_eq_next h
  cases h
  exact sendDrive_lineDriven (t := u) hc ho ((holds_start s.pinMap s.out).emitCells _) (emitCells_length ..) h1

include hm

theorem execCmd_lineDriven {c : Cmd} (h : execCmd c s = .next t) : LineDriven (.cmd c) s t.chan := by
  obtain ⟨q, h1, h⟩ := andThen_eq_next h
  cases h
  obtain ⟨ch, hq, hx, -⟩ := exchange_next hm hc ho h1
  have hk := hx.channelKept ho (s.baudMultiplier * restagedBytes (.cmd c))
  rw [repeated_length, cmdDrive_length] at hk
  rw [hq]
  exact ⟨hk, (holds_cmdDrive s.pinMap c s.out).drivesHeld hx.stream⟩

theorem execTpiRx_lineDriven (h : execTpiRx s = .next t) : LineDriven .tpiRx s t.chan := by
  obtain ⟨q, h1, h⟩ := andThen_eq_next h
  obtain ⟨c, o, ds, word, hq, -, hw, hs, -, hh, -⟩ := receive_next hm hc ho h1
  obtain ⟨r, hr⟩ := deliver_eq_setRet q.2 q.1
  cases h
  rw [hr, hq]
  have hk := (Sent.refl (disc := true) hc).windows_channelKept hw (k0 := 0) (by omega) ho
  rw [List.length_nil, Nat.zero_add] at hk
  exact ⟨hk, hh.drivesHeld hs⟩

/-- The frames are staged from `tx.len` on, the first window behind them, and the later windows from slot 0 on (R119). -/
theorem execCmdTpi_lineDriven {bs : List Byte} {n : Nat} (h : execCmdTpi bs n s = .next t) :
    LineDriven (.cmdTpi bs n) s t.chan := by
  obtain ⟨u, h1, h⟩ := andThen_eq_next h
  obtain ⟨c1, o1, ds1, rfl, hs1, hl1, hh1, -⟩ := transmitAll_next hc h1
  have hlen : (repeated s.baudMultiplier ds1).length = s.baudMultiplier * (24 * bs.length) := by rw [repeated_length, hl1]
  have hheld1 : DrivesHeld s c1 := hh1.drivesHeld hs1.stream
  cases n with
  | zero =>
    cases h
    have hk := hs1.channelKept ho 0
    rw [hlen] at hk
    exact ⟨hk, hheld1⟩
  | succ n =>
    obtain ⟨c2, o2, ds2, r, k, w, got, word, rfl, -, hw, -, -, hcase, hs2, -, hh2, -⟩ :=
      receiveAll_next (s := (s.setOut o1).setChan c1) hm hs1.wf (hs1.passed.order ho) h
    have hle : w ≤ n + 1 := by
      rcases hcase with ⟨-, rfl, -⟩ | ⟨hlt, rfl, -⟩
      · exact Nat.le_refl _
      · exact hlt
    have hk := hs1.windows_channelKept hw (k0 := s.baudMultiplier * restagedBytes (.cmdTpi bs (n + 1)))
      (fun h2 => by rw [restagedBytes, if_neg (by omega)]; rfl) ho
    rw [hlen, setChan_baudMultiplier, setOut_baudMultiplier, ← Nat.mul_add] at hk
    exact ⟨hk, DrivesHeld.trans (t := (s.setOut o1).setChan c1) hheld1 rfl hh1.out (hh2.drivesHeld hs2)⟩

theorem exec_lineDriven {i : Instr} (hi : drivesLine i = true) (h : exec i s = .next t) : LineDriven i s t.chan := by
  cases i with
  | cmd c => exact execCmd_lineDriven hc ho hm h
  | fragEncode cmds last => exact execFragEncode_lineDriven hc ho h
  | tpiTx b => exact execTpiTx_lineDriven hc ho h
  | tpiRx => exact execTpiRx_lineDriven hc ho hm h
  | cmdTpi bs n => exact execCmdTpi_lineDriven hc ho hm h
  | _ => cases hi

/-- All that any operation that completes can do to the channel. -/
theorem exec_channelKept {i : Instr} (h : exec i s = .next t) :
    ChannelKept (s.baudMultiplier * stagedBytes i) (s.baudMultiplier * restagedBytes i) s.chan t.chan := by
  cases i with
  | setBits | getBits | cell | setData | closeStretch | closeIdle | extractData | fragExtract | tpiFrame | tpiDecode =>
    obtain ⟨o, c, r, rfl, -, hch⟩ := exec_framed h
    exact .of_eq hc ho (hch rfl)
  | cmd | fragEncode | tpiTx | tpiRx | cmdTpi => exact (exec_lineDriven hc ho hm rfl h).kept
  | setPin p x =>
    rw [exec, execSetPin] at h
    split at h
    · obtain ⟨u, h1, h⟩ := andThen_eq_next h
      cases h
      obtain ⟨c, rfl, hs⟩ := sendDrive_next hc h1
      have hk := hs.channelKept ho 0
      rw [repeated_length] at hk
      exact hk
    · cases h
  | send bytes disc =>
    obtain ⟨c, h1, h⟩ := andThen_eq_next h
    cases h
    have hk := (sendBytes_sent hc h1).channelKept ho 0
    rw [repeated_length] at hk
    exact hk
  | flush | usleep =>
    obtain ⟨c, h1, h⟩ := andThen_eq_next h
    cases h
    exact (flushAndClear_flushed hc.core h1).channelKept hc ho
  | getPin p =>
    obtain ⟨c, h1, h⟩ := andThen_eq_next h
    obtain ⟨q, h2, h⟩ := andThen_eq_next h
    cases h
    exact ((flushAndClear_flushed hc.core h1).channelKept hc ho).readPins h2
  | fill =>
    obtain ⟨q, h1, h⟩ := andThen_eq_next h
    cases h
    exact fill_channelKept hc ho h1
  | recv n =>
    obtain ⟨q, h1, h⟩ := andThen_eq_next h
    cases h
    have hr := (recvBytes_received hm hc ho h1).1
    exact hr.passed.channelKept hr.wf ho hr.tx
  | drain =>
    obtain ⟨c, h1, h⟩ := andThen_eq_next h
    cases h
    exact drainChannel_channelKept hc h1

end Driving

/-- Settles O15: the frame of `out`, and the bytes of the drive buffers. -/
theorem neighbourPinsHeld : Obligations.NeighbourPinsHeld := by
  intro i s t h
  refine ⟨fun hi => ?_, fun hi hc ho hm => (exec_lineDriven hc ho hm hi h).held⟩
  obtain ⟨o, c, r, rfl, hout, -⟩ := exec_framed h
  exact hout.codec hi

/-- Settles O18. -/
theorem ringBytesFrame : Obligations.RingBytesFrame :=
  fun _ _ _ hc ho hm h => (exec_channelKept hc ho hm h).ringKept

/-- Settles O19. -/
theorem stagingBytesFrame : Obligations.StagingBytesFrame :=
  fun _ _ _ hc ho hm h => (exec_channelKept hc ho hm h).txKept

end Sys2Proof.Machine
end
section
/-! The life of the machine: what the call at the head of the queue can do (R29, R131, R146, R147, R153), and the machine's
invariant at reset and along every step. -/

namespace Sys2Proof.Machine

/-! ### What one call can do -/

/-- A call that is settled ended in a state, or in a fault of the channel that was recorded. -/
theorem settle_eq_next {s t : State} {x : Out State} (h : settle s x = .next t) :
    x = .next t ∨ ∃ reason line, t = recordFault reason line s := by
  cases x with
  | next u => exact .inl h
  | refused r => cases h
  | fault f =>
    cases f with
    | channel reason line => cases h; exact .inr ⟨reason, line, rfl⟩
    | stuck | bufferIndex | unwrittenResult => cases h

theorem fetchOp_session {packet : List Byte} {s : State} {i : Instr} (h : fetchOp packet s = .next i) :
    s.session = .opened := by
  rw [fetchOp] at h
  split at h
  next => cases h
  next ho => exact not_not.mp ho

theorem openSession_of_legal {pm : PinMap} {s : State} (hs : s.session = .setup) (hl : pinMapLegal pm = true) :
    openSession pm s = andThen (bringUp s.chan.line) fun l =>
      .next (((s.setChan { s.chan with line := l }).configure pm (ddrOf pm) Config.sessionBaudMultiplier).setSession .opened) := by
  rw [openSession, if_neg (not_not_intro hs), if_pos hl]

theorem openSession_of_illegal {pm : PinMap} {s : State} (hs : s.session = .setup) (hl : pinMapLegal pm = false) :
    openSession pm s = .refused .illegalPinMap := by
  rw [openSession, if_neg (not_not_intro hs), if_neg (by rw [hl]; decide)]

/-- All that opening a session can do. -/
theorem openSession_next {pm : PinMap} {s t : State} (h : openSession pm s = .next t) :
    s.session = .setup ∧ pinMapLegal pm = true ∧
      ∃ ms, t = ((s.setChan { s.chan with line := { s.chan.line with modes := ms } }).configure pm (ddrOf pm)
        Config.sessionBaudMultiplier).setSession .opened := by
  have hs : s.session = .setup := by
    rw [openSession] at h
    split at h
    next => cases h
    next hs => exact not_not.mp hs
  cases hl : pinMapLegal pm with
  | false => rw [openSession_of_illegal hs hl] at h; cases h
  | true =>
    rw [openSession_of_legal hs hl] at h
    obtain ⟨l, h1, h⟩ := andThen_eq_next h
    cases h
    exact ⟨hs, rfl, _, by rw [bringUp_next h1]⟩

/-- All that closing a session can do. -/
theorem closeSession_next {s t : State} (h : closeSession s = .next t) :
    ∃ c, drainChannel s.chan = .next c ∧ t = (s.setChan c).setSession .closed := by
  rw [closeSession] at h
  split at h
  · cases h
  · cases h
  all_goals
    obtain ⟨c, h1, h⟩ := andThen_eq_next h
    cases h
    exact ⟨c, h1, rfl⟩

/-- What a call can make of the state without it. -/
inductive Ran (s : State) : HostCall → State → Prop
  | opened {pm : PinMap} {t : State} (h : openSession pm s = .next t) : Ran s (.openSession pm) t
  | closed {t : State} (h : closeSession s = .next t) : Ran s .closeSession t
  | op {packet : List Byte} {i : Instr} {t : State} (hs : s.session = .opened) (h : exec i s = .next t) : Ran s (.op packet) t
  | faulted (call : HostCall) (reason : FaultReason) (line : Line) : Ran s call (recordFault reason line s)

theorem Ran.of_settle {s t : State} {call : HostCall} {x : Out State} (h : settle s x = .next t)
    (hx : x = .next t → Ran s call t) : Ran s call t := by
  rcases settle_eq_next h with h | ⟨reason, line, rfl⟩
  · exact hx h
  · exact .faulted call reason line

/-- All that a step can do with a call queued. -/
theorem step_ran {s t : State} {call : HostCall} {rest : List HostCall} (hc : s.calls = call :: rest)
    (h : step s = .next t) : Ran (s.setCalls rest) call t := by
  cases call with
  | openSession pm =>
    rw [step, hc] at h
    exact .of_settle h .opened
  | closeSession =>
    rw [step, hc] at h
    exact .of_settle h .closed
  | op packet =>
    rw [step_of_calls_op hc] at h
    obtain ⟨i, h1, h⟩ := andThen_eq_next h
    exact .of_settle h (.op (fetchOp_session h1))

/-! ### Opening a session, and who writes the configuration (R13 to R18, R29, R147) -/

/-- Settles O8: the two outcomes of the four calls of the transport, and the refusal. -/
theorem openPopulatesSession : Obligations.OpenPopulatesSession := by
  intro s pm rest hs hc
  have hstep : step s = settle (s.setCalls rest) (openSession pm (s.setCalls rest)) := by rw [step, hc]
  replace hs : (s.setCalls rest).session = .setup := hs
  obtain ⟨hok, hfail⟩ := bringUp_cases (s.setCalls rest).chan.line
  refine ⟨fun hl hm => ?_, fun hl hm => ?_, fun hl => ?_⟩
  · rw [hstep, openSession_of_legal hs hl, hok hm]
    rfl
  · obtain ⟨l, hb, hd⟩ := hfail hm
    exact ⟨l, by rw [hstep, openSession_of_legal hs hl, hb]; rfl, hd⟩
  · rw [hstep, openSession_of_illegal hs hl, settle_refused]

/-- Settles O13, call by call. -/
theorem onlyOpenWritesConfiguration : Obligations.OnlyOpenWritesConfiguration := by
  intro s t call rest hc hopen h
  cases step_ran hc h with
  | opened => exact absurd rfl (hopen _)
  | closed h =>
    obtain ⟨c, -, rfl⟩ := closeSession_next h
    exact ⟨rfl, rfl, rfl, rfl, fun hne => absurd rfl hne⟩
  | op _ h =>
    obtain ⟨o, c, r, rfl, -⟩ := exec_framed h
    exact ⟨rfl, rfl, rfl, rfl, fun _ => .inl rfl⟩
  | faulted call reason line => exact ⟨rfl, rfl, rfl, rfl, fun _ => .inr ⟨reason, rfl⟩⟩

/-! ### The machine's invariant -/

/-- Settles O7. -/
theorem resetIsAfterSetup : Obligations.ResetIsAfterSetup :=
  ⟨rfl, rfl, rfl, rfl, rfl, rfl, rfl, rfl, rfl, rfl, rfl, fun _ => ⟨rfl, rfl⟩⟩

theorem channel_reset_wf : Channel.reset.wf := by decide

/-- An empty ring is in order. -/
theorem inOrder_of_ring_empty {c : Channel} (h : c.ring.len = 0) : c.inOrder :=
  fun j hj => absurd (h ▸ hj) (Nat.not_lt_zero j)

theorem state_reset_configured : State.reset.configured := by decide

/-- Settles O11. -/
theorem resetMeetsInvariant : Obligations.ResetMeetsInvariant :=
  ⟨channel_reset_wf, inOrder_of_ring_empty rfl, state_reset_configured⟩

theorem openSession_inv {pm : PinMap} {s t : State} (hi : s.inv) (h : openSession pm s = .next t) : t.inv := by
  obtain ⟨hw, ho, -, -, hout, -⟩ := hi
  obtain ⟨hs, hl, ms, rfl⟩ := openSession_next h
  refine ⟨hw, ho, rfl, ?_, nofun, fun _ => ⟨hl, rfl⟩⟩
  show s.out &&& ~~~ddrOf pm = 0
  rw [hout hs]
  exact BitVec.zero_and

theorem closeSession_inv {s t : State} (hi : s.inv) (h : closeSession s = .next t) : t.inv := by
  obtain ⟨hw, -, hddr, hout, -, -⟩ := hi
  obtain ⟨c, h1, rfl⟩ := closeSession_next h
  obtain ⟨-, -, -, hw', ho'⟩ := drainChannel_next hw.core h1
  exact ⟨hw', ho', hddr, hout, nofun, nofun⟩

/-- An operation runs in an open session only, where the multiplier is 1. -/
theorem exec_inv {i : Instr} {s t : State} (hs : s.session = .opened) (hi : s.inv) (h : exec i s = .next t) : t.inv := by
  obtain ⟨hw, ho, hddr, hout, -, hopen⟩ := hi
  have hm : 1 ≤ s.baudMultiplier := (hopen hs).2 ▸ Nat.le_refl 1
  have hk := exec_channelKept hw ho hm h
  obtain ⟨o, c, r, rfl, hheld, -⟩ := exec_framed h
  refine ⟨hk.wf, hk.order, hddr, ?_, fun h => absurd (hs.symm.trans h) nofun, hopen⟩
  show o &&& ~~~s.ddr = 0
  rw [hddr, hheld.ddr, ← hddr, hout]

/-- A recorded fault frees `out` on the driven lines only, and leaves an empty channel (log 18). -/
theorem recordFault_inv {s : State} (reason : FaultReason) (line : Line) (hi : s.inv) : (recordFault reason line s).inv := by
  obtain ⟨hw, -, hddr, hout, -, -⟩ := hi
  refine ⟨emptied_wf hw.core line, emptied_inOrder _, hddr, ?_, nofun, nofun⟩
  show ((s.out &&& ~~~s.ddr) ||| (Config.freeOutAfterFault line.drive &&& s.ddr)) &&& ~~~s.ddr = 0
  rw [hout]
  simp [BitVec.and_assoc]

theorem Ran.inv {s t : State} {call : HostCall} (h : Ran s call t) (hi : s.inv) : t.inv := by
  cases h with
  | opened h => exact openSession_inv hi h
  | closed h => exact closeSession_inv hi h
  | op hs h => exact exec_inv hs hi h
  | faulted call reason line => exact recordFault_inv reason line hi

/-- Settles O12: with no call the state stays, and each call keeps the invariant. -/
theorem stepKeepsInvariant : Obligations.StepKeepsInvariant := by
  intro s t hi h
  cases hc : s.calls with
  | nil =>
    rw [step, hc] at h
    cases h
    exact hi
  | cons call rest => exact (step_ran hc h).inv (s := s.setCalls rest) hi

/-! ### Reading a result (R22, R130) -/

/-- Settles O49: the read of an index within the bytes written, and of one past them. -/
theorem unwrittenResultFaults : Obligations.UnwrittenResultFaults := by
  intro cause res i
  refine ⟨fun h => ?_, fun h => ?_⟩
  · rw [readResult, List.getElem?_eq_getElem h]
  · rw [readResult, List.getElem?_eq_none h]

end Sys2Proof.Machine
end
section
/-! The line along every operation and every step: answers are only taken from the front, the drive stream only grows
(R35, R37), and the close of a session, which drains it (R44, R134, R153). -/

namespace Sys2Proof.Machine

/-! ### What an operation can do to the line -/

section Passing

variable {s t : State} (hc : s.chan.wf)

include hc

theorem sendDrive_passed {d : Drive} {disc : Bool} (h : sendDrive d disc s = .next t) : Passed s.chan t.chan := by
  obtain ⟨c, rfl, hs⟩ := sendDrive_next hc h
  exact hs.passed

variable (ho : s.chan.inOrder) (hm : 1 ≤ s.baudMultiplier)

include ho hm

theorem execCmdTpi_passed {bs : List Byte} {n : Nat} (h : execCmdTpi bs n s = .next t) : Passed s.chan t.chan := by
  obtain ⟨u, h1, h⟩ := andThen_eq_next h
  obtain ⟨c1, o1, ds, rfl, hs1, -⟩ := transmitAll_next hc h1
  cases n with
  | zero => cases h; exact hs1.passed
  | succ n =>
    obtain ⟨c2, o2, ds2, r, k, w, got, word, rfl, -, hw, -⟩ :=
      receiveAll_next (s := (s.setOut o1).setChan c1) hm hs1.wf (hs1.passed.order ho) h
    exact hs1.passed.trans hw.passed

/-- All that an operation other than `get_pin` and `drain` can do to the line. -/
theorem exec_passed {i : Instr} (hp : ∀ p, i ≠ .getPin p) (hd : i ≠ .drain) (h : exec i s = .next t) :
    Passed s.chan t.chan := by
  cases i with
  | setBits | getBits | cell | setData | closeStretch | closeIdle | extractData | fragExtract | tpiFrame | tpiDecode =>
    obtain ⟨o, c, r, rfl, -, hch⟩ := exec_framed h
    have hsame : c = s.chan := hch rfl
    exact .of_same hc.core (congrArg Channel.ring hsame) (congrArg Channel.line hsame)
  | getPin p => exact absurd rfl (hp p)
  | drain => exact absurd rfl hd
  | setPin p x =>
    rw [exec, execSetPin] at h
    split at h
    next =>
      obtain ⟨u, h1, h⟩ := andThen_eq_next h
      cases h
      exact sendDrive_passed (t := u) hc h1
    next => cases h
  | fragEncode cmds last =>
    rw [exec, execFragEncode] at h
    split at h
    next =>
      obtain ⟨u, h1, h⟩ := andThen_eq_next h
      cases h
      exact sendDrive_passed (t := u) hc h1
    next => cases h
  | tpiTx b =>
    rw [exec, execTpiTx, transmit] at h
    obtain ⟨u, h1, h⟩ := andThen_eq_next h
    cases h
    exact sendDrive_passed (t := u) hc h1
  | cmd c =>
    rw [exec, execCmd] at h
    obtain ⟨q, h1, h⟩ := andThen_eq_next h
    cases h
    obtain ⟨ch, hq, hx, -⟩ := exchange_next hm hc ho h1
    exact hq ▸ hx.passed
  | tpiRx =>
    rw [exec, execTpiRx] at h
    obtain ⟨q, h1, h⟩ := andThen_eq_next h
    obtain ⟨c, o, ds, word, hq, -, hw, -⟩ := receive_next hm hc ho h1
    obtain ⟨r, hr⟩ := deliver_eq_setRet q.2 q.1
    cases h
    rw [hr, hq]
    exact hw.passed
  | cmdTpi bs n => exact execCmdTpi_passed hc ho hm h
  | send bytes disc =>
    obtain ⟨c, h1, h⟩ := andThen_eq_next h
    cases h
    exact (sendBytes_sent hc h1).passed
  | flush | usleep =>
    obtain ⟨c, h1, h⟩ := andThen_eq_next h
    cases h
    exact (flushAndClear_flushed hc.core h1).passed
  | fill =>
    obtain ⟨q, h1, h⟩ := andThen_eq_next h
    cases h
    exact (fill_next hc.core h1).1.passed
  | recv n =>
    obtain ⟨q, h1, h⟩ := andThen_eq_next h
    cases h
    exact (recvBytes_received hm hc ho h1).1.passed

end Passing

/-- `get_pin` flushes, and takes one answer to a read of the pins. -/
theorem execGetPin_next {p : Pin} {s t : State} (hc : s.chan.core) (h : execGetPin p s = .next t) :
    ∃ c, Flushed s.chan c ∧
      t.chan = { c with line := { c.line with pinReads := c.line.pinReads + 1, pins := c.line.pins.tail } } := by
  obtain ⟨c, h1, h⟩ := andThen_eq_next h
  obtain ⟨q, h2, h⟩ := andThen_eq_next h
  cases h
  exact ⟨c, flushAndClear_flushed hc h1, by rw [← (readPins_next h2).1]; rfl⟩

/-- `drain` flushes, purges what is outstanding, and takes two answers to control calls. -/
theorem drainChannel_line {c c' : Channel} (hc : c.core) (h : drainChannel c = .next c') :
    ∃ c1, Flushed c c1 ∧ c'.line = { c1.line with
      modes := c1.line.modes.tail.tail, taken := c1.line.drive.length, drains := c1.line.drains + 1 } := by
  obtain ⟨c1, hf, rfl, -⟩ := drainChannel_next hc h
  exact ⟨c1, hf, rfl⟩

/-- What every operation that completes keeps of the line. -/
structure LineKept (i : Instr) (l l' : Line) : Prop where
  taken   : l.taken ≤ l'.taken
  samples : l'.samples = l.samples
  reads   : l'.reads <:+ l.reads
  writes  : l'.writes <:+ l.writes
  pins    : l'.pins <:+ l.pins
  modes   : l'.modes <:+ l.modes
  others  : (∀ p, i ≠ .getPin p) → l'.pins = l.pins ∧ l'.pinReads = l.pinReads
  noDrain : i ≠ .drain → l'.modes = l.modes ∧ l'.drains = l.drains

theorem Passed.lineKept {c c' : Channel} (h : Passed c c') (i : Instr) : LineKept i c.line c'.line where
  taken := h.taken
  samples := h.samples
  reads := h.reads
  writes := h.writes
  pins := h.pins ▸ List.suffix_refl _
  modes := h.modes ▸ List.suffix_refl _
  others := fun _ => ⟨h.pins, h.pinReads⟩
  noDrain := fun _ => ⟨h.modes, h.drains⟩

theorem execGetPin_lineKept {p : Pin} {s t : State} (hc : s.chan.core) (h : execGetPin p s = .next t) :
    LineKept (.getPin p) s.chan.line t.chan.line := by
  obtain ⟨c, hf, ht⟩ := execGetPin_next hc h
  rw [ht]
  have hk := hf.passed.lineKept (.getPin p)
  exact { hk with
    pins := (List.tail_suffix _).trans hk.pins
    others := fun hp => absurd rfl (hp p) }

theorem drainChannel_lineKept {c c' : Channel} (hc : c.core) (h : drainChannel c = .next c') :
    LineKept .drain c.line c'.line := by
  obtain ⟨c1, hf, hl⟩ := drainChannel_line hc h
  rw [hl]
  have hk := hf.passed.lineKept .drain
  exact { hk with
    taken := hk.taken.trans (by have := hf.core.balance; show c1.line.taken ≤ c1.line.drive.length; omega)
    modes := (List.tail_suffix _).trans ((List.tail_suffix _).trans hk.modes)
    noDrain := fun hd => absurd rfl hd }

theorem exec_lineKept {i : Instr} {s t : State} (hc : s.chan.wf) (ho : s.chan.inOrder) (hm : 1 ≤ s.baudMultiplier)
    (h : exec i s = .next t) : LineKept i s.chan.line t.chan.line := by
  by_cases hp : ∃ p, i = .getPin p
  · obtain ⟨p, rfl⟩ := hp
    exact execGetPin_lineKept hc.core h
  by_cases hd : i = .drain
  · subst hd
    obtain ⟨c, h1, h⟩ := andThen_eq_next h
    cases h
    exact drainChannel_lineKept hc.core h1
  exact (exec_passed hc ho hm (fun p e => hp ⟨p, e⟩) hd h).lineKept i

/-- Settles O17, by the frame of all operations on the line. -/
theorem lineFrame : Obligations.LineFrame := by
  intro i s t hc ho hm h
  obtain ⟨-, hs, hr, hw, hp, hd, hothers, hnoDrain⟩ := exec_lineKept hc ho hm h
  exact ⟨hs, hr, hw, hp, hd, hothers, hnoDrain⟩

/-! ### The drive stream along a step -/

theorem grows_same {α : Type} {f : α → Line} {l : Line} {a : α} (h : (f a).drive = l.drive) : Grows f l (.next a) :=
  grows_next (h ▸ List.prefix_refl _)

/-- Whatever any operation ends in, the drive stream only grew. -/
theorem exec_grows (i : Instr) (s : State) : Grows lineOf s.chan.line (exec i s) := by
  cases i with
  | setBits | getBits | cell | setData | closeStretch | closeIdle | tpiFrame => exact grows_same rfl
  | tpiDecode res =>
    obtain ⟨r, hr⟩ := deliver_eq_setRet (Machine.tpiDecode res) s
    rw [exec, execTpiDecode, hr]
    exact grows_same rfl
  | extractData rx w =>
    rw [exec, execExtractData]
    split
    · exact grows_same rfl
    · exact grows_refused
  | fragExtract rx ws =>
    rw [exec, execFragExtract]
    split
    · exact grows_same rfl
    · exact grows_refused
  | setPin p x =>
    rw [exec, execSetPin]
    split
    · exact grows_andThen (sendDrive_grows _ true s) fun _ _ => grows_same rfl
    · exact grows_refused
  | fragEncode cmds last =>
    rw [exec, execFragEncode]
    split
    · exact grows_andThen (sendDrive_grows _ false s) fun _ _ => grows_same rfl
    · exact grows_refused
  | getPin p =>
    exact grows_andThen (flushAndClear_grows s.chan) fun c _ =>
      grows_andThen (readPins_grows c.line) fun _ _ => grows_same rfl
  | cmd c =>
    rw [exec, execCmd]
    exact grows_andThen (exchange_grows _ s) fun _ _ => grows_same rfl
  | tpiTx b =>
    rw [exec, execTpiTx, transmit]
    exact grows_andThen (sendDrive_grows _ true s) fun _ _ => grows_same rfl
  | tpiRx =>
    rw [exec, execTpiRx]
    refine grows_andThen (receive_grows s) fun p _ => ?_
    obtain ⟨r, hr⟩ := deliver_eq_setRet p.2 p.1
    rw [hr]
    exact grows_same rfl
  | cmdTpi bs n => exact grows_andThen (transmitAll_grows bs s) fun t _ => receiveAll_grows n [] t
  | send bytes disc => exact grows_andThen (stageAll_grows disc s.chan _) fun _ _ => grows_same rfl
  | flush | usleep => exact grows_andThen (flushAndClear_grows s.chan) fun _ _ => grows_same rfl
  | fill => exact grows_andThen (fill_grows s.chan) fun _ _ => grows_same rfl
  | recv n => exact grows_andThen (recvBytes_grows _ n s.chan) fun _ _ => grows_same rfl
  | drain => exact grows_andThen (drainChannel_grows s.chan) fun _ _ => grows_same rfl

theorem openSession_grows (pm : PinMap) (s : State) : Grows lineOf s.chan.line (openSession pm s) := by
  rw [openSession]
  split
  · exact grows_refused
  split
  · exact grows_andThen (bringUp_grows s.chan.line) fun _ _ => grows_same rfl
  · exact grows_refused

theorem closeSession_grows (s : State) : Grows lineOf s.chan.line (closeSession s) := by
  rw [closeSession]
  split
  · exact grows_refused
  · exact grows_refused
  all_goals exact grows_andThen (drainChannel_grows s.chan) fun _ _ => grows_same rfl

/-- A recorded fault leaves the drive stream as the failed call left it. -/
theorem settle_drive_prefix {l : Line} {s t : State} {x : Out State} (hx : Grows lineOf l x) (h : settle s x = .next t) :
    l.drive <+: t.chan.line.drive := by
  cases x with
  | next u => cases h; exact hx.next t rfl
  | refused r => cases h
  | fault f =>
    cases f with
    | channel reason line => cases h; exact hx.fault reason line rfl
    | stuck | bufferIndex | unwrittenResult => cases h

theorem step_drive_prefix {s t : State} {call : HostCall} {rest : List HostCall} (hc : s.calls = call :: rest)
    (h : step s = .next t) : s.chan.line.drive <+: t.chan.line.drive := by
  cases call with
  | openSession pm =>
    rw [step, hc] at h
    exact settle_drive_prefix (openSession_grows pm (s.setCalls rest)) h
  | closeSession =>
    rw [step, hc] at h
    exact settle_drive_prefix (closeSession_grows (s.setCalls rest)) h
  | op packet =>
    rw [step_of_calls_op hc] at h
    obtain ⟨i, -, h⟩ := andThen_eq_next h
    exact settle_drive_prefix (exec_grows i (s.setCalls rest)) h

/-- No call gives a sample back: the purge of a close or of a recorded fault counts all that was driven as taken. -/
theorem Ran.taken_le {s t : State} {call : HostCall} (h : Ran s call t) (hi : s.inv)
    (hd : s.chan.line.drive <+: t.chan.line.drive) : s.chan.line.taken ≤ t.chan.line.taken := by
  obtain ⟨hw, ho, -, -, -, hopen⟩ := hi
  cases h with
  | opened h =>
    obtain ⟨-, -, ms, rfl⟩ := openSession_next h
    exact Nat.le_refl _
  | closed h =>
    obtain ⟨c, h1, rfl⟩ := closeSession_next h
    exact (drainChannel_lineKept hw.core h1).taken
  | op hs h => exact (exec_lineKept hw ho ((hopen hs).2 ▸ Nat.le_refl 1) h).taken
  | faulted call reason line =>
    have hlen : s.chan.line.drive.length ≤ line.drive.length := hd.length_le
    have := hw.core.balance
    show s.chan.line.taken ≤ line.drive.length
    omega

/-- Settles O14, call by call. -/
theorem driveStreamOnlyGrows : Obligations.DriveStreamOnlyGrows := by
  intro s t hi h
  cases hc : s.calls with
  | nil =>
    rw [step, hc] at h
    cases h
    exact ⟨List.prefix_refl _, Nat.le_refl _⟩
  | cons call rest =>
    have hd := step_drive_prefix hc h
    exact ⟨hd, (step_ran hc h).taken_le (s := s.setCalls rest) hi hd⟩

/-! ### The close of a session (R44, R134, R153) -/

/-- With nothing staged a flush does nothing. -/
theorem flushAndClear_of_empty {c : Channel} (h : c.tx.len = 0) : flushAndClear c = .next (clearTx c) := by
  rw [flushAndClear, flush, h]
  rfl

/-- A refused bit mode change, the first or the second, is a fault of the drain. -/
theorem drainChannel_of_modeFailed {c : Channel} {ms : List ModeReply} (ht : c.tx.len = 0)
    (hm : c.line.modes = .failed :: ms ∨ c.line.modes = .accepted :: .failed :: ms) :
    drainChannel c = .fault (.channel .transport { c.line with modes := ms }) := by
  have hl : (clearTx c).line = c.line := rfl
  rw [drainChannel, flushAndClear_of_empty ht, andThen_next, hl]
  rcases hm with hm | hm <;> simp only [changeMode, hm, andThen_next, andThen_fault]

/-- What was driven is all of the stream once the channel is emptied. -/
theorem emptied_stream (c : Channel) : (emptied c).stream = c.line.drive := (stream_of_empty rfl).symm

/-- A chain whose last link cannot fail faults where its first does. -/
theorem andThen_eq_fault {α β : Type} {x : Out α} {f : α → β} {r : Fault}
    (h : andThen x (fun a => .next (f a)) = .fault r) : x = .fault r := by
  cases x with
  | next a => cases h
  | fault r' => cases h; rfl
  | refused r' => cases h

theorem step_of_calls_close {s : State} {rest : List HostCall} (hc : s.calls = .closeSession :: rest) :
    step s = settle (s.setCalls rest) (closeSession (s.setCalls rest)) := by
  rw [step, hc]

/-- A session that was opened and not closed. -/
abbrev State.live (s : State) : Prop := s.session = .opened ∨ ∃ reason, s.session = .faulted reason

theorem closeSession_of_live {s : State} (hs : s.live) :
    closeSession s = andThen (drainChannel s.chan) fun c => .next ((s.setChan c).setSession .closed) := by
  rw [closeSession]
  rcases hs with hs | ⟨reason, hs⟩ <;> rw [hs]

theorem closeSession_of_not_live {s : State} (hs : s.session = .setup ∨ s.session = .closed) :
    closeSession s = .refused .sessionOrder := by
  rw [closeSession]
  rcases hs with hs | hs <;> rw [hs]

/-- A close whose drain faults has the fault recorded. -/
theorem step_close_of_drainFault {s : State} {rest : List HostCall} {reason : FaultReason} {line : Line}
    (hc : s.calls = .closeSession :: rest) (hs : s.live) (hd : drainChannel s.chan = .fault (.channel reason line)) :
    step s = .next (recordFault reason line (s.setCalls rest)) := by
  rw [step_of_calls_close hc, closeSession_of_live (s := s.setCalls rest) hs, setCalls_chan, hd]
  rfl

/-- Settles O10: the drain that completes, the drain that faults, and the refusal. -/
theorem closeDrainsAndEndsSession : Obligations.CloseDrainsAndEndsSession := by
  intro s rest hc
  refine ⟨fun hs hr => ?_, fun hs => ⟨fun reason line h => ?_, fun ms ht hm => ?_⟩, fun hs => ?_⟩
  · obtain ⟨hw, -, hl, hroom⟩ := hr
    obtain ⟨c, h⟩ := drainChannel_completes hw.core hl hroom
    refine ⟨c, ?_, ?_⟩
    · rw [step_of_calls_close hc, closeSession_of_live (s := s.setCalls rest) hs, setCalls_chan, h]
      rfl
    · obtain ⟨c1, hf, rfl, -⟩ := drainChannel_next hw.core h
      exact ⟨rfl, rfl, rfl, rfl, rfl, hf.drive⟩
  · exact ⟨_, step_close_of_drainFault hc hs (andThen_eq_fault h), rfl, rfl, rfl, rfl, rfl, rfl,
      emptied_stream _⟩
  · exact step_close_of_drainFault hc hs (drainChannel_of_modeFailed ht hm)
  · rw [step_of_calls_close hc, closeSession_of_not_live (s := s.setCalls rest) hs]
    rfl

end Sys2Proof.Machine
end
section
/-! The channel operations `send`, `flush`, `usleep`, `fill` and `drain` (R36 to R46): what each does where the outside does
not fail, and the faults and the refusal where it does (R59, R131). -/

namespace Sys2Proof.Machine

/-! ### send (R39) -/

/-- What a send leaves to do its work with: room for so many bytes fewer. -/
theorem Sent.ready {disc : Bool} {c c' : Channel} {bs : List Byte} {n : Nat} (h : Sent disc c c' bs)
    (hr : c.ready (bs.length + n)) : c'.ready n := by
  obtain ⟨hw, ho, hl, hroom⟩ := hr
  refine ⟨h.wf, h.passed.order ho, h.passed.healthy hl, ?_⟩
  have := h.owed hw
  simp only [Channel.room, h.aside] at hroom ⊢
  omega

/-- A send with room for its bytes, and for `n` more, completes and leaves room for those. -/
theorem exec_send {s : State} {bytes : List Byte} {n : Nat} (d : Bool)
    (hr : s.chan.ready (s.baudMultiplier * bytes.length + n)) :
    ∃ c, exec (.send bytes d) s = .next ((s.setChan c).setRet .done) ∧
      Sent d s.chan c (repeated s.baudMultiplier bytes) ∧ c.ready n := by
  obtain ⟨hw, -, hl, hroom⟩ := id hr
  obtain ⟨c, h⟩ := sendBytes_completes (m := s.baudMultiplier) (bs := bytes) (disc := d) hw hl (by
    simp only [Channel.room] at hroom ⊢; omega)
  have hs := sendBytes_sent hw h
  exact ⟨c, by rw [exec, execSend, h]; rfl, hs, hs.ready (by rwa [repeated_length])⟩

/-- Settles O50, by what a send that completes does. -/
theorem sendAppendsToStream : Obligations.SendAppendsToStream := by
  intro s bytes d hr
  obtain ⟨c, h, hs, -⟩ := exec_send (n := 0) d hr
  obtain ⟨hw, ho, -, -⟩ := hr
  have hdebts := hs.debts
  have htx := hs.txLen
  rw [repeated_length] at hdebts htx
  refine ⟨c, h, hs.stream, hdebts, ?_, ?_, htx, hs.handed, hs.rd, hs.wf, hs.passed.order ho, hs.passed.movedTo⟩
  · rw [hs.asked hw, repeated_length]
    cases d
    · rfl
    · exact (List.append_nil _).symm
  · cases d
    · rw [hs.queue hw, repeated_length]
      rfl
    · rw [hs.queue_discard hw]
      exact (List.append_nil _).symm

/-! ### flush and usleep (R40, R46) -/

theorem exec_flush {s : State} {c : Channel} (h : flushAndClear s.chan = .next c) :
    exec .flush s = .next ((s.setChan c).setRet .done) := by
  rw [exec, execFlush, h]
  rfl

/-- The first write of a flush, once there is room: as many of the staged bytes as the chip has room for. -/
theorem flush_first_write {c c1 : Channel} {k : Nat} (ht : 0 < c.tx.len)
    (h : fillUntil hasRoom c.line.reads.length c = .next c1) (hk : min (Config.fifoChunk - c1.pending) c.tx.len = k) :
    flush c = andThen (transportWrite c1.line ((staged c.tx).take k)) fun l =>
      flushLoop (c.tx.len - 1) { c1 with line := l, pending := c1.pending + k } ((staged c.tx).drop k) := by
  subst hk
  have hlen := staged_length c.tx
  cases hs : staged c.tx with
  | nil => rw [hs, List.length_nil] at hlen; omega
  | cons b bs =>
    rw [hs, List.length_cons] at hlen
    rw [flush, hs, ← hlen, flushLoop, h]
    rfl

theorem transportWrite_took {l : Line} {bs : List Byte} {n : Nat} {ws : List WriteReply} (hw : l.writes = .took n :: ws)
    (hn : bs.length ≤ n) : transportWrite l bs = .next { l with drive := l.drive ++ bs, writes := ws } := by
  rw [transportWrite, hw]
  exact if_neg (by omega)

theorem transportWrite_short {l : Line} {bs : List Byte} {n : Nat} {ws : List WriteReply} (hw : l.writes = .took n :: ws)
    (hn : n < bs.length) : transportWrite l bs =
      .fault (.channel .shortWrite { l with drive := l.drive ++ bs.take n, writes := ws }) := by
  rw [transportWrite, hw]
  exact if_pos hn

/-- A flush whose first write is taken, and whose later writes are whole, completes. -/
theorem flush_completes_of_first_write {c c1 : Channel} {n : Nat} {ws : List WriteReply} (hc : c.core) (ht : 0 < c.tx.len)
    (h : fillUntil hasRoom c.line.reads.length c = .next c1) (hr : c.room 0)
    (hreads : ∀ r ∈ c.line.reads, r.delivers = true) (hw : c1.line.writes = .took n :: ws)
    (hn : min (Config.fifoChunk - c1.pending) c.tx.len ≤ n) (hws : ∀ w ∈ ws, w.whole = true) :
    ∃ c', flush c = .next c' := by
  obtain ⟨hw1, -, hroom⟩ := fillUntil_next hc h
  simp only [hasRoom, decide_eq_true_eq] at hroom
  generalize hk : min (Config.fifoChunk - c1.pending) c.tx.len = k at hn
  have hlen : ((staged c.tx).take k).length = k := by
    rw [List.length_take, staged_length]
    omega
  have hwrite := transportWrite_took hw (bs := (staged c.tx).take k) (hlen.symm ▸ hn)
  have hw2 := write_worked hw1.core (by omega) hwrite
  rw [hlen] at hw2
  have hf := (hw1.trans hw2).inFlight hc
  rw [List.nil_append, hlen] at hf
  rw [flush_first_write ht h hk, hwrite, andThen_next]
  simp only [Channel.room, Channel.owed] at hr
  refine flushLoop_completes hw2.core ⟨fun r hm => hreads r (hw1.reads.mem hm), hws⟩ ?_ ?_ <;>
    rw [List.length_drop, staged_length] <;> omega

theorem transportRead_nil {l : Line} (h : l.reads = []) (m : Nat) :
    transportRead l m = .next ({ l with taken := l.taken + m }, nextSamples l m) := by
  rw [transportRead, h]

theorem transportRead_got {l : Line} {n : Nat} {rs : List ReadReply} (h : l.reads = .got n :: rs) (m : Nat) :
    transportRead l m = .next ({ l with taken := l.taken + min n m, reads := rs }, nextSamples l (min n m)) := by
  rw [transportRead, h]

/-- The batch of a fill is as large as the transport's answer, as far as so much is outstanding. -/
theorem fill_got {c : Channel} {p : Channel × Nat} {n : Nat} {rs : List ReadReply} (hr : c.line.reads = .got n :: rs)
    (h : fill c = .next p) : p.2 = min n c.pending ∧ p.1.line.writes = c.line.writes := by
  rw [fill, transportRead_got hr, andThen_next] at h
  obtain ⟨r, -, h⟩ := andThen_eq_next h
  cases h
  exact ⟨nextSamples_length _ _, rfl⟩

/-- A blocking fill that one fill is enough for. -/
theorem fillUntil_once {done : Channel → Bool} {k : Nat} {c : Channel} {p : Channel × Nat} (hd : done c = false)
    (h : fill c = .next p) (hd' : done p.1 = true) : fillUntil done (k + 1) c = .next p.1 := by
  rw [fillUntil, if_neg (by rw [hd]; decide), h, andThen_next, fillUntil_done hd']

/-- Room in a full chip is made by one fill that is answered with samples. -/
theorem fillUntil_hasRoom_got {c : Channel} {k : Nat} {rs : List ReadReply} (hc : c.core)
    (hreads : c.line.reads = .got k :: rs) (hp : c.pending = Config.fifoChunk) (hk : 0 < k) (hle : k ≤ Config.fifoChunk)
    {p : Channel × Nat} (h : fill c = .next p) :
    fillUntil hasRoom c.line.reads.length c = .next p.1 ∧ p.1.pending = Config.fifoChunk - k := by
  obtain ⟨hcount, -⟩ := fill_got hreads h
  obtain ⟨-, -, -, hpend, -⟩ := fill_next hc h
  have hleft : p.1.pending = Config.fifoChunk - k := by omega
  rw [hreads]
  exact ⟨fillUntil_once (by simp [hasRoom, hp]) h (by simp only [hasRoom, decide_eq_true_eq]; omega), hleft⟩

/-- The first write of a flush is no larger than the room (R40), so that a flush whose first write takes so much completes. -/
theorem flush_completes_of_took_room {c : Channel} {k n : Nat} {rs : List ReadReply} {ws : List WriteReply} (hc : c.core)
    (hr : c.room 0) (hw : c.line.writes = .took n :: ws) (hws : ∀ w ∈ ws, w.whole = true)
    (hreads : ∀ r ∈ c.line.reads, r.delivers = true)
    (hk : c.pending < Config.fifoChunk ∧ k = Config.fifoChunk - c.pending ∨
      c.pending = Config.fifoChunk ∧ 0 < k ∧ k ≤ Config.fifoChunk ∧ c.line.reads = .got k :: rs)
    (hn : min k c.tx.len ≤ n) : ∃ c', flush c = .next c' := by
  rcases Nat.eq_zero_or_pos c.tx.len with ht | ht
  · exact ⟨c, by rw [flush, ht]; rfl⟩
  rcases hk with ⟨hp, rfl⟩ | ⟨hp, hpos, hle, hgot⟩
  · have hroom : fillUntil hasRoom c.line.reads.length c = .next c := fillUntil_done (decide_eq_true hp)
    exact flush_completes_of_first_write hc ht hroom hr hreads hw hn hws
  · have hcap : c.ring.len + c.pending ≤ Config.rxCapacity := by
      simp only [Channel.room, Channel.owed] at hr
      omega
    have hread := transportRead_got hgot c.pending
    obtain ⟨r, hring⟩ := ringPushAll_completes hc.ring (bs := nextSamples c.line (min k c.pending)) (by
      rw [nextSamples_length]
      omega)
    obtain ⟨p, hfill⟩ : ∃ p, fill c = .next p := ⟨_, by rw [fill, hread, andThen_next, hring, andThen_next]⟩
    obtain ⟨hroom, hleft⟩ := fillUntil_hasRoom_got hc hgot hp hpos hle hfill
    refine flush_completes_of_first_write hc ht hroom hr hreads ((fill_got hgot hfill).2.trans hw) ?_ hws
    rw [hleft]
    omega

/-- Settles O51: the flush where the outside does not fail, and the flush whose first write takes as much as there is room. -/
theorem flushWritesStagedBytes : Obligations.FlushWritesStagedBytes := by
  refine ⟨fun s hr => ?_, fun s k n reads writes hc hr hw hws hreads hk hn => ?_⟩
  · obtain ⟨hw, -, hl, hroom⟩ := hr
    obtain ⟨c, h⟩ := flushAndClear_completes hw.core hl hroom
    have hf := flushAndClear_flushed hw.core h
    exact ⟨c, exec_flush h, hf.drive, hf.stream, hf.tx, hf.core.pending, hf.core.balance, hf.debts, hf.queue hw, hf.handed,
      hf.wf hw, hf.passed.movedTo⟩
  · obtain ⟨c, h⟩ := flush_completes_of_took_room hc.core hr hw hws hreads hk hn
    have h' : flushAndClear s.chan = .next (clearTx c) := by rw [flushAndClear, h]; rfl
    exact ⟨clearTx c, exec_flush h', (flushAndClear_flushed hc.core h').drive⟩

/-- Settles O56: a flush, whatever the length of the sleep. -/
theorem usleepFlushes : Obligations.UsleepFlushes := by
  intro s us hr
  obtain ⟨hw, ho, hl, hroom⟩ := hr
  obtain ⟨c, h⟩ := flushAndClear_completes hw.core hl hroom
  have hf := flushAndClear_flushed hw.core h
  exact ⟨c, exec_flush h, hf.drive, by rw [hf.tx], hf.handed, hf.debts, hf.queue hw, hf.owed hw.core, hf.wf hw,
    hf.passed.order ho, hf.passed.movedTo, fun _ => rfl⟩

/-! ### fill (R41) -/

/-- The samples a fill reads are at the ring's write index, in order. -/
theorem fill_samples {c : Channel} {p : Channel × Nat} (hc : c.core) (ho : c.inOrder) (h : fill c = .next p) {j : Nat}
    (hj : j < p.2) : memRead p.1.ring.buf ((c.ring.wr + j) % Config.rxCapacity) = c.sample (c.line.taken + j) := by
  obtain ⟨hw, -, hle, -, hlen, -⟩ := fill_next hc h
  have hbal := hc.balance
  have hheld := hc.held
  have hv := hw.order ho (c.ring.len + j) (by omega)
  have hrd : p.1.ring.rd = c.ring.rd := by rw [hw.rd, Nat.add_zero, Nat.mod_eq_of_lt hc.ring.2.2.1]
  have hat : p.1.handed + (c.ring.len + j) = c.line.taken + j := by
    rw [hw.handed]
    unfold Channel.handed
    omega
  have hdrive : p.1.line.drive = c.line.drive := by rw [hw.drive, List.append_nil]
  rw [hrd, ← Nat.add_assoc, hat, sampleAt_stable hw.samples (hdrive ▸ List.prefix_refl _) (by omega)] at hv
  rw [hc.ring.2.2.2, Nat.mod_add_mod, hv, sample_eq_sampleAt (by omega)]

theorem exec_fill {s : State} {p : Channel × Nat} (h : fill s.chan = .next p) :
    exec .fill s = .next ((s.setChan p.1).setRet (.count p.2)) := by
  rw [exec, execFill, h]
  rfl

/-- Settles O52: the fill that completes, and that from a transport that never delivers. -/
theorem fillMovesOutstandingSamples : Obligations.FillMovesOutstandingSamples := by
  refine ⟨fun s hr => ?_, fun s rest h => exec_fill (fill_starved ⟨rest, h⟩)⟩
  obtain ⟨hc, ho, hl, hroom⟩ := hr
  simp only [Channel.room, Channel.owed] at hroom
  obtain ⟨p, h⟩ := fill_completes hc.core hl.flows (by omega)
  obtain ⟨hw, hd, hle, hpend, hlen, htaken, -, hall⟩ := fill_next hc.core h
  have hdrive : p.1.line.drive = s.chan.line.drive := by rw [hw.drive, List.append_nil]
  have hstream : p.1.stream = s.chan.stream := by rw [Channel.stream, hdrive, hw.tx, Channel.stream]
  have hwr := hw.wr
  rw [htaken, Nat.add_sub_cancel_left] at hwr
  refine ⟨p.1, p.2, exec_fill h, hle, hpend, hlen, hwr, ?_, fun j hj => fill_samples hc.core ho h hj, hw.tx, hd,
    queue_congr hc hw.core hd hw.handed hstream hw.samples, hdrive, hall, fun n rest hgot => (fill_got hgot h).1⟩
  rw [hw.rd, Nat.add_zero, Nat.mod_eq_of_lt hc.core.ring.2.2.1]

/-- A fill whose batch does not fit in the ring refuses the run. -/
theorem fill_full {c : Channel} {l : Line} {k : Nat} (hc : c.core)
    (hr : transportRead c.line c.pending = .next (l, nextSamples c.line k)) (hk : Config.rxCapacity < c.ring.len + k) :
    fill c = .refused .ringFull := by
  rw [fill, hr, andThen_next, ringPushAll_full hc.ring (by rwa [nextSamples_length])]
  rfl

/-- Settles O58: the batch of a transport with no answer queued, and that of its answer. -/
theorem fullRingRefusesRun : Obligations.FullRingRefusesRun := by
  intro s hc
  refine ⟨fun hr hk => ?_, fun n rest hr hk => ?_⟩
  · rw [exec, execFill, fill_full hc.core (transportRead_nil hr _) hk]
    rfl
  · rw [exec, execFill, fill_full hc.core (transportRead_got hr _) hk]
    rfl

/-! ### drain (R44) -/

/-- Settles O55: the flush, then the purge. -/
theorem drainEmptiesChannel : Obligations.DrainEmptiesChannel := by
  intro s hr
  obtain ⟨hc, -, hl, hroom⟩ := hr
  obtain ⟨c, h⟩ := drainChannel_completes hc.core hl hroom
  have hexec : exec .drain s = .next ((s.setChan c).setRet .done) := by
    rw [exec, execDrain, h]
    rfl
  obtain ⟨c1, hf, rfl, hwf, ho⟩ := drainChannel_next hc.core h
  exact ⟨_, hexec, rfl, rfl, rfl, rfl, rfl, rfl, hf.drive, (emptied_stream _).trans hf.drive, congrArg List.length hf.drive,
    hwf, ho⟩

/-! ### The outside fails (R45, R131) -/

/-- A short first write ends a flush, with the bytes it took in the drive stream. -/
theorem flush_of_short {c : Channel} {n : Nat} {ws : List WriteReply} (hp : c.pending < Config.fifoChunk)
    (hw : c.line.writes = .took n :: ws) (hn : n < min (Config.fifoChunk - c.pending) c.tx.len) :
    flush c = .fault (.channel .shortWrite
      { c.line with drive := c.line.drive ++ (staged c.tx).take n, writes := ws }) := by
  have hroom : fillUntil hasRoom c.line.reads.length c = .next c := fillUntil_done (decide_eq_true hp)
  rw [flush_first_write (by omega) hroom rfl, transportWrite_short hw (by rw [List.length_take, staged_length]; omega),
    andThen_fault, List.take_take, Nat.min_eq_left (Nat.le_of_lt hn)]

/-- A failed first write ends a flush. -/
theorem flush_of_failed {c : Channel} {ws : List WriteReply} (hp : c.pending < Config.fifoChunk) (ht : 0 < c.tx.len)
    (hw : c.line.writes = .failed :: ws) : ∃ l, flush c = .fault (.channel .transport l) := by
  have hroom : fillUntil hasRoom c.line.reads.length c = .next c := fillUntil_done (decide_eq_true hp)
  rw [flush_first_write ht hroom rfl, transportWrite, hw]
  exact ⟨_, rfl⟩

/-- Settles O57, by the transport call that fails. -/
theorem transportErrorsAreFatal : Obligations.TransportErrorsAreFatal := by
  intro s _
  refine ⟨fun n rest hp hw hn => ?_, fun rest hp ht hw => ?_, fun rest hr => ?_, fun rest ht hm => ?_,
    fun p rest ht hpins => ?_⟩
  · rw [exec, execFlush, flushAndClear, flush_of_short hp hw hn]
    rfl
  · obtain ⟨l, h⟩ := flush_of_failed hp ht hw
    exact ⟨l, by rw [exec, execFlush, flushAndClear, h]; rfl⟩
  · rw [exec, execFill, fill, transportRead, hr]
    rfl
  · rw [exec, execDrain, drainChannel_of_modeFailed ht (.inl hm)]
    rfl
  · have hread : readPins (clearTx s.chan).line = .fault (.channel .transport { s.chan.line with pins := rest }) := by
      show readPins s.chan.line = _
      rw [readPins, hpins]
    rw [exec, execGetPin, flushAndClear_of_empty ht, andThen_next, hread]
    rfl

end Sys2Proof.Machine
end
section
/-! Receives: what `recv` hands back and what it leaves (R43, R47, R58), where it is stuck (R42, R138), and the two properties of
DOC0 on sends and receives (X1, X2). -/

namespace Sys2Proof.Machine

/-! ### recv (R43) -/

/-- A receive of no more than the queue holds completes, with the first copies of the next logical bytes of the queue. -/
theorem exec_recv {s : State} {n : Nat} (hm : 1 ≤ s.baudMultiplier) (hr : s.chan.ready 0)
    (hk : s.baudMultiplier * n ≤ s.chan.queue.length) :
    ∃ c, exec (.recv n) s = .next ((s.setChan c).setRet (.bytes (firstCopies s.baudMultiplier s.chan.queue n))) ∧
      Received s.chan c (s.baudMultiplier * n) := by
  obtain ⟨hw, ho, hl, hroom⟩ := hr
  obtain ⟨q, h⟩ := recvBytes_completes hm hw ho hl hroom hk
  obtain ⟨hrec, hv⟩ := recvBytes_received hm hw ho h
  refine ⟨q.1, ?_, hrec⟩
  rw [exec, execRecv, h, andThen_next, hv]
  rfl

theorem Received.drive {c c' : Channel} {n : Nat} (h : Received c c' n) : c'.line.drive = c.stream := by
  rw [← h.stream]
  exact stream_of_empty (by rw [h.tx])

/-- Settles O53: the queue holds what is owed and not to be dropped, so that the receive completes. -/
theorem recvReturnsNextSamples : Obligations.RecvReturnsNextSamples := by
  intro s n hm hr hk
  obtain ⟨hw, ho, -, -⟩ := id hr
  have hlen := queue_length hw.debts
  obtain ⟨c, h, hrec⟩ := exec_recv (n := n) hm hr (by omega)
  refine ⟨c, h, hrec.enough, hrec.queue, hrec.drive, hrec.stream, hrec.owed hw, hrec.debts, by rw [hrec.tx], hrec.wf,
    hrec.passed.order ho, hrec.passed.movedTo, fun holdest => ?_⟩
  rw [Channel.queue, asked_oldest hw.debts holdest, Channel.samplesFrom]

/-- Settles O54: the receive of more than is owed, and that from a transport that never delivers again. -/
theorem recvBeyondOwedIsStuck : Obligations.RecvBeyondOwedIsStuck := by
  refine ⟨fun s n hm hr hk => ?_, fun s n rest hm hc hw hr hk => ?_⟩
  · obtain ⟨hc, ho, hl, hroom⟩ := hr
    have hlen := queue_length hc.debts
    rw [exec, execRecv, recvBytes_stuck hm hc ho hl hroom (by omega)]
    rfl
  · rw [exec, execRecv, recvBytes_starved hm ⟨rest, hr⟩ hc hw (by unfold Channel.inHand; omega)]
    rfl

/-! ### What was sent is received (X1) -/

/-- The first copy of the `k`-th logical byte stands at offset `m * k`. -/
theorem repeated_getElem? {m : Nat} (hm : 1 ≤ m) (bs : List Byte) (k : Nat) : (repeated m bs)[m * k]? = bs[k]? := by
  induction bs generalizing k with
  | nil => rfl
  | cons b bs ih =>
    show (List.replicate m b ++ repeated m bs)[m * k]? = _
    cases k with
    | zero => rw [Nat.mul_zero, List.getElem?_append_left (by rwa [List.length_replicate]), List.getElem?_replicate_of_lt hm]; rfl
    | succ k =>
      rw [List.getElem?_append_right (by rw [List.length_replicate, Nat.mul_succ]; omega), List.length_replicate,
        Nat.mul_succ, Nat.add_sub_cancel, ih, List.getElem?_cons_succ]

theorem Sent.stream_getElem? {disc : Bool} {c c' : Channel} {m : Nat} {bs : List Byte} (h : Sent disc c c' (repeated m bs))
    (hm : 1 ≤ m) (k : Nat) : c'.stream[c.stream.length + m * k]? = bs[k]? := by
  rw [h.stream, List.getElem?_append_right (Nat.le_add_right _ _), Nat.add_sub_cancel_left, repeated_getElem? hm]

/-- The first copies of the samples of logical bytes. -/
theorem firstCopies_samplesFrom {m : Nat} (hm : 1 ≤ m) (c : Channel) (k n : Nat) :
    firstCopies m (c.samplesFrom k (m * n)) n = (List.range n).map fun i => c.sample (k + m * i) :=
  List.map_congr_left fun _ hi => samplesFrom_getD c (Nat.mul_lt_mul_of_pos_left (List.mem_range.mp hi) hm)

section SentThenDiscarded

variable {a b c : Channel} {m : Nat} {bs ns : List Byte} (h1 : Sent false a b (repeated m bs)) (h2 : Sent true b c ns)

include h1 h2

/-- The queue after bytes sent without discard and then with: the samples of the former, where it was empty before. -/
theorem queue_of_sent_discarded (ha : a.wf) (hq : a.queue = []) :
    c.queue = c.samplesFrom a.stream.length (m * bs.length) := by
  rw [h2.queue_discard h1.wf, h1.queue ha, hq, List.nil_append, repeated_length]
  exact (samplesFrom_stable h2.passed.samples (h2.stream ▸ List.prefix_append _ _)
    (by rw [h1.stream, List.length_append, repeated_length])).symm

/-- Where every sample is the byte driven, the samples of the first copies are the bytes sent. -/
theorem samples_eq_of_echo (hm : 1 ≤ m) (hecho : ∀ k, k < c.stream.length → c.sample k = c.stream.getD k 0) :
    ((List.range bs.length).map fun k => c.sample (a.stream.length + m * k)) = bs := by
  refine List.ext_getElem (by simp) fun k _ hk => ?_
  have hb : b.stream[a.stream.length + m * k]? = some bs[k] := by
    rw [h1.stream_getElem? hm, List.getElem?_eq_getElem hk]
  have hc : c.stream[a.stream.length + m * k]? = some bs[k] := by
    rw [h2.stream, List.getElem?_append_left (List.getElem?_eq_some_iff.mp hb).1, hb]
  rw [List.getElem_map, List.getElem_range, hecho _ (List.getElem?_eq_some_iff.mp hc).1, List.getD_eq_getElem?_getD, hc]
  rfl

end SentThenDiscarded

/-- Settles O59: the queue is the samples of the bytes sent without discard, and the receive hands back the first copies. -/
theorem echoReturnsBytesSent : Obligations.EchoReturnsBytesSent := by
  intro s bytes noise hm hr howed haside
  rw [Nat.mul_add] at hr
  have hw := hr.1
  obtain ⟨c1, h1, hs1, hr1⟩ := exec_send false hr
  obtain ⟨c2, h2, hs2, hr2⟩ := exec_send (s := (s.setChan c1).setRet .done) (n := 0) true hr1
  have hq : c2.queue = c2.samplesFrom s.chan.stream.length (s.baudMultiplier * bytes.length) :=
    queue_of_sent_discarded hs1 hs2 hw (queue_empty hw.debts howed haside)
  have hlen : s.baudMultiplier * bytes.length ≤ c2.queue.length := by rw [hq, samplesFrom_length]
  obtain ⟨c3, h3, -⟩ := exec_recv (s := (((s.setChan c1).setRet .done).setChan c2).setRet .done) hm hr2 hlen
  have hret : firstCopies s.baudMultiplier c2.queue bytes.length =
      (List.range bytes.length).map fun k => c2.sample (s.chan.stream.length + s.baudMultiplier * k) := by
    rw [hq, firstCopies_samplesFrom hm]
  exact ⟨_, _, _, h1, h2, h3, fun k _ => hs1.stream_getElem? hm k, congrArg Ret.bytes hret,
    fun hecho => congrArg Ret.bytes (hret.trans (samples_eq_of_echo hs1 hs2 hm hecho))⟩

/-! ### A receive of nothing (X2) -/

theorem exec_recv_zero {s : State} (hm : 1 ≤ s.baudMultiplier) (hr : s.chan.ready 0) :
    ∃ c, exec (.recv 0) s = .next ((s.setChan c).setRet (.bytes [])) ∧ Received s.chan c 0 :=
  exec_recv (n := 0) hm hr (Nat.zero_le _)

/-- Where the newest byte sent was sent with discard, a receive takes all that was sent. -/
theorem Received.owed_eq_zero {c c' : Channel} {n : Nat} (h : Received c c' n) (hc : c.wf)
    (he : c.stream.length - 1 ∈ c.echoes) : c'.owed = 0 := by
  have hspan := echoes_in_span hc.debts.2.2.1 (fun e he => (hc.debts.2.2.2 e he).1) he
  have hreached := h.reached
  have howed := h.wf.core.owed_eq
  rw [h.stream] at howed
  omega

/-- The newest byte sent with discard is the last of the stream. -/
theorem Sent.last_mem_echoes {c c' : Channel} {bs : List Byte} (h : Sent true c c' bs) (hb : 0 < bs.length) :
    c'.stream.length - 1 ∈ c'.echoes := by
  have he : c'.echoes = (List.range' c.stream.length bs.length).reverse ++ c.echoes := congrArg (fun p => p.2.1) h.debts
  rw [he, h.stream, List.length_append]
  refine List.mem_append_left _ (List.mem_reverse.mpr (List.mem_range'_1.mpr ?_))
  omega

/-- Settles O60: the newest byte sent is an echo, so that the receive takes all that was sent. -/
theorem recvZeroConsumesEchoes : Obligations.RecvZeroConsumesEchoes := by
  refine ⟨fun s bytes hb hm hr => ?_, fun s hm hr => ?_⟩
  · have hw := hr.1
    obtain ⟨c1, h1, hs, hr1⟩ := exec_send (n := 0) true hr
    obtain ⟨c2, h2, hrec⟩ := exec_recv_zero (s := (s.setChan c1).setRet .done) hm hr1
    have hpos : 0 < (repeated s.baudMultiplier bytes).length := by
      rw [repeated_length]
      exact Nat.mul_pos hm (List.length_pos_iff.mpr hb)
    have howed := hrec.owed_eq_zero hs.wf (hs.last_mem_echoes hpos)
    obtain ⟨⟨hring, hpend⟩, htx⟩ : (c2.ring.len = 0 ∧ c2.pending = 0) ∧ c2.tx.len = 0 := by
      unfold Channel.owed at howed
      omega
    exact ⟨_, _, h1, h2, hrec.discard, hring, hpend, htx, hrec.queue.trans (hs.queue_discard hw), rfl⟩
  · obtain ⟨c, h, hrec⟩ := exec_recv_zero hm hr
    exact ⟨_, h, hrec.discard, hrec.queue, rfl⟩

end Sys2Proof.Machine
end
section
/-! Extraction past the end of the received bytes (R54, R85 a). -/

namespace Sys2Proof.Machine

theorem extractInBounds_eq_false {len w : Nat} (h : len ≤ 16 * w + 16) : extractInBounds len w = false :=
  decide_eq_false (Nat.not_lt.mpr h)

/-- Settles O30: one word out of bounds, alone or in a list, is refused. -/
theorem extractPastEndRefused : Obligations.ExtractPastEndRefused := by
  intro s rx
  refine ⟨fun w h => ?_, fun ws ⟨w, hw, h⟩ => ?_⟩
  · rw [exec, execExtractData, extractInBounds_eq_false h]
    rfl
  · have hall : ws.all (extractInBounds rx.length) = false :=
      List.all_eq_false.mpr ⟨w, hw, by rw [extractInBounds_eq_false h]; decide⟩
    rw [exec, execFragExtract, hall]
    rfl

end Sys2Proof.Machine
end
section
/-! Packets: the decoder on the encoder's bytes (R67, R84), on the selectors no operation has (R85 d), and on packets written
out by hand. -/

namespace Sys2Proof

/-- The decoder finds the selector in the first byte of an operation's packet. -/
theorem decode_encode_append (i : Instr) (rest : List Byte) :
    decode (encode i ++ rest) = decodeOperands (selector i) (encodeOperands i ++ rest) := by
  rw [encode, List.cons_append, decode, selector_byte]

theorem fragmentCount_byte {k : Nat} (h : fragmentCountOk k = true) : (BitVec.ofNat 8 (k - 1)).toNat + 1 = k := by
  have hk : 1 ≤ k ∧ k ≤ 8 := of_decide_eq_true h
  rw [BitVec.toNat_ofNat]
  omega

theorem extractInBounds_length {len w : Nat} (h : extractInBounds len w = true) :
    len - minExtractLength + minExtractLength = len := by
  have hlen : 16 * w + 16 < len := of_decide_eq_true h
  show len - 17 + 17 = len
  omega

/-- The operands of every well-formed operation are read back in their order, whatever follows them. -/
theorem decodeOperands_encodeOperands {i : Instr} (hi : i.wellFormed = true) (rest : List Byte) :
    decodeOperands (selector i) (encodeOperands i ++ rest) = .ok (i, rest) := by
  cases i with
  | closeStretch | closeIdle | tpiRx | flush | fill | drain => rfl
  | setData | tpiFrame | tpiTx | cmd => rfl
  | cell => simp [selector, encodeOperands, decodeOperands, getBool_putBool]
  | tpiDecode => simp [selector, encodeOperands, decodeOperands, getWord16_putWord16]
  | recv | usleep => simp [selector, encodeOperands, decodeOperands, getNat_putNat]
  | getBits | getPin => simp [selector, encodeOperands, decodeOperands, getPinOperand_putPin]
  | setBits | setPin => simp [selector, encodeOperands, decodeOperands, getPinOperand_putPin, getNat_putNat]
  | send => simp [selector, encodeOperands, decodeOperands, getList_putBytes, getBool_putBool]
  | cmdTpi => simp [selector, encodeOperands, decodeOperands, getList_putBytes, getNat_putNat]
  | fragExtract => simp [selector, encodeOperands, decodeOperands, getList_putBytes, getList_put getNat_putNat]
  | extractData rx w =>
    have hlen := extractInBounds_length hi
    simp [selector, encodeOperands, decodeOperands, getNat_putNat, hlen, getMany_bytes]
  | fragEncode cmds last =>
    have hcount := fragmentCount_byte hi
    have hok : fragmentCountOk cmds.length = true := hi
    simp [-BitVec.toNat_ofNat, selector, encodeOperands, decodeOperands, hcount, hok, getMany_flatMap getCmd_putCmd,
      getBool_putBool]

/-- Settles O1: the selector, then the operands. -/
theorem decodeInvertsEncode : Obligations.DecodeInvertsEncode := by
  intro i rest hi
  rw [decode_encode_append, decodeOperands_encodeOperands hi]

/-- No operation has a selector above `0x16`. -/
theorem decodeOperands_unassigned {op : Nat} (h : 0x17 ≤ op) (bs : List Byte) :
    decodeOperands op bs = .error (.selector op) := by
  obtain ⟨k, rfl⟩ := Nat.exists_eq_add_of_le' h
  rfl

end Sys2Proof

namespace Sys2Proof.Machine

theorem fetchOp_of_decode_error {s : State} {packet : List Byte} {e : DecodeError} (ho : s.session = .opened)
    (hd : decode packet = .error e) : fetchOp packet s = .refused (.packet e) := by
  rw [fetchOp, if_neg (not_not_intro ho), hd]

/-- Settles O2: the decoder's refusal, with which the fetch refuses the call. -/
theorem unassignedSelectorsRefused : Obligations.UnassignedSelectorsRefused := by
  intro b bs hb
  have hdecode : decode (b :: bs) = .error (.selector (b.toNat % 32)) := decodeOperands_unassigned hb bs
  refine ⟨hdecode, fun s rest hopen hcalls => ?_⟩
  rw [step_of_calls_op hcalls, fetchOp_of_decode_error hopen hdecode, andThen_refused]

/-- Settles O3: each packet is the encoder's own. -/
theorem writtenPacketsDecode : Obligations.WrittenPacketsDecode :=
  ⟨decodeInvertsEncode (.cmd ⟨0xAC, 0x53, 0x00, 0x00⟩) [] rfl, decodeInvertsEncode (.setPin .sck 0) [] rfl,
    decodeInvertsEncode (.tpiDecode 0xFC03) [] rfl, decodeInvertsEncode (.cmdTpi [0x8F] 1) [] rfl,
    decodeInvertsEncode (.recv 129) [] rfl⟩

end Sys2Proof.Machine
end
section
/-! The drive bytes of ISP at their offsets (R69 to R73) and the SCK edges they make (R111). -/

namespace Sys2Proof.Machine

/-! ### Blocks of one length -/

/-- Of blocks of `n` elements one after the other, element `j` of block `i` is at place `n * i + j`. -/
theorem getElem?_flatMap_blocks {α β : Type} {f : α → List β} {n : Nat} (hf : ∀ a, (f a).length = n) {l : List α}
    {i j : Nat} (hi : i < l.length) (hj : j < n) : (l.flatMap f)[n * i + j]? = (f l[i])[j]? := by
  induction l generalizing i with
  | nil => cases hi
  | cons a l ih =>
    rw [List.flatMap_cons]
    cases i with
    | zero => rw [Nat.mul_zero, Nat.zero_add, List.getElem?_append_left (by rwa [hf])]; rfl
    | succ i =>
      have hplace : n * (i + 1) + j = (f a).length + (n * i + j) := by rw [hf, Nat.mul_succ]; omega
      rw [hplace, List.getElem?_append_right (Nat.le_add_right _ _), Nat.add_sub_cancel_left,
        ih (Nat.lt_of_succ_lt_succ hi), List.getElem_cons_succ]

theorem bitsMsb_getElem? (b : Byte) {j : Nat} (hj : j < 8) : (bitsMsb b)[j]? = some (b.getLsbD (7 - j)) := by
  rw [bitsMsb, List.getElem?_map, List.getElem?_range hj]
  rfl

/-- Byte `i` of command `q` is byte `4q + i` of the commands (R73). -/
theorem flatMap_cmdBytes_getD {cmds : List Cmd} {q i : Nat} (hq : q < cmds.length) (hi : i < 4) :
    (cmds.flatMap cmdBytes).getD (4 * q + i) 0 = (cmdBytes cmds[q]).getD i 0 := by
  rw [List.getD_eq_getElem?_getD, getElem?_flatMap_blocks (f := cmdBytes) (fun _ => rfl) hq hi, ← List.getD_eq_getElem?_getD]

/-! ### The drive bytes of ISP bytes -/

section

variable {pm : PinMap}

/-- The drive bytes of ISP bytes, most significant bit first (R70). -/
def dataBytes (pm : PinMap) (o : Byte) (bs : List Byte) : List Byte := cellsBytes pm o (bs.flatMap bitsMsb)

theorem dataBytes_length (o : Byte) (bs : List Byte) : (dataBytes pm o bs).length = 16 * bs.length := by
  rw [dataBytes, cellsBytes_length, flatMap_bitsMsb_length]
  omega

/-- The drive bytes of bit `7 - j` of byte `i` are at `16i + 2j` and the place behind (R70, R71). -/
theorem dataBytes_getElem? (o : Byte) {bs : List Byte} {i j : Nat} (hi : i < bs.length) (hj : j < 8) :
    (dataBytes pm o bs)[16 * i + 2 * j]? = some (base pm o ((bs.getD i 0).getLsbD (7 - j)) false) ∧
    (dataBytes pm o bs)[16 * i + 2 * j + 1]? = some (base pm o ((bs.getD i 0).getLsbD (7 - j)) true) := by
  have hbit : (bs.flatMap bitsMsb)[8 * i + j]? = some ((bs.getD i 0).getLsbD (7 - j)) := by
    rw [getElem?_flatMap_blocks (f := bitsMsb) (fun _ => rfl) hi hj, bitsMsb_getElem? _ hj, List.getD_eq_getElem _ _ hi]
  obtain ⟨hlt, hbit⟩ := List.getElem?_eq_some_iff.mp hbit
  have hplace : 16 * i + 2 * j = 2 * (8 * i + j) := by omega
  rw [hplace, ← hbit]
  exact cellsBytes_getElem? o _ _ hlt

/-- A closing byte stands behind the bytes of the data. -/
theorem getElem?_dataBytes_append_closing (o b : Byte) (bs : List Byte) :
    (dataBytes pm o bs ++ [b])[16 * bs.length]? = some b := by
  rw [List.getElem?_append_right (dataBytes_length o bs).le, dataBytes_length, Nat.sub_self]
  rfl

/-- The closing byte leaves the bytes of the data where they are. -/
theorem dataBytes_append_getElem? (o : Byte) {bs : List Byte} (tail : List Byte) {i j : Nat} (hi : i < bs.length)
    (hj : j < 8) :
    (dataBytes pm o bs ++ tail)[16 * i + 2 * j]? = some (base pm o ((bs.getD i 0).getLsbD (7 - j)) false) ∧
    (dataBytes pm o bs ++ tail)[16 * i + 2 * j + 1]? = some (base pm o ((bs.getD i 0).getLsbD (7 - j)) true) := by
  have hlen := dataBytes_length (pm := pm) o bs
  rw [List.getElem?_append_left (by omega), List.getElem?_append_left (by omega)]
  exact dataBytes_getElem? o hi hj

theorem cmdStream_eq_dataBytes (o : Byte) (c : Cmd) :
    cmdStream pm o c = dataBytes pm o (cmdBytes c) ++ [base pm o (c.c3.getLsbD 0) false] := rfl

theorem fragStream_eq_dataBytes (o : Byte) (cmds : List Cmd) (last : Bool) :
    fragStream pm o cmds last = dataBytes pm o (cmds.flatMap cmdBytes) ++ [base pm o (lastBit cmds) (!last)] := rfl

theorem lastBit_append_singleton (cmds : List Cmd) (c : Cmd) : lastBit (cmds ++ [c]) = c.c3.getLsbD 0 := by
  simp [lastBit]

/-- The last two bytes of a fragment: the last bit with SCK high, then the closing byte (R72). -/
theorem fragDrive_closing (h : Legal pm) (cmds : List Cmd) (c : Cmd) (o : Byte) (last : Bool) :
    (fragDrive pm (cmds ++ [c]) last o).buf[64 * (cmds.length + 1) - 1]? = some (base pm o (c.c3.getLsbD 0) true) ∧
    (fragDrive pm (cmds ++ [c]) last o).buf[64 * (cmds.length + 1)]? = some (base pm o (c.c3.getLsbD 0) (!last)) := by
  have hlen : (cmds ++ [c]).length = cmds.length + 1 := List.length_append
  have hbytes := flatMap_cmdBytes_length (cmds ++ [c])
  have hword : ((cmds ++ [c]).flatMap cmdBytes).getD (4 * cmds.length + 3) 0 = c.c3 := by
    rw [flatMap_cmdBytes_getD (by omega) (by decide), List.getElem_concat_length rfl]
    rfl
  rw [fragDrive_eq h _ (by simp), fragStream_eq_dataBytes, lastBit_append_singleton]
  constructor
  · have hlast := (dataBytes_append_getElem? (pm := pm) o [base pm o (c.c3.getLsbD 0) (!last)]
      (bs := (cmds ++ [c]).flatMap cmdBytes) (i := 4 * cmds.length + 3) (j := 7) (by omega) (by decide)).2
    rw [hword] at hlast
    rw [← hlast]
    congr 1
    omega
  · rw [← getElem?_dataBytes_append_closing o (base pm o (c.c3.getLsbD 0) (!last)) ((cmds ++ [c]).flatMap cmdBytes)]
    congr 1
    omega

/-! ### SCK edges (R111) -/

/-- SCK does not rise from a byte that has it high. -/
theorem sckRises_of_high (h : Legal pm) (o b : Byte) (x : Bool) : sckRises pm (base pm o x true) b = false := by
  rw [sckRises, getBits_base_sck h]
  rfl

/-- SCK does not rise to a byte that has it low. -/
theorem sckRises_to_low (h : Legal pm) (a o : Byte) (x : Bool) : sckRises pm a (base pm o x false) = false := by
  rw [sckRises, getBits_base_sck h, Bool.and_false]

/-- Inside a cell SCK rises. -/
theorem sckRises_in_cell (h : Legal pm) (o : Byte) (x : Bool) : sckRises pm (base pm o x false) (base pm o x true) = true := by
  rw [sckRises, getBits_base_sck h, getBits_base_sck h]
  rfl

/-- Cells make one rising edge each, whatever byte was on the lines before. -/
theorem risingEdges_cellsBytes (h : Legal pm) (p o : Byte) (xs : List Bool) :
    risingEdges pm p (cellsBytes pm o xs) = xs.length := by
  induction xs generalizing p with
  | nil => rfl
  | cons x xs ih =>
    show (if sckRises pm p (base pm o x false) then 1 else 0) +
      ((if sckRises pm (base pm o x false) (base pm o x true) then 1 else 0) +
        risingEdges pm (base pm o x true) (cellsBytes pm o xs)) = _
    rw [sckRises_to_low h, sckRises_in_cell h, ih, List.length_cons]
    simp [Nat.add_comm]

end

/-! ### The operations that build a drive buffer -/

theorem exec_cell (s : State) (x : Bool) :
    exec (.cell x) s = .next ((s.setOut (base s.pinMap s.out x true)).setRet (.drive (cellBytes s.pinMap s.out x))) := by
  rw [exec, execCell, emitCell_eq]
  rfl

theorem exec_setData {s : State} (h : Legal s.pinMap) (b : Byte) :
    exec (.setData b) s =
      .next ((s.setOut (base s.pinMap s.out (b.getLsbD 0) true)).setRet (.drive (dataBytes s.pinMap s.out [b]))) := by
  rw [exec, execSetData, emitData_start h]
  rfl

/-- Settles O26: the two bytes of the cell, and its one rising edge. -/
theorem cellEmitsTwoSlots : Obligations.CellEmitsTwoSlots := by
  intro s x hpm
  have h := legal_of hpm
  refine ⟨_, _, exec_cell s x, rfl, rfl, getBits_base_sdo h _ _ _, getBits_base_sdo h _ _ _, getBits_base_sck h _ _ _,
    getBits_base_sck h _ _ _, base_outside _ _ _, base_outside _ _ _, ?_, risingEdges_cellsBytes h _ _ [x]⟩
  have hsck : s.pinMap.sck.mask &&& ~~~s.pinMap.sck.mask = 0 := BitVec.and_not_self _
  rw [base, base, setBits_outside hsck, setBits_outside hsck]

/-- Settles O27: the bytes of one data byte at their offsets, and its eight rising edges. -/
theorem setDataEmitsMsbFirst : Obligations.SetDataEmitsMsbFirst := by
  intro s b hpm
  have h := legal_of hpm
  refine ⟨_, exec_setData h b, dataBytes_length _ [b], fun j hj => ?_, risingEdges_cellsBytes h _ _ _⟩
  have hj := dataBytes_getElem? (pm := s.pinMap) s.out (bs := [b]) (i := 0) Nat.zero_lt_one hj
  rwa [Nat.mul_zero, Nat.zero_add] at hj

/-- Settles O32: the bytes of the four data bytes, then the closing byte. -/
theorem ispCommandLayout : Obligations.IspCommandLayout := by
  intro pm c o hpm
  rw [cmdDrive_eq (legal_of hpm)]
  exact ⟨cmdStream_length o c, fun i j hi hj => dataBytes_append_getElem? o _ (bs := cmdBytes c) hi hj,
    getElem?_dataBytes_append_closing o _ (cmdBytes c), rfl⟩

/-- Settles O34: byte `i` of command `q` is word `4q + i` of the data. -/
theorem fragmentLayout : Obligations.FragmentLayout := by
  intro pm cmds last o hpm hne
  refine ⟨fragDrive_length pm cmds last o, fun q i j hq hi hj => ?_, fun c => rfl⟩
  have hlen := flatMap_cmdBytes_length cmds
  have hword := dataBytes_append_getElem? (pm := pm) o [base pm o (lastBit cmds) (!last)]
    (bs := cmds.flatMap cmdBytes) (i := 4 * q + i) (by omega) hj
  have hplace : 64 * q + 16 * i + 2 * j = 16 * (4 * q + i) + 2 * j := by omega
  rw [fragDrive_eq (legal_of hpm) cmds hne, fragStream_eq_dataBytes, hplace, ← flatMap_cmdBytes_getD hq hi]
  exact hword

/-- Settles O35: the last two bytes under either closing. -/
theorem fragmentClosingByte : Obligations.FragmentClosingByte := by
  intro pm cmds c o hpm
  have h := legal_of hpm
  obtain ⟨hstretch, hcopy⟩ := fragDrive_closing h cmds c o false
  obtain ⟨hidle, hlow⟩ := fragDrive_closing h cmds c o true
  exact ⟨hstretch, hcopy, hidle, hlow, sckRises_of_high h _ _ _, sckRises_of_high h _ _ _⟩

/-! ### Extraction, and fragments that are refused -/

theorem extractInBounds_eq_true {len w : Nat} (h : 16 * w + 16 < len) : extractInBounds len w = true :=
  decide_eq_true h

theorem exec_extractData {s : State} {rx : List Byte} {w : Nat} (h : 16 * w + 16 < rx.length) :
    exec (.extractData rx w) s = .next (s.setRet (.byte (ispWord s.pinMap rx w))) := by
  rw [exec, execExtractData, extractInBounds_eq_true h]
  rfl

/-- Settles O29: the extracted byte, bit by bit. -/
theorem extractReadsSdiSamples : Obligations.ExtractReadsSdiSamples := by
  intro s rx w h
  exact ⟨_, exec_extractData h, ispWord_getLsbD s.pinMap rx w⟩

theorem fragmentCountOk_eq_false {k : Nat} (h : k = 0 ∨ 8 < k) : fragmentCountOk k = false := by
  refine decide_eq_false ?_
  show ¬ (1 ≤ k ∧ k ≤ 8)
  omega

/-- Settles O37: the count is looked at before anything is sent. -/
theorem fragmentCountRefused : Obligations.FragmentCountRefused := by
  intro s cmds last h
  rw [exec, execFragEncode, fragmentCountOk_eq_false h]
  rfl

end Sys2Proof.Machine
end
section
/-! Exchanges: `cmd` and its expansion (R88, R107), and the frames of TPI on the line (R76, R77, R116, R117). -/

namespace Sys2Proof.Machine

/-! ### cmd and its expansion (R88) -/

section Expansion

variable {pm : PinMap}

theorem dataBytes_append (o : Byte) (bs cs : List Byte) :
    dataBytes pm o (bs ++ cs) = dataBytes pm o bs ++ dataBytes pm o cs := by
  rw [dataBytes, cellsBytes, List.flatMap_append, List.flatMap_append]
  rfl

theorem dataBytes_base (h : Legal pm) (o : Byte) (x c : Bool) (bs : List Byte) :
    dataBytes pm (base pm o x c) bs = dataBytes pm o bs :=
  cellsBytes_base h o x c _

/-- The drive bytes of `cmd` are those of its four data bytes, then the closing byte. -/
theorem cmdDrive_buf_eq (h : Legal pm) (c : Cmd) (o : Byte) :
    (cmdDrive pm c o).buf = dataBytes pm o [c.c0] ++ dataBytes pm o [c.c1] ++ dataBytes pm o [c.c2] ++
      dataBytes pm o [c.c3] ++ [base pm o (c.c3.getLsbD 0) false] := by
  rw [cmdDrive_eq h, cmdStream_eq_dataBytes]
  simp only [← dataBytes_append]
  rfl

/-- What a `set_data` that hands back `bs` has done. -/
theorem setData_next {s t : State} {b : Byte} {bs : List Byte} (ht : exec (.setData b) s = .next t)
    (hr : t.ret = .drive bs) (h : Legal s.pinMap) :
    t = (s.setOut (base s.pinMap s.out (b.getLsbD 0) true)).setRet (.drive bs) ∧ bs = dataBytes s.pinMap s.out [b] := by
  rw [exec_setData h] at ht
  cases ht
  cases hr
  exact ⟨rfl, rfl⟩

/-- What a `close_idle` that hands back `bs` has done. -/
theorem closeIdle_next {s t : State} {bs : List Byte} (ht : exec .closeIdle s = .next t) (hr : t.ret = .drive bs) :
    t = (s.setOut (setBits s.out s.pinMap.sck false)).setRet (.drive bs) ∧ bs = [setBits s.out s.pinMap.sck false] := by
  cases ht
  cases hr
  exact ⟨rfl, rfl⟩

/-- Four `set_data` and a `close_idle` emit the drive bytes of `cmd` and leave `out` where it does. -/
theorem expansion_drive {s s0 s1 s2 s3 s4 : State} {c : Cmd} {b0 b1 b2 b3 b4 : List Byte} (h : Legal s.pinMap)
    (h0 : exec (.setData c.c0) s = .next s0) (r0 : s0.ret = .drive b0)
    (h1 : exec (.setData c.c1) s0 = .next s1) (r1 : s1.ret = .drive b1)
    (h2 : exec (.setData c.c2) s1 = .next s2) (r2 : s2.ret = .drive b2)
    (h3 : exec (.setData c.c3) s2 = .next s3) (r3 : s3.ret = .drive b3)
    (h4 : exec .closeIdle s3 = .next s4) (r4 : s4.ret = .drive b4) :
    s4 = (s.setOut (cmdDrive s.pinMap c s.out).out).setRet (.drive b4) ∧
      b0 ++ b1 ++ b2 ++ b3 ++ b4 = (cmdDrive s.pinMap c s.out).buf := by
  obtain ⟨rfl, rfl⟩ := setData_next h0 r0 h
  obtain ⟨rfl, rfl⟩ := setData_next h1 r1 h
  obtain ⟨rfl, rfl⟩ := setData_next h2 r2 h
  obtain ⟨rfl, rfl⟩ := setData_next h3 r3 h
  obtain ⟨rfl, rfl⟩ := closeIdle_next h4 r4
  simp only [setRet_out, setOut_out, setRet_pinMap, setOut_pinMap, base_base h, dataBytes_base h, base_same]
  exact ⟨by rw [cmdDrive_eq h]; rfl, (cmdDrive_buf_eq h c s.out).symm⟩

/-- A `send` without discard of a drive buffer and a `recv` of as many bytes are an exchange. -/
theorem exchange_of_send_recv {s t u : State} {d : Drive} {r : Ret} {rx : List Byte}
    (hsend : exec (.send d.buf false) ((s.setOut d.out).setRet r) = .next t)
    (hrecv : exec (.recv d.buf.length) t = .next u) (hrx : u.ret = .bytes rx) :
    ∃ v, exchange d s = .next (v, rx) ∧ u = v.setRet (.bytes rx) := by
  obtain ⟨c, h1, ht⟩ := andThen_eq_next hsend
  cases ht
  obtain ⟨p, h2, hu⟩ := andThen_eq_next hrecv
  cases hu
  cases hrx
  have hs : sendDrive d false s = .next ((s.setOut d.out).setChan c) := by
    rw [sendDrive]
    exact congrArg (andThen · _) h1
  refine ⟨((s.setOut d.out).setChan c).setChan p.1, ?_, rfl⟩
  rw [exchange, hs, andThen_next]
  exact congrArg (andThen · _) h2

/-- An exchange receives as many bytes as it sends. -/
theorem exchange_length {d : Drive} {s : State} {p : State × List Byte} (hm : 1 ≤ s.baudMultiplier) (hc : s.chan.wf)
    (ho : s.chan.inOrder) (h : exchange d s = .next p) : p.2.length = d.buf.length := by
  obtain ⟨c, -, -, hv⟩ := exchange_next hm hc ho h
  rw [hv, firstCopies, List.length_map, List.length_range]

end Expansion

/-- Settles O39: the expansion's send and receive are the exchange of `cmd`, whose 65 samples hold four words. -/
theorem cmdIsItsExpansion : Obligations.CmdIsItsExpansion := by
  intro s s0 s1 s2 s3 s4 s5 s6 c b0 b1 b2 b3 b4 rx hpm hm hw ho h0 r0 h1 r1 h2 r2 h3 r3 h4 r4 hsend hrecv hrx
  obtain ⟨rfl, hbuf⟩ := expansion_drive (legal_of hpm) h0 r0 h1 r1 h2 r2 h3 r3 h4 r4
  rw [hbuf] at hsend
  rw [← cmdDrive_length s.pinMap c s.out] at hrecv
  obtain ⟨v, hx, rfl⟩ := exchange_of_send_recv hsend hrecv hrx
  have hlen : rx.length = 65 := (exchange_length hm hw ho hx).trans (cmdDrive_length s.pinMap c s.out)
  refine ⟨ispWord v.pinMap rx 0, ispWord v.pinMap rx 1, ispWord v.pinMap rx 2, ispWord v.pinMap rx 3, ?_,
    exec_extractData (by omega), exec_extractData (by omega), exec_extractData (by omega), exec_extractData (by omega)⟩
  rw [exec, execCmd, hx]
  rfl

/-! ### The frames of TPI on the line -/

/-- The two bytes of cell `j`, at `2j` and the place behind (R69, R76, R77). -/
theorem cellsBytes_getD (pm : PinMap) (o : Byte) {xs : List Bool} (x : Bool) {j : Nat} (hj : j < xs.length) :
    (cellsBytes pm o xs)[2 * j]? = some (base pm o (xs.getD j x) false) ∧
    (cellsBytes pm o xs)[2 * j + 1]? = some (base pm o (xs.getD j x) true) := by
  rw [List.getD_eq_getElem _ _ hj]
  exact cellsBytes_getElem? o xs j hj

/-- A transmit with room for its 24 bytes completes: they are sent with discard. -/
theorem transmit_completes {s : State} (h : Legal s.pinMap) (hr : s.chan.ready (s.baudMultiplier * 24)) (b : Byte) :
    ∃ c, transmit b s = .next ((s.setOut (base s.pinMap s.out true true)).setChan c) ∧
      Sent true s.chan c (repeated s.baudMultiplier (cellsBytes s.pinMap s.out (tpiFrame b))) := by
  obtain ⟨hw, -, hl, hroom⟩ := hr
  rw [transmit, tpiTxDrive_eq h]
  obtain ⟨t, ht⟩ := sendDrive_completes (s := s) (disc := true)
    (d := ⟨base s.pinMap s.out true true, cellsBytes s.pinMap s.out (tpiFrame b)⟩) hw hl (by
      rwa [cellsBytes_length, tpiFrame_length])
  obtain ⟨c, rfl, hs⟩ := sendDrive_next hw ht
  exact ⟨c, ht, hs⟩

/-- Settles O42: what the transmit of the frame does. -/
theorem tpiTxSendsFrame : Obligations.TpiTxSendsFrame := by
  intro s b hpm hr
  obtain ⟨c, ht, hs⟩ := transmit_completes (legal_of hpm) hr b
  have hw := hr.1
  have hdebts := hs.debts
  rw [if_pos rfl, repeated_length, cellsBytes_length, tpiFrame_length] at hdebts
  refine ⟨c, cellsBytes s.pinMap s.out (tpiFrame b), ?_, by rw [cellsBytes_length, tpiFrame_length],
    fun k hk => cellsBytes_getD s.pinMap s.out true hk, hs.stream, hdebts, hs.handed, hs.asked hw, hs.queue_discard hw, hs.wf,
    hs.passed.movedTo⟩
  rw [exec, execTpiTx, ht]
  rfl

/-- What is owed after receiving windows: what was, without the discards. -/
theorem Windows.owed {pm : PinMap} {m n : Nat} {a c : Channel} {word : Nat → Word16} {bs : List Byte}
    (h : Windows pm m a c n word) (ha : a.wf) (hs : c.stream = a.stream ++ bs) (hb : bs.length = m * (32 * n)) :
    c.owed + c.aside.length + a.discard = a.owed + a.aside.length := by
  have hc := h.wf.core.owed_eq
  have howed := ha.core.owed_eq
  have hhanded := h.handed
  rw [hs, List.length_append, hb] at hc
  omega

/-- Settles O46: the one window a receive clocks, whatever it decodes to. -/
theorem tpiRxReceivesFrame : Obligations.TpiRxReceivesFrame := by
  intro s hpm hm hr
  obtain ⟨hw, ho, hl, hroom⟩ := hr
  obtain ⟨p, hp⟩ := receive_completes hm hw ho hl hroom
  obtain ⟨c, o, ds, word, hstate, hdecode, hwin, hstream, hlen, -, hlegal⟩ := receive_next hm hw ho hp
  obtain ⟨rfl, rfl⟩ := hlegal (legal_of hpm)
  refine ⟨c, word, _, _, ?_, rfl, fun k hk => ?_, hwin.queue, hlen, fun k hk => ?_, hstream, stream_of_empty hwin.txLen,
    hwin.debts, hwin.txLen, hwin.owed hw hstream (by rw [repeated_length, hlen]), hwin.wf, hwin.passed.order ho,
    hwin.passed.movedTo, queue_empty hw.debts, fun hq k hk => ?_⟩
  · have hexec : exec .tpiRx s = .next (deliver p.2 p.1) := by rw [exec, execTpiRx, hp]; rfl
    rw [hexec, hstate, hdecode]
    cases tpiDecode word <;> rfl
  · have hbit := hwin.words 0 k Nat.zero_lt_one hk
    rwa [Nat.mul_zero, Nat.zero_add] at hbit
  · have hcell := cellsBytes_getElem? (pm := s.pinMap) s.out (List.replicate 16 true) k (by rwa [List.length_replicate])
    rwa [List.getElem_replicate] at hcell
  · rw [hq, List.nil_append]
    exact samplesFrom_getD c hk

end Sys2Proof.Machine
end
section
/-! The pin operations `set_bits`, `get_bits`, `set_pin` and `get_pin` (R91 to R94). -/

namespace Sys2Proof.Machine

/-! ### Writing and reading a pin in a byte (R91, R92) -/

theorem exec_setBits (s : State) (v : Byte) (p : Pin) (x : Nat) :
    exec (.setBits v p x) s = .next (s.setRet (.byte (setBits v (pinCfg s.pinMap p) (levelOf x)))) := rfl

theorem exec_getBits (s : State) (v : Byte) (p : Pin) :
    exec (.getBits v p) s = .next (s.setRet (.level (getBits v (pinCfg s.pinMap p)))) := rfl

/-- Settles O20, by the bits of `SetBits`. -/
theorem setBitsWritesField : Obligations.SetBitsWritesField := by
  intro s v p x
  refine ⟨_, exec_setBits s v p x, fun i _ => setBits_getLsbD v _ _ i, ?_, fun h => setBits_noMask h v _⟩
  rw [exec_setBits, setBits_setBits]

/-- Settles O21: disjoint fields of a byte are written in either order. -/
theorem disjointPinWritesCommute : Obligations.DisjointPinWritesCommute := by
  intro s v p q x y h
  refine ⟨_, _, _, exec_setBits s v p x, exec_setBits s _ q y, exec_setBits s v q y, ?_⟩
  rw [exec_setBits, setBits_comm h]

/-- Settles O22: a read looks at the mask's bits only, where the write put its level. -/
theorem getBitsReadsField : Obligations.GetBitsReadsField := by
  intro s v p
  refine ⟨exec_getBits s v p, fun w hw => ?_, fun x r hm hr => ?_⟩
  · rw [exec_getBits, exec_getBits, getBits_congr hw]
  · rw [exec_setBits] at hr
    cases hr
    rw [exec_getBits, getBits_setBits hm]
    rfl

/-! ### Writing a pin of the line (R93) -/

theorem exec_setPin {s : State} {p : Pin} (hp : isOutputPin p = true) (x : Nat) :
    exec (.setPin p x) s = andThen (sendDrive (emitWith (pinCfg s.pinMap p) (levelOf x) (startDrive s.out)) true s)
      fun t => .next (t.setRet .done) := by
  rw [exec, execSetPin, if_pos hp]
  rfl

/-- What is sent for one pin written: the new byte, once per copy. -/
theorem repeated_emitWith_start (m : Nat) (p : PinCfg) (x : Bool) (o : Byte) :
    repeated m (emitWith p x (startDrive o)).buf = List.replicate m (setBits o p x) := List.append_nil _

/-- Settles O24: the pin is looked at before anything is sent. -/
theorem setPinOnInputRefused : Obligations.SetPinOnInputRefused := fun _ _ => rfl

/-- Settles O23, by what a send with discard does. -/
theorem setPinSendsNewByte : Obligations.SetPinSendsNewByte := by
  intro s p x hp hr
  obtain ⟨hw, -, hl, hroom⟩ := hr
  obtain ⟨t, ht⟩ := sendDrive_completes (disc := true)
    (d := emitWith (pinCfg s.pinMap p) (levelOf x) (startDrive s.out)) hw hl (by
      show s.chan.room (s.baudMultiplier * 1)
      rwa [Nat.mul_one])
  obtain ⟨c, rfl, hs⟩ := sendDrive_next hw ht
  rw [repeated_emitWith_start] at hs
  have hdebts := hs.debts
  rw [if_pos rfl, List.length_replicate] at hdebts
  refine ⟨c, ?_, hs.stream, hdebts, hs.handed, hs.asked hw, hs.queue_discard hw, hs.wf, hs.passed.movedTo⟩
  rw [exec_setPin (decide_eq_true hp), ht]
  rfl

/-! ### Reading a pin of the chip (R94) -/

/-- The channel after a read of the pins: one more was made, and its answer, where one was queued, is used up. -/
def Channel.pinsRead (c : Channel) : Channel :=
  { c with line := { c.line with pinReads := c.line.pinReads + 1, pins := c.line.pins.tail } }

theorem pinsRead_wf {c : Channel} (h : c.wf) : c.pinsRead.wf := h

/-- A read of the pins takes no sample and drops no discard. -/
theorem pinsRead_queue (c : Channel) : c.pinsRead.queue = c.queue := rfl

/-- `get_pin` completes when the channel is ready: a flush, then the next answer to a read of the pins, or a free value. -/
theorem exec_getPin {s : State} (p : Pin) (hr : s.chan.ready 0) :
    ∃ (c : Channel) (v : Byte), Flushed s.chan c ∧
      exec (.getPin p) s = .next ((s.setChan c.pinsRead).setRet (.level (getBits v (pinCfg s.pinMap p)))) ∧
      (c.line.pins = [] → v = Config.freePins c.line.drive c.line.pinReads) ∧
      ∀ u rest, c.line.pins = .lines u :: rest → v = u := by
  obtain ⟨hw, -, hl, hroom⟩ := hr
  obtain ⟨c, hflush⟩ := flushAndClear_completes hw.core hl hroom
  have hf := flushAndClear_flushed hw.core hflush
  obtain ⟨⟨l, v⟩, hread⟩ := readPins_completes (hf.passed.healthy hl)
  obtain ⟨rfl, hfree, hqueued⟩ := readPins_next hread
  refine ⟨c, v, hf, ?_, hfree, hqueued⟩
  rw [exec, execGetPin, hflush, andThen_next, hread]
  rfl

/-- Settles O25: what the flush leaves, and the answer to the read. -/
theorem getPinFlushesThenReads : Obligations.GetPinFlushesThenReads := by
  intro s p hr
  obtain ⟨c, v, hf, hexec, hfree, hqueued⟩ := exec_getPin p hr
  have hw := hr.1
  have hpins := hf.passed.pins
  have hpinReads := hf.passed.pinReads
  have htx : c.tx.len = 0 := by rw [hf.tx]
  rw [hpins] at hfree hqueued
  rw [hf.drive, hpinReads] at hfree
  refine ⟨c.pinsRead, v, hexec, hf.drive, htx, hf.handed, hf.debts, (pinsRead_queue c).trans (hf.queue hw),
    hf.core.pending, pinsRead_wf (hf.wf hw), fun u rest hp => ⟨hqueued u rest hp, ?_⟩, fun hp => ⟨hfree hp, ?_⟩,
    congrArg (· + 1) hpinReads⟩
  · exact congrArg List.tail (hpins.trans hp)
  · exact congrArg List.tail (hpins.trans hp)

end Sys2Proof.Machine
end
section
/-! The ISP operations as a whole: the closing bytes (R104, R105), `cmd` and `frag_encode` on the line (R107, R109),
`frag_extract` (R110), the count of rising edges (R111), and the loopback (R108). -/

namespace Sys2Proof.Machine

/-! ### Closing bytes (R104, R105) -/

section Closing

variable {pm : PinMap}

/-- A copy of the byte on the lines makes no rising edge. -/
theorem sckRises_self (a : Byte) : sckRises pm a a = false := Bool.not_and_self _

/-- A byte with SCK lowered makes no rising edge. -/
theorem sckRises_to_lowered (h : Legal pm) (a o : Byte) : sckRises pm a (setBits o pm.sck false) = false := by
  rw [sckRises, getBits_setBits h.sck_ne, Bool.and_false]

theorem risingEdges_singleton {p b : Byte} (hb : sckRises pm p b = false) : risingEdges pm p [b] = 0 := by
  rw [risingEdges, hb]
  rfl

end Closing

theorem exec_closeStretch (s : State) : exec .closeStretch s = .next (s.setRet (.drive [s.out])) := rfl

theorem exec_closeIdle (s : State) :
    exec .closeIdle s =
      .next ((s.setOut (setBits s.out s.pinMap.sck false)).setRet (.drive [setBits s.out s.pinMap.sck false])) := rfl

/-- Settles O28: one byte each, a copy of `out` and `out` with SCK lowered. -/
theorem closingBytes : Obligations.ClosingBytes := by
  intro s hpm
  have h := legal_of hpm
  exact ⟨exec_closeStretch s, risingEdges_singleton (sckRises_self _), _, exec_closeIdle s, getBits_setBits h.sck_ne _ _,
    setBits_outside (BitVec.and_not_self _) _ _, risingEdges_singleton (sckRises_to_lowered h _ _)⟩

/-! ### frag_extract (R110) -/

theorem exec_fragExtract {s : State} {rx : List Byte} {ws : List Nat} (h : ∀ w ∈ ws, 16 * w + 16 < rx.length) :
    exec (.fragExtract rx ws) s = .next (s.setRet (.bytes (ws.map (ispWord s.pinMap rx)))) := by
  have hall : ws.all (extractInBounds rx.length) = true :=
    List.all_eq_true.mpr fun w hw => extractInBounds_eq_true (h w hw)
  rw [exec, execFragExtract, if_pos hall]
  rfl

/-- Settles O31: both read the word of the index. -/
theorem fragExtractReadsEachWord : Obligations.FragExtractReadsEachWord := by
  intro s rx ws h
  refine ⟨_, exec_fragExtract h, List.length_map _, fun j hj => ?_⟩
  rw [exec_extractData (h _ (List.getElem_mem hj)), List.getD_eq_getElem _ _ (by rwa [List.length_map]), List.getElem_map]

/-! ### cmd on the line (R107) -/

/-- What a `cmd` that leaves the channel `ch` extracts from: of the next 65 logical samples of the queue, with its own behind,
the first copies (R47, R156). -/
def cmdSamples (s : State) (ch : Channel) : List Byte :=
  firstCopies s.baudMultiplier (s.chan.queue ++ ch.samplesFrom s.chan.stream.length (s.baudMultiplier * 65)) 65

/-- A `cmd` with room for its 65 bytes completes: they are exchanged, and four words are extracted. -/
theorem exec_cmd {s : State} (h : Legal s.pinMap) (hm : 1 ≤ s.baudMultiplier) (hr : s.chan.ready (s.baudMultiplier * 65))
    (c : Cmd) :
    ∃ ch, exec (.cmd c) s = .next (((s.setOut (base s.pinMap s.out (c.c3.getLsbD 0) false)).setChan ch).setRet
        (.bytes ((List.range 4).map (ispWord s.pinMap (cmdSamples s ch))))) ∧
      Exchanged s.chan ch (repeated s.baudMultiplier (cmdDrive s.pinMap c s.out).buf) (s.baudMultiplier * 65) := by
  obtain ⟨hw, ho, hl, hroom⟩ := hr
  obtain ⟨p, hp⟩ := exchange_completes (d := cmdDrive s.pinMap c s.out) hm hw ho hl (by rwa [cmdDrive_length])
  obtain ⟨ch, hstate, hx, hrx⟩ := exchange_next hm hw ho hp
  rw [cmdDrive_length] at hx hrx
  rw [cmdDrive_eq h] at hstate
  refine ⟨ch, ?_, hx⟩
  rw [exec, execCmd, hp, andThen_next, hstate, hrx]
  rfl

/-- Bit `7 - j` of word `w` of a `cmd` (R74, R107). -/
theorem cmdWord_getLsbD (s : State) (ch : Channel) {w j : Nat} (hw : w < 4) (hj : j < 8) :
    (ispWord s.pinMap (cmdSamples s ch) w).getLsbD (7 - j) =
      getBits ((s.chan.queue ++ ch.samplesFrom s.chan.stream.length (s.baudMultiplier * 65)).getD
        (s.baudMultiplier * (16 * w + 2 + 2 * j)) 0) s.pinMap.sdi := by
  rw [ispWord_getLsbD _ _ _ _ hj, cmdSamples, firstCopies_getD _ _ (by omega)]

/-- Settles O33: the exchange of the 65 bytes, and the four words of what it received. -/
theorem cmdExchangesCommand : Obligations.CmdExchangesCommand := by
  intro s c hpm hm hr
  obtain ⟨ch, hexec, hx⟩ := exec_cmd (legal_of hpm) hm hr c
  obtain ⟨hw, ho, -, -⟩ := hr
  have hlen : (repeated s.baudMultiplier (cmdDrive s.pinMap c s.out).buf).length = s.baudMultiplier * 65 := by
    rw [repeated_length, cmdDrive_length]
  have hqueue := hx.queue
  rw [hlen] at hqueue
  refine ⟨ch, _, _, hexec, rfl, rfl, fun w j hw hj => ?_, hqueue, hx.stream, stream_of_empty hx.txLen, hx.debts, hx.txLen,
    hx.owed hlen hw, hx.wf, hx.passed.order ho, hx.passed.movedTo, queue_empty hw.debts, fun hq k hk => ?_⟩
  · rw [← cmdWord_getLsbD s ch hw hj, List.getD_eq_getElem _ _ (by simpa using hw), List.getElem_map, List.getElem_range]
  · rw [hq, List.nil_append]
    exact samplesFrom_getD ch hk

/-! ### frag_encode on the line (R109) -/

theorem fragmentCountOk_eq_true {k : Nat} (h1 : 1 ≤ k) (h8 : k ≤ 8) : fragmentCountOk k = true :=
  decide_eq_true ⟨h1, h8⟩

/-- A fragment of 1 to 8 commands with room for its bytes is sent without discard. -/
theorem exec_fragEncode {s : State} {cmds : List Cmd} (h1 : 1 ≤ cmds.length) (h8 : cmds.length ≤ 8) (h : Legal s.pinMap)
    (last : Bool) (hr : s.chan.ready (s.baudMultiplier * (64 * cmds.length + 1))) :
    ∃ c, exec (.fragEncode cmds last) s =
        .next (((s.setOut (base s.pinMap s.out (lastBit cmds) (!last))).setChan c).setRet .done) ∧
      Sent false s.chan c (repeated s.baudMultiplier (fragDrive s.pinMap cmds last s.out).buf) := by
  obtain ⟨hw, -, hl, hroom⟩ := hr
  obtain ⟨t, ht⟩ := sendDrive_completes (d := fragDrive s.pinMap cmds last s.out) (disc := false) hw hl
    (by rwa [fragDrive_length])
  obtain ⟨c, rfl, hs⟩ := sendDrive_next hw ht
  refine ⟨c, ?_, hs⟩
  rw [exec, execFragEncode, if_pos (fragmentCountOk_eq_true h1 h8), ht, andThen_next,
    fragDrive_eq h cmds (List.length_pos_iff.mp h1)]
  rfl

/-- Settles O36: what sending the fragment does. -/
theorem fragEncodeSendsFragment : Obligations.FragEncodeSendsFragment := by
  intro s cmds last h1 h8 hpm hr
  obtain ⟨c, hexec, hs⟩ := exec_fragEncode h1 h8 (legal_of hpm) last hr
  have hw := hr.1
  have howed := hs.owed hw
  have hqueue := hs.queue hw
  rw [repeated_length, fragDrive_length] at howed hqueue
  exact ⟨c, hexec, hs.stream, howed, hs.debts, hs.handed, hqueue, hs.wf, hs.passed.movedTo⟩

/-! ### The count of rising edges (R111) -/

section Edges

variable {pm : PinMap}

/-- Edges of bytes one after the other: those of the latter are counted from the last byte of the former. -/
theorem risingEdges_append (p : Byte) (xs ys : List Byte) :
    risingEdges pm p (xs ++ ys) = risingEdges pm p xs + risingEdges pm (xs.getLastD p) ys := by
  induction xs generalizing p with
  | nil => exact (Nat.zero_add _).symm
  | cons x xs ih =>
    rw [List.cons_append, risingEdges, risingEdges, ih, Nat.add_assoc, List.getLastD_cons]

/-- Cells leave SCK high. -/
theorem cellsBytes_getLastD (p o : Byte) {xs : List Bool} (hne : xs ≠ []) :
    ∃ x, (cellsBytes pm o xs).getLastD p = base pm o x true := by
  obtain ⟨ys, x, rfl⟩ := List.eq_nil_or_concat xs |>.resolve_left hne
  refine ⟨x, ?_⟩
  simp [cellsBytes, cellBytes]

/-- Behind cells a closing byte makes no edge, whatever it is. -/
theorem risingEdges_cellsBytes_closing (h : Legal pm) (p o b : Byte) {xs : List Bool} (hne : xs ≠ []) :
    risingEdges pm p (cellsBytes pm o xs ++ [b]) = xs.length := by
  obtain ⟨x, hlast⟩ := cellsBytes_getLastD (pm := pm) p o hne
  rw [risingEdges_append, risingEdges_cellsBytes h, hlast, risingEdges_singleton (sckRises_of_high h _ _ _), Nat.add_zero]

/-- ISP bytes and a closing byte make eight edges a byte. -/
theorem risingEdges_dataBytes_closing (h : Legal pm) (p o b : Byte) {bs : List Byte} (hne : bs ≠ []) :
    risingEdges pm p (dataBytes pm o bs ++ [b]) = 8 * bs.length := by
  have hbits := flatMap_bitsMsb_length bs
  have hpos := List.length_pos_iff.mpr hne
  rw [dataBytes, risingEdges_cellsBytes_closing h _ _ _ (List.length_pos_iff.mp (by omega)), hbits]

theorem risingEdges_fragDrive (h : Legal pm) (p o : Byte) {cmds : List Cmd} (hne : cmds ≠ []) (last : Bool) :
    risingEdges pm p (fragDrive pm cmds last o).buf = 32 * cmds.length := by
  have hbytes := flatMap_cmdBytes_length cmds
  have hpos := List.length_pos_iff.mpr hne
  rw [fragDrive_eq h cmds hne, fragStream_eq_dataBytes,
    risingEdges_dataBytes_closing h _ _ _ (List.length_pos_iff.mp (by omega))]
  omega

end Edges

/-- Settles O38: the edges of a fragment, of which `cmd` is that of one command with the idle closing. -/
theorem risingEdgesCountBits : Obligations.RisingEdgesCountBits := by
  intro pm cmds last o p hpm hne
  have h := legal_of hpm
  exact ⟨risingEdges_fragDrive h p o hne last, fun c => risingEdges_fragDrive h p o (List.cons_ne_nil c []) true⟩

/-! ### The loopback (R51, R108) -/

section Loopback

variable {pm : PinMap}

/-- The wire writes SDI so that its line bit is that of SDO (R51). -/
theorem wire_eq_setBits (v : Byte) : wire pm v = setBits v pm.sdi (getBits v pm.sdo ^^ pm.sdo.inv ^^ pm.sdi.inv) := by
  have hline : ((getBits v pm.sdo ^^ pm.sdo.inv ^^ pm.sdi.inv) ^^ pm.sdi.inv) = decide (v &&& pm.sdo.mask ≠ 0) := by
    rw [getBits, Bool.xor_assoc, Bool.xor_self, Bool.xor_false, Bool.xor_assoc, Bool.xor_self, Bool.xor_false]
  rw [setBits, hline, wire]
  by_cases hv : v &&& pm.sdo.mask = 0 <;> simp [hv]

/-- SDI in a sample of a wired `Base`. -/
theorem getBits_wire_base (h : Legal pm) (o : Byte) (x c : Bool) :
    getBits (wire pm (base pm o x c)) pm.sdi = (x ^^ pm.sdo.inv ^^ pm.sdi.inv) := by
  rw [wire_eq_setBits, getBits_setBits h.sdi_ne, getBits_base_sdo h]

/-- The word read from wired drive bytes has SDO of the byte at `2 + 2j` in bit `7 - j` (R74). -/
theorem ispWord_wire_getLsbD (h : Legal pm) {ds : List Byte} {j : Nat} (hj : j < 8) {o : Byte} {x c : Bool}
    (hd : ds[2 + 2 * j]? = some (base pm o x c)) :
    (ispWord pm (ds.map (wire pm)) 0).getLsbD (7 - j) = (x ^^ pm.sdo.inv ^^ pm.sdi.inv) := by
  rw [ispWord_getLsbD _ _ _ _ hj, Nat.mul_zero, Nat.zero_add, List.getD_eq_getElem?_getD, List.getElem?_map, hd]
  exact getBits_wire_base h o x c

/-- On the latched loopback the samples are the byte before and all drive bytes but the last, wired. -/
theorem latchedLoopback_append_singleton (p e : Byte) (ds : List Byte) :
    latchedLoopback pm p (ds ++ [e]) = (p :: ds).map (wire pm) := by
  rw [latchedLoopback, ← List.cons_append, List.dropLast_concat]

/-- With the lag, offset `2 + 2j` shows the second byte of the cell of bit `7 - j` (D6). -/
theorem ispWord_latchedLoopback (h : Legal pm) (o p b e : Byte) :
    ispWord pm (latchedLoopback pm p (dataBytes pm o [b] ++ [e])) 0 = if pm.sdi.inv = pm.sdo.inv then b else ~~~b := by
  rw [latchedLoopback_append_singleton]
  refine byte_ext_msb fun j hj => ?_
  have hcell : (p :: dataBytes pm o [b])[2 + 2 * j]? = some (base pm o (b.getLsbD (7 - j)) true) := by
    have hsecond := (dataBytes_getElem? (pm := pm) o (bs := [b]) (i := 0) Nat.zero_lt_one hj).2
    rw [Nat.mul_zero, Nat.zero_add] at hsecond
    rwa [Nat.add_comm, List.getElem?_cons_succ]
  rw [ispWord_wire_getLsbD h hj hcell]
  cases pm.sdi.inv <;> cases pm.sdo.inv <;> simp [show 7 - j < 8 by omega]

/-- Without the lag, offset `2 + 2j` shows the first byte of the next cell, and behind the last cell the closing byte. -/
theorem dataBytes_closing_getElem?_next (o b : Byte) {j : Nat} (hj : j < 8) :
    ∃ c, (dataBytes pm o [b] ++ [base pm o (b.getLsbD 0) true])[2 + 2 * j]? = some (base pm o (b.getLsbD (6 - j)) c) := by
  obtain hlt | rfl : j + 1 < 8 ∨ j = 7 := by omega
  · have hnext := (dataBytes_append_getElem? (pm := pm) o [base pm o (b.getLsbD 0) true] (bs := [b]) (i := 0)
      Nat.zero_lt_one hlt).1
    have hplace : 16 * 0 + 2 * (j + 1) = 2 + 2 * j := by omega
    have hbit : 7 - (j + 1) = 6 - j := by omega
    rw [hplace, hbit] at hnext
    exact ⟨false, hnext⟩
  · exact ⟨true, getElem?_dataBytes_append_closing o _ [b]⟩

/-- The bits of a byte shifted up, the lowest kept: each is that of the next place down. -/
theorem shiftedUp_getLsbD (b : Byte) {j : Nat} (hj : j < 8) :
    (((b <<< 1) &&& 0xFE) ||| (b &&& 1)).getLsbD (7 - j) = b.getLsbD (6 - j) := by
  interval_cases j <;> simp

theorem ispWord_wire (h : Legal pm) (hinv : pm.sdi.inv = pm.sdo.inv) (o b : Byte) :
    ispWord pm ((dataBytes pm o [b] ++ [base pm o (b.getLsbD 0) true]).map (wire pm)) 0 =
      (((b <<< 1) &&& 0xFE) ||| (b &&& 1)) := by
  refine byte_ext_msb fun j hj => ?_
  obtain ⟨c, hnext⟩ := dataBytes_closing_getElem?_next (pm := pm) o b hj
  rw [ispWord_wire_getLsbD h hj hnext, shiftedUp_getLsbD b hj, hinv, Bool.xor_assoc, Bool.xor_self, Bool.xor_false]

end Loopback

/-- Settles O40: the samples shown at the offsets of the word, with the lag and without. -/
theorem ispLoopbackReturnsByte : Obligations.IspLoopbackReturnsByte := by
  intro s b p hpm
  have h := legal_of hpm
  have hlast : (dataBytes s.pinMap s.out [b]).getLastD 0 = base s.pinMap s.out (b.getLsbD 0) true := rfl
  refine ⟨dataBytes s.pinMap s.out [b], exec_setData h b, ?_, fun hinv => ?_⟩
  · rw [exec_extractData (by simp [latchedLoopback_append_singleton, dataBytes_length]), ispWord_latchedLoopback h]
  · rw [hlast, exec_extractData (by simp [dataBytes_length]), ispWord_wire h hinv]

end Sys2Proof.Machine
end
section
/-! The TPI frame as cells (R75, R115, R118, R121): its parity, what the checks of a decode read of a word, and what a decode
makes of the frame of a byte, whole or with one cell flipped. -/

namespace Sys2Proof.Machine

/-! ### Parity (R21, R81) -/

theorem foldl_xor (bits : List Bool) (p : Bool) : bits.foldl (fun p b => p ^^ b) p = (p ^^ parity bits) := by
  rw [parity, ← List.foldl_assoc (op := xor), Bool.xor_false]

theorem parity_cons (b : Bool) (bits : List Bool) : parity (b :: bits) = (b ^^ parity bits) := by
  rw [parity, List.foldl_cons, foldl_xor, Bool.false_xor]

theorem parity_append (xs ys : List Bool) : parity (xs ++ ys) = (parity xs ^^ parity ys) := by
  rw [parity, List.foldl_append, foldl_xor]
  rfl

theorem parity_append_parity (bits : List Bool) : parity (bits ++ [parity bits]) = false := by
  rw [parity_append, parity_cons, parity, parity, List.foldl_nil, Bool.xor_false, Bool.xor_self]

/-- Parity says whether the ones are odd in number. -/
theorem parity_eq_decide_count (bits : List Bool) : parity bits = decide (bits.count true % 2 = 1) := by
  induction bits with
  | nil => rfl
  | cons b bits ih =>
    rw [parity_cons, ih, List.count_cons]
    cases b
    · simp
    · simp only [Bool.true_xor, beq_self_eq_true, if_true, ← decide_not]
      congr 1
      rw [eq_iff_iff]
      omega

/-- The exclusive-or of the `n` cells from `a` on. -/
def cellParity (f : Nat → Bool) (a n : Nat) : Bool := parity ((List.range' a n).map f)

theorem cellParity_cons (f : Nat → Bool) (a n : Nat) : cellParity f a (n + 1) = (f a ^^ cellParity f (a + 1) n) := by
  rw [cellParity, List.range'_succ, List.map_cons, parity_cons]
  rfl

theorem cellParity_concat (f : Nat → Bool) (a n : Nat) : cellParity f a (n + 1) = (cellParity f a n ^^ f (a + n)) := by
  rw [cellParity, List.range'_1_concat, List.map_append, parity_append]
  simp [cellParity, parity]

/-- A run of cells moved on by one loses its first cell and takes in the next. -/
theorem cellParity_move (f : Nat → Bool) (a n : Nat) :
    cellParity f (a + 1) n = (cellParity f a n ^^ (f a ^^ f (a + n))) := by
  have h := (cellParity_cons f a n).symm.trans (cellParity_concat f a n)
  rw [Bool.xor_left_comm, ← h, ← Bool.xor_assoc, Bool.xor_self, Bool.false_xor]

/-- Moved on past ones to take in ones, a run of cells keeps its parity. -/
theorem cellParity_move_ones {f : Nat → Bool} {a n : Nat} (k : Nat) (hout : ∀ j, j < k → f (a + j) = true)
    (hin : ∀ j, j < k → f (a + j + n) = true) : cellParity f (a + k) n = cellParity f a n := by
  induction k with
  | zero => rfl
  | succ k ih =>
    rw [← Nat.add_assoc, cellParity_move, hout k (Nat.lt_succ_self k), hin k (Nat.lt_succ_self k), Bool.xor_self,
      Bool.xor_false, ih (fun j hj => hout j (by omega)) (fun j hj => hin j (by omega))]

/-- Flipping one cell flips the parity of the runs it lies in. -/
theorem cellParity_flip (f : Nat → Bool) (c a n : Nat) :
    cellParity (fun j => f j ^^ decide (j = c)) a n = (cellParity f a n ^^ decide (a ≤ c ∧ c < a + n)) := by
  induction n with
  | zero =>
    have : ¬ (a ≤ c ∧ c < a + 0) := by omega
    rw [decide_eq_false this, Bool.xor_false]
    rfl
  | succ n ih =>
    rw [cellParity_concat, cellParity_concat, ih]
    by_cases hc : a + n = c
    · have h2 : a ≤ c ∧ c < a + (n + 1) := by omega
      simp [hc, h2]
    · have h : (a ≤ c ∧ c < a + (n + 1)) ↔ (a ≤ c ∧ c < a + n) := by omega
      simp only [h, hc, decide_false, Bool.xor_false]
      rw [Bool.xor_right_comm]

/-- Runs of cells that agree have the same parity. -/
theorem cellParity_congr {f g : Nat → Bool} {a b n : Nat} (h : ∀ j, j < n → f (a + j) = g (b + j)) :
    cellParity f a n = cellParity g b n := by
  induction n with
  | zero => rfl
  | succ n ih =>
    rw [cellParity_concat, cellParity_concat, ih fun j hj => h j (by omega), h n (Nat.lt_succ_self n)]

theorem parity_frameData (res : Word16) (s : Nat) : parity (frameData res s) = cellParity res.getLsbD (s + 1) 8 := by
  rw [cellParity, List.range'_eq_map_range, List.map_map]
  rfl

/-- The exclusive-or of eight cells, written out. -/
theorem cellParity_eight (f : Nat → Bool) (a : Nat) : cellParity f a 8 =
    (f a ^^ f (a + 1) ^^ f (a + 2) ^^ f (a + 3) ^^ f (a + 4) ^^ f (a + 5) ^^ f (a + 6) ^^ f (a + 7)) := by
  simp only [cellParity_concat]
  simp [cellParity, parity]

/-! ### The checks of a decode (R118, R129) -/

/-- The lowest 0 among the first four cells is cell `st`. -/
def StartsAt (res : Word16) (st : Nat) : Prop :=
  st < 4 ∧ res.getLsbD st = false ∧ ∀ k, k < st → res.getLsbD k = true

theorem startBit_eq_some {res : Word16} {st : Nat} : startBit res = some st ↔ StartsAt res st := by
  rw [startBit, List.find?_range_eq_some, StartsAt]
  simp only [Bool.not_eq_true', Bool.not_not, List.mem_range, Config.tpiStartWindow]
  tauto

theorem startBit_eq_none {res : Word16} : startBit res = none ↔ ∀ k, k < 4 → res.getLsbD k = true := by
  rw [startBit, List.find?_range_eq_none]
  simp only [Bool.not_not]

section Checks

variable {res : Word16} {st : Nat}

theorem tpiDecode_of_no_start (h : ∀ k, k < 4 → res.getLsbD k = true) : tpiDecode res = .error .startMissing := by
  rw [tpiDecode, startBit_eq_none.mpr h]

/-- The parity check asks whether data and parity cell together hold an odd number of ones. -/
theorem parityCell_ne_iff :
    res.getLsbD (st + 9) ≠ cellParity res.getLsbD (st + 1) 8 ↔ cellParity res.getLsbD (st + 1) 9 = true := by
  rw [cellParity_concat res.getLsbD (st + 1) 8, show st + 1 + 8 = st + 9 from rfl, bne_iff_ne, ne_comm]

variable (h : StartsAt res st)

include h

/-- A decode that finds its start cell: parity, then the stop cells, then the byte. -/
theorem tpiDecode_of_startsAt : tpiDecode res =
    if res.getLsbD (st + 9) ≠ cellParity res.getLsbD (st + 1) 8 then .error .parity
    else if res.getLsbD (st + 10) = false ∨ res.getLsbD (st + 11) = false then .error .stop
    else .ok (assembleLsb fun i => res.getLsbD (st + 1 + i)) := by
  rw [tpiDecode, startBit_eq_some.mpr h]
  simp only [frameStatus, parity_frameData]
  by_cases hp : res.getLsbD (st + 9) ≠ cellParity res.getLsbD (st + 1) 8
  · simp only [if_pos hp]
  · simp only [if_neg hp]
    cases res.getLsbD (st + 10) <;> cases res.getLsbD (st + 11) <;> rfl

theorem tpiDecode_of_oddParity (hp : cellParity res.getLsbD (st + 1) 9 = true) : tpiDecode res = .error .parity := by
  rw [tpiDecode_of_startsAt h, if_pos (parityCell_ne_iff.mpr hp)]

/-- With an even number of ones in data and parity cell the stop cells decide. -/
theorem tpiDecode_of_evenParity (hp : cellParity res.getLsbD (st + 1) 9 = false) : tpiDecode res =
    if res.getLsbD (st + 10) = false ∨ res.getLsbD (st + 11) = false then .error .stop
    else .ok (assembleLsb fun i => res.getLsbD (st + 1 + i)) := by
  rw [tpiDecode_of_startsAt h, if_neg fun hne => Bool.false_ne_true (hp.symm.trans (parityCell_ne_iff.mp hne))]

end Checks

theorem exec_tpiDecode (res : Word16) (s : State) :
    exec (.tpiDecode res) s = .next (deliver (tpiDecode res) s) := rfl

/-! ### The frame (R115) -/

/-- Cell `j` of the frame of `b`, or the idle level behind it. -/
def frameCell (b : Byte) (j : Nat) : Bool := (tpiFrame b).getD j true

theorem cellParity_frameCell (b : Byte) : cellParity (frameCell b) 1 9 = false := parity_append_parity (bitsLsb b)

/-- The stop cells, and the idle level behind them. -/
theorem frameCell_of_ten_le (b : Byte) {j : Nat} (hj : 10 ≤ j) : frameCell b j = true := by
  obtain rfl | rfl | h12 : j = 10 ∨ j = 11 ∨ 12 ≤ j := by omega
  · rfl
  · rfl
  · exact List.getD_eq_default _ _ h12

theorem frameCell_data (b : Byte) {i : Nat} (hi : i < 8) : frameCell b (1 + i) = b.getLsbD i := by
  interval_cases i <;> rfl

/-- Settles O41: data and parity cell together hold an even number of ones. -/
theorem tpiFrameLayout : Obligations.TpiFrameLayout := by
  intro s b
  refine ⟨parity (bitsLsb b), ?_, rfl, ?_, rfl, rfl, rfl, rfl⟩
  · exact cellParity_eight b.getLsbD 0
  · have h := parity_append_parity (bitsLsb b)
    rw [parity_eq_decide_count, decide_eq_false_iff_not] at h
    exact Nat.mod_two_ne_one.mp h

/-- Settles O43: the three outcomes of the checks. -/
theorem tpiDecodeChecksInOrder : Obligations.TpiDecodeChecksInOrder := by
  intro s res
  refine ⟨fun h => ?_, fun st h4 h0 h1 => ?_, rfl, rfl, rfl, rfl, rfl, rfl⟩
  · rw [exec_tpiDecode, tpiDecode_of_no_start h]
    rfl
  · refine ⟨cellParity res.getLsbD (st + 1) 8, assembleLsb fun i => res.getLsbD (st + 1 + i), cellParity_eight _ _,
      fun i hi => assembleLsb_getLsbD _ i hi, ?_⟩
    rw [exec_tpiDecode, tpiDecode_of_startsAt ⟨h4, h0, h1⟩]
    split_ifs <;> rfl

/-! ### The frame in a received word (R121) -/

/-- After idle cells, a cell of the word is that of what arrives. -/
theorem wordOfCells_idle_getLsbD (cells : List Bool) {p j : Nat} (hj : p + j < 16) :
    (wordOfCells (List.replicate p true ++ cells)).getLsbD (p + j) = cells.getD j true := by
  rw [wordOfCells_getLsbD _ _ hj, List.getD_append_right _ _ _ _ (by simp), List.length_replicate, Nat.add_sub_cancel_left]

theorem wordOfCells_getLsbD_of_lt_idle (cells : List Bool) {p k : Nat} (hk : k < p) (h16 : k < 16) :
    (wordOfCells (List.replicate p true ++ cells)).getLsbD k = true := by
  rw [wordOfCells_getLsbD _ _ h16, List.getD_append _ _ _ _ (by simpa), List.getD_replicate _ hk]

/-- Cell `j` of the frame of `b` with cell `c` flipped, or the idle level behind it. -/
def flippedCell (b : Byte) (c j : Nat) : Bool := frameCell b j ^^ decide (j = c)

theorem cellParity_flippedCell (b : Byte) (c : Nat) : cellParity (flippedCell b c) 1 9 = decide (1 ≤ c ∧ c < 10) := by
  rw [show flippedCell b c = fun j => frameCell b j ^^ decide (j = c) from rfl, cellParity_flip, cellParity_frameCell,
    Bool.false_xor]

section Received

variable {b : Byte} {p c : Nat}

theorem frameWord_getLsbD {j : Nat} (hj : p + j < 16) : (frameWord b p).getLsbD (p + j) = frameCell b j :=
  wordOfCells_idle_getLsbD _ hj

theorem flippedWord_getLsbD (hc : c < 12) {j : Nat} (hj : p + j < 16) :
    (flippedWord b p c).getLsbD (p + j) = flippedCell b c j := by
  rw [flippedWord, wordOfCells_idle_getLsbD _ hj, flippedCell, frameCell, List.getD_eq_getElem?_getD,
    List.getD_eq_getElem?_getD, List.getElem?_modify]
  by_cases hjc : j = c
  · rw [hjc, List.getElem?_eq_getElem (show c < (tpiFrame b).length from hc)]
    simp
  · simp [hjc, Ne.symm hjc]

theorem frameWord_startsAt (hp : p < 4) : StartsAt (frameWord b p) p :=
  ⟨hp, frameWord_getLsbD (j := 0) (by omega), fun _ hk => wordOfCells_getLsbD_of_lt_idle _ hk (by omega)⟩

/-- The parity of cells of the word is that of the cells that arrived. -/
theorem cellParity_shift {res : Word16} {f : Nat → Bool} (h : ∀ j, p + j < 16 → res.getLsbD (p + j) = f j) {a n : Nat}
    (hn : p + a + n ≤ 16) : cellParity res.getLsbD (p + a) n = cellParity f a n :=
  cellParity_congr fun j hj => by rw [Nat.add_assoc]; exact h _ (by omega)

end Received

/-- Settles O44: the checks pass on the frame's own cells. -/
theorem tpiFrameRoundTrip : Obligations.TpiFrameRoundTrip := by
  intro b p
  refine ⟨fun hp => ?_, fun hp => tpiDecode_of_no_start fun k hk => wordOfCells_getLsbD_of_lt_idle _ (by omega) (by omega)⟩
  have hpar : cellParity (frameWord b p).getLsbD (p + 1) 9 = false :=
    (cellParity_shift (fun _ => frameWord_getLsbD) (by omega)).trans (cellParity_frameCell b)
  have hstop : ∀ j, 10 ≤ j → j < 12 → (frameWord b p).getLsbD (p + j) = true := fun j h10 _ =>
    (frameWord_getLsbD (by omega)).trans (frameCell_of_ten_le b h10)
  rw [tpiDecode_of_evenParity (frameWord_startsAt hp) hpar, if_neg (by
    simp [hstop 10 (by omega) (by omega), hstop 11 (by omega) (by omega)])]
  refine congrArg _ (BitVec.eq_of_getLsbD_eq fun i hi => ?_)
  rw [assembleLsb_getLsbD _ i hi, Nat.add_assoc, frameWord_getLsbD (by omega), frameCell_data b hi]

/-- A flipped start cell: from the lowest 0 behind it the run of nine cells is odd, since it is the data and parity cells moved on
past ones to take in stop and idle cells, and then past the 0. -/
theorem cellParity_flippedCell_start {b : Byte} {k : Nat} (h1 : ∀ j, j < k → flippedCell b 0 j = true)
    (h0 : flippedCell b 0 k = false) : cellParity (flippedCell b 0) (k + 1) 9 = true := by
  have hidle : ∀ j, 10 ≤ j → flippedCell b 0 j = true := fun j hj => by
    rw [flippedCell, frameCell_of_ten_le b hj, decide_eq_false (by omega)]
    rfl
  cases k with
  | zero => exact nomatch show true = false from h0
  | succ i =>
    rw [Nat.add_comm i 1] at h0 h1 ⊢
    rw [cellParity_move, cellParity_move_ones i (fun j hj => h1 _ (by omega)) (fun j _ => hidle _ (by omega)), h0,
      hidle _ (by omega), cellParity_flippedCell]
    rfl

/-- A flipped start cell: whatever 0 the hunt finds instead, the parity check fails behind it. -/
theorem flippedWord_oddParity {b : Byte} {p st : Nat} (h : StartsAt (flippedWord b p 0) st) :
    cellParity (flippedWord b p 0).getLsbD (st + 1) 9 = true := by
  obtain ⟨h4, h0, h1⟩ := h
  have hle : p ≤ st := Nat.le_of_not_lt fun hlt =>
    Bool.false_ne_true (h0.symm.trans (wordOfCells_getLsbD_of_lt_idle _ hlt (by omega)))
  obtain ⟨k, rfl⟩ := Nat.exists_eq_add_of_le hle
  have hcell : ∀ j, p + j < 16 → (flippedWord b p 0).getLsbD (p + j) = flippedCell b 0 j := fun _ =>
    flippedWord_getLsbD (by omega)
  rw [Nat.add_assoc, cellParity_shift hcell (by omega)]
  exact cellParity_flippedCell_start (fun j hj => (hcell j (by omega)).symm.trans (h1 _ (by omega)))
    ((hcell k (by omega)).symm.trans h0)

/-- Settles O45: by the flipped cell. -/
theorem tpiSingleFlipDetected : Obligations.TpiSingleFlipDetected := by
  intro b p c hp hc
  have hpar : cellParity (flippedWord b p c).getLsbD (p + 1) 9 = decide (1 ≤ c ∧ c < 10) :=
    (cellParity_shift (fun _ => flippedWord_getLsbD hc) (by omega)).trans (cellParity_flippedCell b c)
  by_cases hc0 : c = 0
  · subst hc0
    rw [if_pos rfl]
    cases hst : startBit (flippedWord b p 0) with
    | none =>
      have hones := startBit_eq_none.mp hst
      rw [tpiDecode_of_no_start hones, if_pos (List.all_eq_true.mpr fun k hk => hones k (List.mem_range.mp hk))]
    | some st =>
      have hstart := startBit_eq_some.mp hst
      rw [tpiDecode_of_oddParity hstart (flippedWord_oddParity hstart), if_neg]
      intro hall
      have hst1 := List.all_eq_true.mp hall st (List.mem_range.mpr hstart.1)
      exact Bool.false_ne_true (hstart.2.1.symm.trans hst1)
  · have hstart : StartsAt (flippedWord b p c) p := by
      refine ⟨hp, (flippedWord_getLsbD (j := 0) hc (by omega)).trans ?_,
        fun k hk => wordOfCells_getLsbD_of_lt_idle _ hk (by omega)⟩
      exact (Bool.false_xor _).trans (decide_eq_false (Ne.symm hc0))
    rw [if_neg hc0]
    by_cases h10 : c < 10
    · rw [if_pos h10, tpiDecode_of_oddParity hstart (by rw [hpar]; exact decide_eq_true (by omega))]
    · rw [if_neg h10, tpiDecode_of_evenParity hstart (by rw [hpar]; exact decide_eq_false (by omega)), if_pos]
      obtain rfl | rfl : c = 10 ∨ c = 11 := by omega
      · exact .inl ((flippedWord_getLsbD hc (by omega)).trans rfl)
      · exact .inr ((flippedWord_getLsbD hc (by omega)).trans rfl)

end Sys2Proof.Machine
end
section
/-! `cmd_tpi` as a whole (R119, R129, R130): its frames sent with discard, then a window for each receive, up to the first bad
one. -/

namespace Sys2Proof.Machine

/-- The transmits of `cmd_tpi`, with room for their frames and for `k` bytes more, complete and leave room for those. -/
theorem transmitAll_ready {s : State} {cmd : List Byte} {k : Nat} (h : Legal s.pinMap)
    (hr : s.chan.ready (s.baudMultiplier * (24 * cmd.length) + k)) :
    ∃ (c : Channel) (o : Byte), transmitAll cmd s = .next ((s.setOut o).setChan c) ∧
      o = (if cmd = [] then s.out else base s.pinMap s.out true true) ∧
      Sent true s.chan c (repeated s.baudMultiplier (framesBytes s.pinMap s.out cmd)) ∧
      (framesBytes s.pinMap s.out cmd).length = 24 * cmd.length ∧ c.ready k := by
  obtain ⟨hw, -, hl, hroom⟩ := id hr
  obtain ⟨t, ht⟩ := transmitAll_completes (bs := cmd) hw hl (by simp only [Channel.room] at hroom ⊢; omega)
  obtain ⟨c, o, ds, rfl, hs, hlen, -, hlegal⟩ := transmitAll_next hw ht
  obtain ⟨rfl, rfl⟩ := hlegal h
  exact ⟨c, _, ht, rfl, hs, hlen, hs.ready (by rwa [repeated_length, hlen])⟩

/-- The drive bytes of cells are the same whichever of the two codec fields of `out` were written before. -/
theorem cellsBytes_of_out {pm : PinMap} (h : Legal pm) {o o' : Byte} {x y : Bool} (ho : o' = o ∨ o' = base pm o x y)
    (xs : List Bool) : cellsBytes pm o' xs = cellsBytes pm o xs := by
  rcases ho with rfl | rfl
  · rfl
  · exact cellsBytes_base h _ _ _ _

/-- What is owed after bytes sent with discard and windows received: what was, without the discards. -/
theorem Sent.windows_owed {pm : PinMap} {m n : Nat} {a b c : Channel} {xs ys : List Byte} {word : Nat → Word16}
    (h1 : Sent true a b xs) (h2 : Windows pm m b c n word) (ha : a.wf) (hs : c.stream = b.stream ++ ys)
    (hy : ys.length = m * (32 * n)) : c.owed + c.aside.length + a.discard = a.owed + a.aside.length := by
  have howed := h2.owed h1.wf hs hy
  have hsent := h1.owed ha
  have hdiscard : b.discard = a.discard + xs.length := (Prod.mk.inj h1.debts).1
  rw [h1.aside] at howed
  omega

/-- Settles O47: the frames leave the queue as it was, and the windows take their samples from it. -/
theorem cmdTpiSendsThenReceives : Obligations.CmdTpiSendsThenReceives := by
  intro s cmd n hpm hm hr
  have h := legal_of hpm
  have hw := hr.1
  rw [Nat.mul_add] at hr
  obtain ⟨c, o, ht, hout, hs, hlen, hready⟩ := transmitAll_ready h hr
  have hstream : c.stream.length = s.chan.stream.length + s.baudMultiplier * (24 * cmd.length) := by
    rw [hs.stream, List.length_append, repeated_length, hlen]
  have hexec : exec (.cmdTpi cmd n) s = receiveAll n [] ((s.setOut o).setChan c) := by
    rw [exec, execCmdTpi, ht, andThen_next]
  have hsame : o = s.out ∨ o = base s.pinMap s.out true true := hout ▸ ite_eq_or_eq _ _ _
  have hempty := queue_empty hw.debts
  cases n with
  | zero =>
    have hdebts : c.debts = s.chan.debtsWith (s.baudMultiplier * (24 * cmd.length)) := by
      rw [hs.debts, if_pos rfl, repeated_length, hlen]
    refine ⟨c, o, .bytes [], 0, 0, [], _, fun _ => 0, hexec, ?_, rfl, nofun, ?_, rfl, nofun, .inl ⟨rfl, rfl, rfl⟩, ?_,
      fun _ => ⟨hdebts, hs.handed⟩, fun h0 => absurd rfl h0, hs.wf, hready.2.1, hs.passed.movedTo, hempty, ?_⟩
    · rw [hout]
      cases cmd <;> rfl
    · rw [hs.queue_discard hw]
      simp [Channel.samplesFrom]
    · rw [hs.stream]
      simp [cellsBytes, framesBytes]
    · exact fun _ k hk => absurd hk (Nat.not_lt_zero k)
  | succ n =>
    obtain ⟨hcw, ho, hl, hroom⟩ := hready
    obtain ⟨t, hrecv⟩ := receiveAll_completes (res := []) (s := (s.setOut o).setChan c) hm hcw ho hl hroom
    obtain ⟨c2, o2, ds, r, k, w, got, word, rfl, -, hwin, hgot, hgood, hcase, hstream2, hlen2, -, hlegal⟩ :=
      receiveAll_next (s := (s.setOut o).setChan c) hm hcw ho hrecv
    obtain ⟨rfl, rfl⟩ := hlegal h
    have hwords := hwin.words
    have hqueue := hwin.queue
    simp only [setChan_chan, hs.queue_discard hw, hstream] at hwords hqueue
    refine ⟨c2, _, r, k, w, got, _, word, hexec.trans hrecv, ?_, rfl, hwords, hqueue, hgot, hgood, hcase, ?_, nofun,
      fun _ => ⟨hwin.debts, hwin.txLen, ?_⟩, hwin.wf, hwin.passed.order ho, (hs.passed.trans hwin.passed).movedTo, hempty, ?_⟩
    · rcases hsame with rfl | rfl
      · rfl
      · exact base_base h _ _ _ _ _
    · refine hstream2.trans ?_
      rw [setChan_chan, hs.stream, List.append_assoc, setChan_pinMap, setOut_pinMap, setChan_out, setOut_out,
        cellsBytes_of_out h hsame]
      exact congrArg _ List.flatMap_append.symm
    · exact hs.windows_owed hwin hw hstream2 (by rw [repeated_length, hlen2])
    · intro hq k hk
      rw [hq, List.nil_append, samplesFrom_getD _ hk]

end Sys2Proof.Machine
end
section
/-! The exceptions: what recording a fault leaves (R131, U7, log 18), and the numbers of the results (R128, D10, log 13). -/

namespace Sys2Proof.Machine

/-! ### What recording a fault leaves (R131, U7) -/

theorem recordFault_out (reason : FaultReason) (line : Line) (s : State) :
    (recordFault reason line s).out = (s.out &&& ~~~s.ddr) ||| (Config.freeOutAfterFault line.drive &&& s.ddr) := rfl

theorem recordFault_chan (reason : FaultReason) (line : Line) (s : State) :
    (recordFault reason line s).chan = emptied { s.chan with line := line } := rfl

/-- A byte put on the driven lines of another leaves the other lines as they were. -/
theorem merge_and_not (x y mask : Byte) : ((x &&& ~~~mask) ||| (y &&& mask)) &&& ~~~mask = x &&& ~~~mask := by
  rw [BitVec.and_or_distrib_right]
  simp [BitVec.and_assoc]

theorem emptied_owed (c : Channel) : (emptied c).owed = 0 := rfl

theorem emptied_debts (c : Channel) : (emptied c).debts = (0, [], []) := rfl

/-- Settles O5: the driven lines alone are freed, and the channel is an emptied one. -/
theorem faultIsRecorded : Obligations.FaultIsRecorded := by
  intro s reason line hw
  rw [recordFault_out, recordFault_chan]
  exact ⟨rfl, rfl, rfl, rfl, rfl, rfl, merge_and_not _ _ _, emptied_stream _, emptied_owed _, emptied_debts _,
    emptied_wf hw.core line⟩

/-! ### The numbers of the results (R128) -/

/-- Whatever the open sign and magnitude, the number of the TPI errors is not that of success. -/
theorem tpiErrCode_ne_zero : Config.tpiErrCode ≠ 0 := by
  unfold Config.tpiErrCode
  split <;> omega

/-- Every result but a TPI error is a success. -/
theorem retCode_of_ne_tpiError {r : Ret} (hset : r ≠ .unset) (herr : ∀ cause res, r ≠ .tpiError cause res) :
    retCode r = some 0 := by
  cases r with
  | unset => exact absurd rfl hset
  | tpiError cause res => exact absurd rfl (herr cause res)
  | done | byte | level | cells | drive | bytes | count => rfl

/-- Settles O48: the cause does not enter the number, which is not that of success. -/
theorem tpiErrorsShareNonZeroCode : Obligations.TpiErrorsShareNonZeroCode :=
  ⟨fun _ _ => rfl, tpiErrCode_ne_zero, fun _ => retCode_of_ne_tpiError⟩

end Sys2Proof.Machine
end
section
/-! The machine with nothing to run (log 2), and an operation called outside an open session (R146, R153, U7, U13). -/

namespace Sys2Proof.Machine

/-- Settles O6: a step looks at the queue of calls first, and an empty one ends it. -/
theorem machineWithoutCallWaits : Obligations.MachineWithoutCallWaits := by
  intro s hcalls
  rw [step, show s.calls = [] from hcalls]

/-- The session is looked at before the packet is decoded. -/
theorem fetchOp_of_not_opened {s : State} (packet : List Byte) (hs : s.session ≠ .opened) :
    fetchOp packet s = .refused .sessionNotOpen := by
  rw [fetchOp, if_pos hs]

/-- Settles O9: the fetch refuses the call, and with it the step. -/
theorem operationOutsideSessionRefused : Obligations.OperationOutsideSessionRefused := by
  intro s packet rest hs hcalls
  rw [step_of_calls_op hcalls, fetchOp_of_not_opened packet hs, andThen_refused]

end Sys2Proof.Machine
end
